-- ==== Sys2Proof/Word.lean ====
section
/-! DEFINITION. The word and byte-string types of the block (spec/00_scope.md rules R8 and R9). -/

namespace Sys2Proof

/-- A byte is 8 bits (R9). -/
abbrev Byte := BitVec 8

/-- A word is 32 bits wide unless a width is stated (R8). -/
abbrev Word := BitVec 32

/-- A byte string: `p[i]` is byte i, counted from 0 (R9). -/
abbrev Bytes := List Byte

/-- The data of one host register access: as wide as the widest register, NV_BYTES (R37, R42).  How a
bus splits it is CSR_BINDING, which R7 leaves open. -/
abbrev PortData := BitVec 66

end Sys2Proof
end

