-- ==== Sys2Proof/Syntax.lean ====
section
/-! DEFINITION. The operations of the block (spec/00_scope.md rule R5), one constructor for each row of
spec/opcode_table.json; the words they are fetched from; and the frames they move (R30). -/

namespace Sys2Proof

/-- The operations of the block. -/
inductive Instr where
  /-- READ (R238). -/
  | read
  /-- WRITE (R246). -/
  | write
  /-- DEC.SYN_STREAM (R171), with the other fields of the header that selected it. -/
  | decSynStream (version : BitVec 15) (flags : BitVec 8) (length : BitVec 24)
  /-- DEC.SYN_REPLY (R172). -/
  | decSynReply (version : BitVec 15) (flags : BitVec 8) (length : BitVec 24)
  /-- DEC.RST_STREAM (R173). -/
  | decRstStream (version : BitVec 15) (flags : BitVec 8) (length : BitVec 24)
  /-- DEC.SETTINGS (R174). -/
  | decSettings (version : BitVec 15) (flags : BitVec 8) (length : BitVec 24)
  /-- DEC.PING (R175). -/
  | decPing (version : BitVec 15) (flags : BitVec 8) (length : BitVec 24)
  /-- DEC.GOAWAY (R176). -/
  | decGoaway (version : BitVec 15) (flags : BitVec 8) (length : BitVec 24)
  /-- DEC.HEADERS (R177). -/
  | decHeaders (version : BitVec 15) (flags : BitVec 8) (length : BitVec 24)
  /-- DEC.WINDOW_UPDATE (R178). -/
  | decWindowUpdate (version : BitVec 15) (flags : BitVec 8) (length : BitVec 24)
  /-- DEC.CREDENTIAL (R179). -/
  | decCredential (version : BitVec 15) (flags : BitVec 8) (length : BitVec 24)
  /-- DATA_FRAME (R233): a HeaderWord whose control bit is clear. -/
  | dataFrame (streamId : BitVec 31)
  /-- UNKNOWN_TYPE (R235): the default row. -/
  | unknownType (version : BitVec 15) (type : BitVec 16) (flags : BitVec 8) (length : BitVec 24)
  /-- ENC.SYN_STREAM (R201). -/
  | encSynStream
  /-- ENC.SYN_REPLY (R202). -/
  | encSynReply
  /-- ENC.RST_STREAM (R203). -/
  | encRstStream
  /-- ENC.SETTINGS (R204). -/
  | encSettings
  /-- ENC.PING (R205). -/
  | encPing
  /-- ENC.GOAWAY (R206). -/
  | encGoaway
  /-- ENC.HEADERS (R207). -/
  | encHeaders
  /-- ENC.WINDOW_UPDATE (R208). -/
  | encWindowUpdate
  /-- HDR.PACK (R130), its operands as the host presents them (R138: wider values are masked). -/
  | hdrPack (control version type : Word)
  /-- HDR.UNPACK (R131). -/
  | hdrUnpack (w : Word)
  /-- FL.PACK (R132). -/
  | flPack (flags length : Word)
  /-- FL.UNPACK (R133). -/
  | flUnpack (w : Word)
  /-- SID.PACK (R134). -/
  | sidPack (id : Word)
  /-- SID.UNPACK (R135). -/
  | sidUnpack (w : Word)
  /-- PRI.PACK (R136). -/
  | priPack (priority : Word)
  /-- PRI.UNPACK (R137). -/
  | priUnpack (w : Word)
  /-- NV.DEC (R151). -/
  | nvDec
  /-- NV.ENC (R152). -/
  | nvEnc
  deriving DecidableEq, Repr

/-- The eight function ports of the word unit (R138). -/
inductive WordFn where
  | hdrPack | hdrUnpack | flPack | flUnpack | sidPack | sidUnpack | priPack | priUnpack
  deriving DecidableEq, Repr

/-- The words an operation is fetched from.  The block has four kinds of them (R5, R35, R37, R113,
R138, R240): a host write to a command register, a frame header, the type code of the descriptor, and
a call of a function port. -/
inductive InstrWord where
  /-- A host write of `data` to register number `reg` (R35, R37, R42). -/
  | command (reg : BitVec 8) (data : PortData)
  /-- A HeaderWord alone: all that is read of a data frame (R113, R233). -/
  | dataHeader (w0 : Word)
  /-- The 8-byte header of a control frame (R113). -/
  | header (w0 w1 : Word)
  /-- The contents of TX_TYPE (R240). -/
  | txType (t : BitVec 16)
  /-- A call of a function port with the values on its inputs (R138). -/
  | port (fn : WordFn) (a b c : Word)
  deriving DecidableEq, Repr

/-- One entry of a Settings frame (R30, R96). -/
structure SetEntry where
  flags : BitVec 8
  id : BitVec 24
  value : Word
  deriving DecidableEq, Repr

/-- The body of a frame: the tagged union of R30. -/
inductive Body where
  | synStream (streamId associatedStreamId : BitVec 31) (priority : BitVec 3) (headers : Bytes)
  | synReply (streamId : BitVec 31) (headers : Bytes)
  | rstStream (streamId : BitVec 31) (statusCode : Word)
  | settings (entries : List SetEntry)
  | ping (id : Word)
  | goAway (lastGoodStreamId : BitVec 31) (statusCode : Word)
  | headers (streamId : BitVec 31) (headers : Bytes)
  | windowUpdate (streamId deltaWindowSize : BitVec 31)
  deriving DecidableEq, Repr

/-- A frame as a value (R30). -/
structure Frame where
  version : BitVec 15
  flags : BitVec 8
  body : Body
  deriving DecidableEq, Repr

/-- The eight implemented frame types (R97). -/
inductive FrameKind where
  | synStream | synReply | rstStream | settings | ping | goAway | headers | windowUpdate
  deriving DecidableEq, Repr

end Sys2Proof
end

