-- ==== Sys2Proof/Machine/Bits.lean ====
section
/-! DEFINITION. Big-endian word primitives (spec/00_scope.md rule R10) and the four bit-field words with
their constructors and accessors (spec/40_words.md rules R130 to R138).  Everything here is pure. -/

namespace Sys2Proof.Machine

/-- `be32(w)`: the four bytes of a word, most significant first (R10, R63). -/
def be32 (w : Word) : Bytes :=
  [w.extractLsb' 24 8, w.extractLsb' 16 8, w.extractLsb' 8 8, w.extractLsb' 0 8]

/-- `BE32(p, off)` (R10).  The spec defines it only when `off + 4 ≤ |p|`; every use in the model has
checked that first, so what it gives beyond the end of `p` is never used. -/
def be32At (p : Bytes) (off : Nat) : Word :=
  (p.getD off 0 ++ p.getD (off + 1) 0 ++ p.getD (off + 2) 0 ++ p.getD (off + 3) 0 : BitVec 32)

/-- HDR.PACK (R130): each operand is masked to its field (R138). -/
def hdrPack (control version type : Word) : Word :=
  ((control &&& 1#32) <<< 31) ||| ((version &&& 0x7FFF#32) <<< 16) ||| (type &&& 0xFFFF#32)

/-- The control bit of a HeaderWord, bit 31 (R91, R131). -/
def hdrControl (w : Word) : BitVec 1 := w.extractLsb' 31 1

/-- The version of a HeaderWord, bits 30:16 (R91, R131). -/
def hdrVersion (w : Word) : BitVec 15 := w.extractLsb' 16 15

/-- The type of a HeaderWord, bits 15:0 (R91, R131). -/
def hdrType (w : Word) : BitVec 16 := w.extractLsb' 0 16

/-- HDR.UNPACK (R131). -/
def hdrUnpack (w : Word) : BitVec 1 × BitVec 15 × BitVec 16 :=
  (hdrControl w, hdrVersion w, hdrType w)

/-- FL.PACK (R132). -/
def flPack (flags length : Word) : Word :=
  ((flags &&& 0xFF#32) <<< 24) ||| (length &&& 0xFFFFFF#32)

/-- The flags of a FlagLengthWord, bits 31:24 (R93, R133). -/
def flFlags (w : Word) : BitVec 8 := w.extractLsb' 24 8

/-- The length of a FlagLengthWord, bits 23:0 (R93, R133). -/
def flLength (w : Word) : BitVec 24 := w.extractLsb' 0 24

/-- FL.UNPACK (R133). -/
def flUnpack (w : Word) : BitVec 8 × BitVec 24 :=
  (flFlags w, flLength w)

/-- SID.PACK (R134): bit 31, the reserved X bit, is written 0. -/
def sidPack (id : Word) : Word := id &&& 0x7FFFFFFF#32

/-- SID.UNPACK (R135): bit 31 is ignored. -/
def sidUnpack (w : Word) : BitVec 31 := w.extractLsb' 0 31

/-- PRI.PACK (R136): bits 28:0 are written 0. -/
def priPack (priority : Word) : Word := (priority &&& 0x7#32) <<< 29

/-- PRI.UNPACK (R137): bits 28:0 are ignored. -/
def priUnpack (w : Word) : BitVec 3 := w.extractLsb' 29 3

/-- The type codes of the eight implemented frame types (R97). -/
def frameCode : FrameKind → BitVec 16
  | .synStream => 1
  | .synReply => 2
  | .rstStream => 3
  | .settings => 4
  | .ping => 6
  | .goAway => 7
  | .headers => 8
  | .windowUpdate => 9

/-- The implemented frame type a type code names, if any (R97). -/
def kindOfCode (t : BitVec 16) : Option FrameKind :=
  if t = 1 then some .synStream
  else if t = 2 then some .synReply
  else if t = 3 then some .rstStream
  else if t = 4 then some .settings
  else if t = 6 then some .ping
  else if t = 7 then some .goAway
  else if t = 8 then some .headers
  else if t = 9 then some .windowUpdate
  else none

/-- Type code 10, Credential: known but unimplemented (R97, R106). -/
def credentialCode : BitVec 16 := 10

end Sys2Proof.Machine
end

