-- ==== Sys2Proof/Config.lean ====
section
/-! DEFINITION. What an implementation fixes (spec/00_scope.md rule R7) and the FREE VALUES: the values
the spec leaves unspecified, each an opaque constant that no proof can look into.  A free value is
always applied to a plain counter held in the state of the unit that uses it. -/

namespace Sys2Proof.Config

/-- IOERR_W, the width in bits of the opaque error code a byte source or sink reports (R7, default 8). -/
abbrev ioerrW : Nat := 8

/-- The parameters of R7 that change behaviour.  They stand in the state, where no step changes them. -/
structure Params where
  /-- PAYLOAD_MAX: the largest payload length in bytes that RXBUF and TXBUF hold. -/
  payloadMax : Nat
  /-- NV_PAIR_CAP: the largest number of distinct pairs NVT holds. -/
  nvPairCap : Nat
  /-- NV_STR_CAP: the largest length in bytes of one name or one value NVT holds. -/
  nvStrCap : Nat
  /-- STRICT_RESET: the reset value of CTRL.STRICT. -/
  strictReset : BitVec 1
  deriving DecidableEq, Repr

/-- The defaults of R7, at which the block behaves exactly as its source document describes. -/
def defaults : Params :=
  { payloadMax := 16777215, nvPairCap := 4294967295, nvStrCap := 4294967295, strictReset := 0 }

/-- The range R7 gives PAYLOAD_MAX, and the ranges its wire fields give the two other capacities
("the wire fields cannot express a larger number"). -/
abbrev Params.legal (p : Params) : Prop :=
  p.payloadMax ≤ 16777215 ∧ p.nvPairCap ≤ 4294967295 ∧ p.nvStrCap ≤ 4294967295

/-- Which register a free value stands for. -/
inductive Slot where
  | rxHw | rxFl | rxF0 | rxF1 | rxF2 | rxTailOff | rxTailLen
  | txType | txVersion | txFlags | txF0 | txF1 | txF2 | txTailLen
  | txHw | txFl | txLen | txWritten
  | nvBytes
  | entryFlags | entryId | entryValue
  deriving DecidableEq, Repr

/-- Which byte stream a free value is about.  The counters of two units may be equal: it is this name that
keeps what is unknown of one stream unrelated to what is unknown of another (notes/assumptions/23.md). -/
inductive Stream where
  | fsrc | nsrc | fsnk | nsnk
  deriving DecidableEq, Repr

/-- FREE VALUE: how far beyond the bytes known to be consumed an undefined position of a source lies
(U1, U3; notes/assumptions/6.md). -/
opaque freeSkip (port : Stream) (n : Nat) : Nat

/-- FREE VALUE: how many bytes a sink had accepted when it failed or was abandoned
(R62, U2; notes/assumptions/7.md). -/
opaque freeTaken (port : Stream) (n : Nat) : Nat

/-- FREE VALUE: an unspecified register (R43, U16, U19; notes/assumptions/3.md and 8.md). -/
opaque freeBits (w : Nat) (slot : Slot) (n : Nat) : BitVec w

/-- FREE VALUE: byte `a` of a buffer that nothing has written (R43, U16; notes/assumptions/5.md). -/
opaque freeByte (n a : Nat) : Byte

/-- FREE VALUE: one field of entry `i` of TXSET that nothing has written (R43, U16; notes/assumptions/5.md). -/
opaque freeEntryBits (w : Nat) (slot : Slot) (n i : Nat) : BitVec w

/-- FREE VALUE: the pairs NVT holds after a failed NV.DEC (R151, U19; notes/assumptions/8.md). -/
opaque freeTable (n : Nat) : List (Bytes × Bytes)

end Sys2Proof.Config
end

