-- ==== Sys2Proof/Machine/State.lean ====
section
/-! DEFINITION. The state of the block (spec/10_state.md rules R20 to R43), of the byte streams it is
connected to (spec/20_memory.md rules R60 to R62), and of the host and environment that act on it
(spec/00_scope.md rule R6); the reset state; the reasons a step can stop. -/

namespace Sys2Proof.Machine

/-! ### Stores: buffers as sparse data -/

/-- Data by address, addresses strictly rising.  An unlisted address holds no value: the spec leaves a
buffer unspecified until it is written (R29, R43; notes/assumptions/5.md). -/
abbrev Store (α : Type) := List (Nat × α)

/-- A byte memory: a list of `Host.Cell` in the canonical form `Memory.wf` (Machine/Ops.lean). -/
abbrev Memory := Store Byte

/-! ### Errors and status -/

/-- The error code a byte source or sink reports (R61, R62, D17). -/
abbrev IoCode := BitVec Config.ioerrW

/-- The field in which a stream ended: the sub-causes of Truncation (R262). -/
inductive TruncPoint where
  | inHeaderWord | inFlagLengthWord | inPayload
  | inNvCount | inNvNameLen | inNvName | inNvValueLen | inNvValue
  deriving DecidableEq, Repr

/-- The sub-causes of UnsupportedFrameType (R262). -/
inductive TypeProblem where
  | unknownType | knownUnimplemented
  deriving DecidableEq, Repr

/-- The sub-causes of ProtocolViolation (R262). -/
inductive Violation where
  | payloadTooShort | payloadTooLong | zeroLengthName | duplicateName | limitExceeded
  deriving DecidableEq, Repr

/-- The error outcomes of an operation (R261, R262).  They are results of the block, recorded in a
STATUS register, not stops of the machine (R260). -/
inductive OpError where
  | endOfStream
  | truncation (point : TruncPoint)
  | unsupportedFrameType (why : TypeProblem)
  | unsupportedDataFrame
  | lengthOverflow
  | protocolViolation (why : Violation)
  | ioError (e : IoCode)
  deriving DecidableEq, Repr

/-- The fields every STATUS register has (R26, R35, R37). -/
structure Status where
  busy : Bool
  done : Bool
  ok : Bool
  kind : BitVec 4
  sub : BitVec 4
  iocode : IoCode
  deriving DecidableEq, Repr

/-- Status with every field 0: the reset value (R43). -/
def Status.zero : Status :=
  { busy := false, done := false, ok := false, kind := 0, sub := 0, iocode := 0 }

/-! ### The three units -/

/-- The Framer's read state (R22). -/
inductive Fsm where
  | awaitingHeader | awaitingPayload
  deriving DecidableEq, Repr

/-- The read path FRX (R20, R22 to R29). -/
structure Frx where
  /-- fsm (R22). -/
  fsm : Fsm
  /-- BUSY, DONE, OK, KIND, SUB, IOCODE of RX_STATUS (R26). -/
  status : Status
  /-- EOS of RX_STATUS (R26). -/
  eos : Bool
  /-- HWV of RX_STATUS (R26). -/
  hwv : Bool
  /-- FLV of RX_STATUS (R26). -/
  flv : Bool
  /-- RX_HW (R23). -/
  hw : Word
  /-- RX_FL (R24). -/
  fl : Word
  /-- RX_CNT (R25). -/
  cnt : BitVec 24
  /-- RX_F0, RX_F1, RX_F2 (R27). -/
  f0 : Word
  f1 : Word
  f2 : Word
  /-- RX_TAIL_OFF and RX_TAIL_LEN (R28). -/
  tailOff : BitVec 24
  tailLen : BitVec 24
  /-- RXBUF, and with it its view RXSET (R29). -/
  buf : Memory
  /-- The MODEL's own: how many free values this unit has used. -/
  free : Nat
  deriving DecidableEq, Repr

/-- The write path FTX (R20, R31 to R36). -/
structure Ftx where
  /-- TX_TYPE, TX_VERSION, TX_FLAGS (R31). -/
  type : BitVec 16
  version : BitVec 15
  flags : BitVec 8
  /-- TX_F0, TX_F1, TX_F2 (R32). -/
  f0 : Word
  f1 : Word
  f2 : Word
  /-- TX_TAIL_LEN, TXTAIL, TXSET (R33). -/
  tailLen : Word
  tail : Memory
  set : Store SetEntry
  /-- TX_HW, TX_FL, TX_LEN, TX_WRITTEN (R34). -/
  hw : Word
  fl : Word
  len : BitVec 36
  written : BitVec 25
  /-- TX_STATUS (R35). -/
  status : Status
  /-- TXBUF (R36). -/
  buf : Memory
  /-- Hidden, during a WRITE (R41): the frame is built and waits for FSNK. -/
  emitting : Bool
  /-- The MODEL's own: how many free values this unit has used. -/
  free : Nat
  deriving DecidableEq, Repr

/-- The table of name/value pairs, in order of first insertion (R37, R150). -/
abbrev NvTable := List (Bytes × Bytes)

/-- Hidden, during NV.DEC or NV.ENC (R41): the next field to read, with what the current pair has
given so far, or the byte strings still to be handed to NSNK.  `more` counts the pairs after the
current one. -/
inductive NvPhase where
  | idle
  | decCount
  | decNameLen (more : Nat)
  | decName (more : Nat) (nameLen : Nat)
  | decValueLen (more : Nat) (name : Bytes)
  | decValue (more : Nat) (name : Bytes) (valueLen : Nat)
  | enc (pending : List Bytes)
  deriving DecidableEq, Repr

/-- The name/value unit NVU (R20, R37). -/
structure Nvu where
  /-- NVT (R37, R150). -/
  nvt : NvTable
  /-- NV_COUNT (R37). -/
  count : BitVec 32
  /-- NV_BYTES (R37). -/
  bytes : BitVec 66
  /-- NV_STATUS but for DIR (R37). -/
  status : Status
  /-- DIR of NV_STATUS: true for NV.ENC (R37). -/
  dir : Bool
  /-- Hidden (R41). -/
  phase : NvPhase
  /-- Hidden (R41, R151, R152): `total`, the bytes moved so far. -/
  total : Nat
  /-- Hidden (R153): CTRL.STRICT as sampled when NV.DEC was accepted. -/
  strict : Bool
  /-- The MODEL's own: how many free values this unit has used. -/
  free : Nat
  deriving DecidableEq, Repr

/-! ### Byte streams -/

/-- What a byte source answers once its bytes are used up (R61). -/
inductive SrcTail where
  /-- More bytes may come: there is no answer yet. -/
  | growing
  /-- The end of the stream. -/
  | ended
  /-- An I/O error. -/
  | failed (e : IoCode)
  deriving DecidableEq, Repr

/-- A byte source (R61): the bytes still to be delivered and what follows them. -/
structure Source where
  bytes : Bytes
  tail : SrcTail
  /-- The MODEL's own: how many of the bytes yet to come lie before the position at which the last
  operation found the source (notes/assumptions/6.md). -/
  skip : Nat
  /-- A failed operation has left the position undefined (R273, U1; notes/assumptions/6.md). -/
  lost : Bool
  deriving DecidableEq, Repr

/-- How a byte sink answers (R62). -/
inductive SinkMode where
  | accepts
  | fails (e : IoCode)
  | silent
  deriving DecidableEq, Repr

/-- A byte sink (R62): the bytes it has accepted, in order, and how it answers. -/
structure Sink where
  accepted : Bytes
  mode : SinkMode
  deriving DecidableEq, Repr

/-! ### The host and the environment -/

/-- One half of a name/value pair. -/
inductive NvHalf where
  | name | value
  deriving DecidableEq, Repr

/-- An access of the host (R6, R42, R44, R60). -/
inductive HostReq where
  /-- Write a register; a write of a CMD register requests an operation. -/
  | regWrite (reg : BitVec 8) (data : PortData)
  /-- Read a register. -/
  | regRead (reg : BitVec 8)
  /-- Call a function port of the word unit (R138). -/
  | wordOp (fn : WordFn) (a b c : Word)
  /-- Read n bytes of RXBUF from an offset. -/
  | rxbufRead (off n : Nat)
  /-- Read an entry of RXSET. -/
  | rxsetRead (i : Nat)
  /-- Write bytes of TXTAIL from an offset. -/
  | txtailWrite (off : Nat) (b : Bytes)
  /-- Read n bytes of TXTAIL from an offset. -/
  | txtailRead (off n : Nat)
  /-- Write an entry of TXSET. -/
  | txsetWrite (i : Nat) (flags id value : Word)
  /-- Read an entry of TXSET. -/
  | txsetRead (i : Nat)
  /-- Load NVT (R155). -/
  | nvtLoad (pairs : NvTable)
  /-- Read the length of one half of a pair of NVT (R70). -/
  | nvtLength (i : Nat) (half : NvHalf)
  /-- Read n bytes of one half of a pair of NVT from an offset (R70). -/
  | nvtRead (i : Nat) (half : NvHalf) (off n : Nat)
  deriving DecidableEq, Repr

/-- What the host is given back. -/
inductive HostResp where
  /-- A register's value, zero-extended. -/
  | reg (reg : BitVec 8) (value : PortData)
  /-- The word a PACK operation gives. -/
  | word (w : Word)
  /-- The outputs of HDR.UNPACK. -/
  | header (control : BitVec 1) (version : BitVec 15) (type : BitVec 16)
  /-- The outputs of FL.UNPACK. -/
  | flagLength (flags : BitVec 8) (length : BitVec 24)
  /-- The output of SID.UNPACK. -/
  | streamId (id : BitVec 31)
  /-- The output of PRI.UNPACK. -/
  | priority (p : BitVec 3)
  /-- Bytes of a buffer or of a name or value. -/
  | bytes (b : Bytes)
  /-- The length of a name or value. -/
  | length (n : Nat)
  /-- A Settings entry. -/
  | entry (e : SetEntry)
  deriving DecidableEq, Repr

/-- The three sequential units (R6, R76). -/
inductive UnitId where
  | frx | ftx | nvu
  deriving DecidableEq, Repr

/-- The two byte sources (R60). -/
inductive SrcPort where
  | fsrc | nsrc
  deriving DecidableEq, Repr

/-- The two byte sinks (R60). -/
inductive SnkPort where
  | fsnk | nsnk
  deriving DecidableEq, Repr

/-- How far an accepted command goes at once (R301; notes/assumptions/1.md). -/
inductive Pace where
  /-- As far as the sources and sinks answer. -/
  | atOnce
  /-- Only its acceptance; the unit then moves by its turns. -/
  | stepwise
  deriving DecidableEq, Repr

/-- What may happen to the block.  Nothing in the block orders the units, the host and the environment
(R301), so their order is an input: a list of these, in State. -/
inductive Event where
  /-- The host makes an access. -/
  | host (r : HostReq)
  /-- A busy unit makes its next step: one stream access, or the dispatch of what it has read. -/
  | turn (u : UnitId)
  /-- A byte source gets more bytes and what is to follow them. -/
  | deliver (p : SrcPort) (b : Bytes) (tail : SrcTail)
  /-- Another byte source is connected to the port (R71, R293). -/
  | connect (p : SrcPort) (src : Source)
  /-- A byte sink changes how it answers. -/
  | sink (p : SnkPort) (mode : SinkMode)
  /-- The reset input is asserted or released (R290); DESIGN CHOICE: also where it already has that level
  (notes/assumptions/18.md). -/
  | resetLine (asserted : Bool)
  /-- The pace of accepted commands changes. -/
  | pace (p : Pace)
  deriving DecidableEq, Repr

/-! ### The state -/

structure State where
  /-- The build parameters (R7).  No step changes them. -/
  params : Config.Params
  /-- CTRL, whose bit 0 is STRICT; the bits above it read 0 and are not held (R21). -/
  ctrl : BitVec 1
  /-- The read path. -/
  frx : Frx
  /-- The write path. -/
  ftx : Ftx
  /-- The name/value unit. -/
  nvu : Nvu
  /-- FSRC, the frame byte source (R60). -/
  fsrc : Source
  /-- FSNK, the frame byte sink. -/
  fsnk : Sink
  /-- NSRC, the name/value byte source (R78). -/
  nsrc : Source
  /-- NSNK, the name/value byte sink. -/
  nsnk : Sink
  /-- The reset input is asserted (R290). -/
  resetLine : Bool
  /-- The MODEL's own: how far an accepted command goes at once. -/
  pace : Pace
  /-- The MODEL's own: what will happen to the block, in order. -/
  events : List Event
  /-- The MODEL's own: what the host has been given back, oldest first. -/
  resp : List HostResp
  deriving DecidableEq, Repr

/-! ### Reset (R43, R290).  Each unit is reset at a count of the free values it has used: a register
whose reset value the spec leaves unspecified holds a free value, the same until it is written
(notes/assumptions/3.md). -/

/-- FRX at reset. -/
def Frx.reset (n : Nat) : Frx :=
  { fsm := .awaitingHeader, status := Status.zero, eos := false, hwv := false, flv := false,
    hw := Config.freeBits 32 .rxHw n, fl := Config.freeBits 32 .rxFl n, cnt := 0,
    f0 := Config.freeBits 32 .rxF0 n, f1 := Config.freeBits 32 .rxF1 n,
    f2 := Config.freeBits 32 .rxF2 n, tailOff := Config.freeBits 24 .rxTailOff n,
    tailLen := Config.freeBits 24 .rxTailLen n, buf := [], free := n + 1 }

/-- FTX at reset. -/
def Ftx.reset (n : Nat) : Ftx :=
  { type := Config.freeBits 16 .txType n, version := Config.freeBits 15 .txVersion n,
    flags := Config.freeBits 8 .txFlags n, f0 := Config.freeBits 32 .txF0 n,
    f1 := Config.freeBits 32 .txF1 n, f2 := Config.freeBits 32 .txF2 n,
    tailLen := Config.freeBits 32 .txTailLen n, tail := [], set := [],
    hw := Config.freeBits 32 .txHw n, fl := Config.freeBits 32 .txFl n,
    len := Config.freeBits 36 .txLen n, written := Config.freeBits 25 .txWritten n,
    status := Status.zero, buf := [], emitting := false, free := n + 1 }

/-- NVU at reset: the spec gives a value for each of its registers. -/
def Nvu.reset (n : Nat) : Nvu :=
  { nvt := [], count := 0, bytes := 0, status := Status.zero, dir := false, phase := .idle,
    total := 0, strict := false, free := n + 1 }

/-- A source that has delivered nothing and has not ended. -/
def Source.quiet : Source := { bytes := [], tail := .growing, skip := 0, lost := false }

/-- A sink that has been handed nothing and accepts. -/
def Sink.open : Sink := { accepted := [], mode := .accepts }

/-- The machine right after reset, at the default parameters, with nothing placed on its streams and no
event to come (R43; notes/assumptions/2.md, 3.md and 20.md). -/
def State.reset : State :=
  { params := Config.defaults, ctrl := Config.defaults.strictReset, frx := Frx.reset 0,
    ftx := Ftx.reset 0, nvu := Nvu.reset 0, fsrc := Source.quiet, fsnk := Sink.open,
    nsrc := Source.quiet, nsnk := Sink.open, resetLine := false, pace := .atOnce, events := [],
    resp := [] }

/-! ### Why a step stops -/

/-- Reasons for a fault.  An error outcome of the block (R260) is not one of them. -/
inductive Fault where
  /-- The host names an address beyond the end of a buffer (R29, R60, R69).  Raised by the accesses of
  Machine/HostPort.lean.  Safe: the model stops where the spec says nothing exists. -/
  | noSuchAddress
  deriving DecidableEq, Repr

/-- Reasons for a refusal: situations the spec gives no meaning. -/
inductive Refusal where
  /-- An instruction without a meaning in the model.  Raised by no arm of exec today.  Safe. -/
  | notModelled (mnemonic : String)
  /-- The host reads a frame-field register that the last READ gives no value (R27, R28, U17), a byte or
  entry of a buffer that holds none (R29, R67, R68, U16, U18), or a pair or byte that NVT does not have
  (R70).  No other register is refused.  Raised by the accesses of Machine/HostPort.lean.  Safe: the spec
  says that the model must give such a read no value. -/
  | noValue
  /-- The host accesses a busy unit (R44, R295, U20).  Raised by the accesses of Machine/HostPort.lean.
  Safe: the spec says the model refuses it. -/
  | busyUnit
  /-- The host reads a register that can only be written (R42).  Raised by the accesses of
  Machine/HostPort.lean.  Safe: the spec gives such a read no value. -/
  | writeOnlyRegister
  /-- The host loads NVT with what is no table (R155, U23).  Raised by the accesses of
  Machine/HostPort.lean.  Safe: the spec says the model refuses it. -/
  | outsideTableContract
  deriving DecidableEq, Repr

end Sys2Proof.Machine
end

