-- ==== Sys2Proof/Machine/Flags.lean ====
section
/-! DEFINITION. The status flags (spec/10_state.md rules R26, R35, R37, R40): the codes of the error
outcomes (spec/60_exceptions.md rules R261, R262), what accepting a command, success and an error do to
the shared fields, and the STATUS registers as words. -/

namespace Sys2Proof.Machine

/-- The KIND code of an error outcome (R261). -/
def kindCode : OpError → BitVec 4
  | .endOfStream => 1
  | .truncation _ => 2
  | .unsupportedFrameType _ => 3
  | .unsupportedDataFrame => 4
  | .lengthOverflow => 5
  | .protocolViolation _ => 6
  | .ioError _ => 7

/-- The SUB code of a place where a stream ended (R262). -/
def truncCode : TruncPoint → BitVec 4
  | .inHeaderWord => 1
  | .inFlagLengthWord => 2
  | .inPayload => 3
  | .inNvCount => 4
  | .inNvNameLen => 5
  | .inNvName => 6
  | .inNvValueLen => 7
  | .inNvValue => 8

/-- The SUB code of a problem with a type code (R262). -/
def typeProblemCode : TypeProblem → BitVec 4
  | .unknownType => 1
  | .knownUnimplemented => 2

/-- The SUB code of a protocol violation (R262). -/
def violationCode : Violation → BitVec 4
  | .payloadTooShort => 1
  | .payloadTooLong => 2
  | .zeroLengthName => 3
  | .duplicateName => 4
  | .limitExceeded => 5

/-- The SUB code of an error outcome, 0 for a kind that has none (R262). -/
def subCode : OpError → BitVec 4
  | .truncation p => truncCode p
  | .unsupportedFrameType w => typeProblemCode w
  | .protocolViolation v => violationCode v
  | .endOfStream | .unsupportedDataFrame | .lengthOverflow | .ioError _ => 0

/-- The IOCODE of an error outcome: the source's or sink's code for IoError, else 0 (R26, R272). -/
def ioCodeOf : OpError → IoCode
  | .ioError e => e
  | .endOfStream | .truncation _ | .unsupportedFrameType _ | .unsupportedDataFrame
  | .lengthOverflow | .protocolViolation _ => 0

/-- Accepting a command: BUSY is set and every other field cleared (R26, R231, R239). -/
def statusAccepted : Status :=
  { busy := true, done := false, ok := false, kind := 0, sub := 0, iocode := 0 }

/-- Success: BUSY is cleared, DONE and OK set, KIND 0 (R237, R245). -/
def statusSucceeded : Status :=
  { busy := false, done := true, ok := true, kind := 0, sub := 0, iocode := 0 }

/-- An error: BUSY is cleared, DONE set, OK clear, and KIND, SUB and IOCODE say which (R272). -/
def statusRaised (e : OpError) : Status :=
  { busy := false, done := true, ok := false, kind := kindCode e, sub := subCode e,
    iocode := ioCodeOf e }

/-- A flag as a bit. -/
def flagBit (b : Bool) : BitVec 1 := BitVec.ofBool b

/-- The FSM bit (R22): 0 for AwaitingHeader, 1 for AwaitingPayload. -/
def fsmBit : Fsm → BitVec 1
  | .awaitingHeader => 0
  | .awaitingPayload => 1

/-- A STATUS register: IOCODE, SUB and KIND above the eight flag bits of the unit. -/
def statusWord (s : Status) (low : BitVec 8) : BitVec 24 :=
  s.iocode ++ s.sub ++ s.kind ++ low

/-- RX_STATUS (R26). -/
def rxStatusWord (x : Frx) : BitVec 24 :=
  statusWord x.status
    (0#1 ++ flagBit x.flv ++ flagBit x.hwv ++ fsmBit x.fsm ++ flagBit x.eos ++ flagBit x.status.ok
      ++ flagBit x.status.done ++ flagBit x.status.busy)

/-- TX_STATUS (R35). -/
def txStatusWord (x : Ftx) : BitVec 24 :=
  statusWord x.status
    (0#5 ++ flagBit x.status.ok ++ flagBit x.status.done ++ flagBit x.status.busy)

/-- NV_STATUS (R37). -/
def nvStatusWord (x : Nvu) : BitVec 24 :=
  statusWord x.status
    (0#4 ++ flagBit x.dir ++ flagBit x.status.ok ++ flagBit x.status.done ++ flagBit x.status.busy)

end Sys2Proof.Machine
end

