-- ==== Sys2Proof/Machine/Ops.lean ====
section
/-! DEFINITION. The shared operations: buffers (spec/20_memory.md rules R67 to R70, R77), the two stream
primitives (R61, R62), the name/value table (spec/41_nvblock.md rule R150), ending an operation with an
error (spec/60_exceptions.md rules R272, R273) and accepting the next command, which is the return from
it (R274). -/

namespace Sys2Proof.Machine

/-! ### Buffers -/

/-- The canonical form of a store: addresses strictly rising. -/
abbrev storeWf {α : Type} (m : Store α) : Prop :=
  m.Pairwise (fun x y => x.1 < y.1)

/-- The canonical form of a byte memory.  An unlisted address holds no value, so that no entry can equal
what an unlisted address reads as. -/
abbrev Memory.wf (m : Memory) : Prop := storeWf m

/-- The value at an address; none where nothing has been written. -/
def storeGet {α : Type} : Store α → Nat → Option α
  | [], _ => none
  | (k, v) :: m, a => if a = k then some v else if a < k then none else storeGet m a

/-- Write the value at an address. -/
def storeSet {α : Type} : Store α → Nat → α → Store α
  | [], a, v => [(a, v)]
  | (k, w) :: m, a, v =>
    if a < k then (a, v) :: (k, w) :: m
    else if a = k then (k, v) :: m
    else (k, w) :: storeSet m a v

/-- `MemWrite(space, addr, |b|, b)` (R12, R77). -/
def memWrite : Memory → Nat → Bytes → Memory
  | m, _, [] => m
  | m, a, b :: bs => memWrite (storeSet m a b) (a + 1) bs

/-- `MemRead(space, addr, n)` (R12), when every byte of it holds a value. -/
def memRead (m : Memory) (a : Nat) : Nat → Option Bytes
  | 0 => some []
  | n + 1 =>
    match storeGet m a, memRead m (a + 1) n with
    | some b, some bs => some (b :: bs)
    | _, _ => none

/-- `MemRead(space, addr, n)` with a free value for every byte that nothing has written. -/
def memReadFree (m : Memory) (free a : Nat) : Nat → Bytes
  | 0 => []
  | n + 1 => (storeGet m a).getD (Config.freeByte free a) :: memReadFree m free (a + 1) n

/-! ### Byte streams -/

/-- How a `SrcRead` is answered, with the source as it then stands (R61). -/
inductive SrcAnswer where
  | ok (b : Bytes) (src : Source)
  | ended (b : Bytes) (src : Source)
  | failed (e : IoCode) (src : Source)
  | silent
  deriving DecidableEq, Repr

/-- The source after its position has become undefined (R273, U1). -/
def loseSource (src : Source) : Source := { src with lost := true }

/-- `SrcRead(port, n)` (R61).  A request for 0 bytes succeeds without consulting the source. -/
def srcRead (src : Source) (n : Nat) : SrcAnswer :=
  if n = 0 then .ok [] src
  else if n ≤ src.bytes.length then .ok (src.bytes.take n) { src with bytes := src.bytes.drop n }
  else
    match src.tail with
    | .growing => .silent
    | .ended => .ended src.bytes { src with bytes := [] }
    | .failed e => .failed e (loseSource src)

/-- Where the next operation finds the source of a port.  After a failure that left the position
undefined it is a free value how many more bytes are gone, of those that have come and then of those
that are yet to come (U1, U3): the model's choice of what a READ or NV.DEC does there, and of a value
that nothing relates to any other stream's (notes/assumptions/6.md and 23.md). -/
def findSource (port : Config.Stream) (src : Source) (free : Nat) : Source :=
  if src.lost then
    { src with
      bytes := src.bytes.drop (Config.freeSkip port free)
      skip := src.skip + (Config.freeSkip port free - src.bytes.length)
      lost := false }
  else src

/-- How a `SinkWrite` is answered, with the sink as it then stands (R62). -/
inductive SinkAnswer where
  | ok (snk : Sink)
  | failed (e : IoCode) (snk : Sink)
  | silent
  deriving DecidableEq, Repr

/-- The sink of a port after it has accepted a free number of the bytes handed to it (R62, U2): a value
that nothing relates to the other sink's (notes/assumptions/7.md and 23.md). -/
def sinkSome (port : Config.Stream) (snk : Sink) (b : Bytes) (free : Nat) : Sink :=
  { snk with accepted := snk.accepted ++ b.take (Config.freeTaken port free) }

/-- `SinkWrite(port, b)` (R62).  An empty string is accepted without consulting the sink.  DESIGN CHOICE: a
sink that does not answer has accepted nothing until it answers or a reset comes; the spec does not say
what it holds meanwhile (notes/assumptions/7.md). -/
def sinkWrite (port : Config.Stream) (snk : Sink) (b : Bytes) (free : Nat) : SinkAnswer :=
  if b = [] then .ok snk
  else
    match snk.mode with
    | .accepts => .ok { snk with accepted := snk.accepted ++ b }
    | .fails e => .failed e (sinkSome port snk b free)
    | .silent => .silent

/-! ### The name/value table -/

/-- Some pair of the table has this name, byte for byte (R150). -/
def nvHas : NvTable → Bytes → Bool
  | [], _ => false
  | (k, _) :: t, n => k == n || nvHas t n

/-- Insert a pair: a repeated name keeps its position and takes the new value (R151). -/
def nvInsert : NvTable → Bytes → Bytes → NvTable
  | [], n, v => [(n, v)]
  | (k, w) :: t, n, v => if k = n then (k, v) :: t else (k, w) :: nvInsert t n v

/-- The invariant of R150: the names are pairwise different. -/
abbrev nvUnique (t : NvTable) : Prop := (t.map Prod.fst).Nodup

/-- What R155 asks of a table the host loads: different names, and no more and no longer strings than
the unit holds. -/
abbrev nvFits (p : Config.Params) (t : NvTable) : Prop :=
  nvUnique t ∧ t.length ≤ p.nvPairCap ∧
    ∀ x ∈ t, x.1.length ≤ p.nvStrCap ∧ x.2.length ≤ p.nvStrCap

/-- Some table that NVT can hold, made from any list of pairs: used for the free table that a failed
NV.DEC leaves (U19; notes/assumptions/8.md). -/
def nvAdmit (p : Config.Params) : NvTable → NvTable
  | [] => []
  | (n, v) :: rest =>
    let t := nvAdmit p rest
    if n.length ≤ p.nvStrCap ∧ v.length ≤ p.nvStrCap ∧ nvHas t n = false ∧ t.length < p.nvPairCap
    then (n, v) :: t else t

/-! ### Running a unit -/

/-- Run a unit for at most n of its steps, while it has one (none: it is idle or not answered). -/
def runTurns {σ : Type} (f : σ → Option σ) : Nat → σ → σ
  | 0, x => x
  | n + 1, x =>
    match f x with
    | none => x
    | some y => runTurns f n y

/-! ### Ending an operation with an error (R272), and accepting the next one (R274)

Each unit records the outcome in its STATUS register; nothing is transferred and nothing is stacked. -/

/-- `raise` in FRX (R272): the outcome is recorded and fsm returns to AwaitingHeader. -/
def frxRaise (e : OpError) (x : Frx) : Frx :=
  { x with status := statusRaised e, eos := decide (e = .endOfStream), fsm := .awaitingHeader }

/-- `raise` in FTX (R272).  TX_WRITTEN holds no defined value afterwards (R245), nor do TX_HW and TX_FL
unless they had been built (R34, U19): free values.  TXBUF holds a value only during a WRITE (R36). -/
def ftxRaise (e : OpError) (x : Ftx) : Ftx :=
  { x with
    status := statusRaised e
    hw := if x.emitting then x.hw else Config.freeBits 32 .txHw x.free
    fl := if x.emitting then x.fl else Config.freeBits 32 .txFl x.free
    written := Config.freeBits 25 .txWritten x.free
    buf := []
    emitting := false
    free := x.free + 1 }

/-- `raise` in NV.DEC (R151, R272): NVT, NV_COUNT and NV_BYTES hold no defined value.  NVT is some table
that fits, NV_COUNT the number of its pairs (R37). -/
def nvRaiseDec (p : Config.Params) (e : OpError) (x : Nvu) : Nvu :=
  { x with
    status := statusRaised e
    nvt := nvAdmit p (Config.freeTable x.free)
    count := BitVec.ofNat 32 (nvAdmit p (Config.freeTable x.free)).length
    bytes := Config.freeBits 66 .nvBytes x.free
    phase := .idle
    free := x.free + 1 }

/-- `raise` in NV.ENC (R152, R272): NV_BYTES holds no defined value; NVT and NV_COUNT are not changed. -/
def nvRaiseEnc (e : OpError) (x : Nvu) : Nvu :=
  { x with
    status := statusRaised e
    bytes := Config.freeBits 66 .nvBytes x.free
    phase := .idle
    free := x.free + 1 }

/-- Accepting a READ (R25, R26, R231): status and count are cleared and the previous result stops being
valid, RXBUF included (R29; notes/assumptions/22.md).  RX_HW and RX_FL hold free values until their bytes
arrive (R23, R24: valid only while HWV, FLV; notes/assumptions/8.md). -/
def frxAccept (x : Frx) : Frx :=
  { x with
    fsm := .awaitingHeader, status := statusAccepted, eos := false, hwv := false, flv := false,
    hw := Config.freeBits 32 .rxHw x.free, fl := Config.freeBits 32 .rxFl x.free,
    cnt := 0, buf := [], free := x.free + 1 }

/-- Accepting a WRITE (R239).  The descriptor is not changed. -/
def ftxAccept (x : Ftx) : Ftx :=
  { x with status := statusAccepted, emitting := false }

/-- Accepting an NV.DEC (R37, R151): NVT becomes empty, and CTRL.STRICT is sampled (R153, R299). -/
def nvAcceptDec (strict : Bool) (x : Nvu) : Nvu :=
  { x with
    status := statusAccepted, dir := false, nvt := [], phase := .decCount, total := 0,
    strict := strict, free := x.free + 1 }

end Sys2Proof.Machine
end

