-- ==== Sys2Proof/Machine/Operands.lean ====
section
/-! DEFINITION. Operand forms.  Read side: which frame-field registers a frame type names, how a decoded
body is placed in them, and the frame they show (spec/10_state.md rules R27 to R30).  Write side: the
values a WRITE takes from the buffers of the descriptor (R33); a byte or entry that nothing has written is
a free value (notes/assumptions/5.md). -/

namespace Sys2Proof.Machine

/-! ### The read side -/

/-- Place a decoded body in the frame-field registers (R27, R28).  Narrow fields are zero-extended, and
a register that the type's row does not name is not written.  `l` is the payload length. -/
def placeBody (body : Body) (l : Nat) (x : Frx) : Frx :=
  match body with
  | .synStream sid assoc pri _ =>
    { x with f0 := sid.setWidth 32, f1 := assoc.setWidth 32, f2 := pri.setWidth 32, tailOff := 12,
             tailLen := BitVec.ofNat 24 (l - 12) }
  | .synReply sid _ =>
    { x with f0 := sid.setWidth 32, tailOff := 4, tailLen := BitVec.ofNat 24 (l - 4) }
  | .rstStream sid code =>
    { x with f0 := sid.setWidth 32, f1 := code, tailOff := BitVec.ofNat 24 l, tailLen := 0 }
  | .settings entries =>
    { x with f0 := BitVec.ofNat 32 entries.length, tailOff := 4, tailLen := BitVec.ofNat 24 (l - 4) }
  | .ping id => { x with f0 := id, tailOff := BitVec.ofNat 24 l, tailLen := 0 }
  | .goAway sid code =>
    { x with f0 := sid.setWidth 32, f1 := code, tailOff := BitVec.ofNat 24 l, tailLen := 0 }
  | .headers sid _ =>
    { x with f0 := sid.setWidth 32, tailOff := 4, tailLen := BitVec.ofNat 24 (l - 4) }
  | .windowUpdate sid delta =>
    { x with f0 := sid.setWidth 32, f1 := delta.setWidth 32, tailOff := BitVec.ofNat 24 l,
             tailLen := 0 }

/-- How many of RX_F0, RX_F1, RX_F2 the row of a frame type names (R27). -/
def namedFields : FrameKind → Nat
  | .synStream => 3
  | .synReply => 1
  | .rstStream => 2
  | .settings => 1
  | .ping => 1
  | .goAway => 2
  | .headers => 1
  | .windowUpdate => 2

/-- The type of the frame that the registers show: one only while OK = 1 (R27). -/
def rxKind (x : Frx) : Option FrameKind :=
  if x.status.ok then kindOfCode (hdrType x.hw) else none

/-- RX_F<i> holds a value: OK = 1 and the type's row names the register (R27). -/
def rxFieldValid (x : Frx) (i : Nat) : Bool :=
  match rxKind x with
  | some k => decide (i < namedFields k)
  | none => false

/-- A Settings entry from its two words (R96). -/
def entryOfWords (w0 w1 : Word) : SetEntry :=
  { flags := flFlags w0, id := flLength w0, value := w1 }

/-- RXSET[i] (R29, R68): the eight bytes of RXBUF at offset 4 + 8i, when they hold values. -/
def rxsetEntry (x : Frx) (i : Nat) : Option SetEntry :=
  match memRead x.buf (4 + 8 * i) 8 with
  | some b => some (entryOfWords (be32At b 0) (be32At b 4))
  | none => none

/-- The first n entries of RXSET. -/
def rxsetEntries (x : Frx) : Nat → Option (List SetEntry)
  | 0 => some []
  | n + 1 =>
    match rxsetEntries x n, rxsetEntry x n with
    | some es, some e => some (es ++ [e])
    | _, _ => none

/-- The tail of the payload, `MemRead(RXBUF, RX_TAIL_OFF, RX_TAIL_LEN)` (R28, R67). -/
def rxTail (x : Frx) : Option Bytes := memRead x.buf x.tailOff.toNat x.tailLen.toNat

/-- The body that the frame-field registers and RXBUF show for a frame type (R27 to R30). -/
def rxBody (x : Frx) : FrameKind → Option Body
  | .synStream =>
    (rxTail x).map (.synStream (x.f0.setWidth 31) (x.f1.setWidth 31) (x.f2.setWidth 3))
  | .synReply => (rxTail x).map (.synReply (x.f0.setWidth 31))
  | .rstStream => some (.rstStream (x.f0.setWidth 31) x.f1)
  | .settings => (rxsetEntries x x.f0.toNat).map .settings
  | .ping => some (.ping x.f0)
  | .goAway => some (.goAway (x.f0.setWidth 31) x.f1)
  | .headers => (rxTail x).map (.headers (x.f0.setWidth 31))
  | .windowUpdate => some (.windowUpdate (x.f0.setWidth 31) (x.f1.setWidth 31))

/-- The frame that the registers of FRX show (R30): version RX_HW[30:16], flags RX_FL[31:24], the body
by type; none unless OK = 1. -/
def rxFrame (x : Frx) : Option Frame :=
  match rxKind x with
  | none => none
  | some k =>
    (rxBody x k).map fun b => { version := hdrVersion x.hw, flags := flFlags x.fl, body := b }

/-! ### The write side -/

/-- The blob to write, `MemRead(TXTAIL, 0, TX_TAIL_LEN)` (R33). -/
def txBlob (x : Ftx) : Bytes := memReadFree x.tail x.free 0 x.tailLen.toNat

/-- TXSET[i] as a WRITE finds it (R33). -/
def txEntry (x : Ftx) (i : Nat) : SetEntry :=
  (storeGet x.set i).getD
    { flags := Config.freeEntryBits 8 .entryFlags x.free i
      id := Config.freeEntryBits 24 .entryId x.free i
      value := Config.freeEntryBits 32 .entryValue x.free i }

/-- The entries TXSET[i], TXSET[i+1], …, n of them, in index order (R33). -/
def txEntries (x : Ftx) (i : Nat) : Nat → List SetEntry
  | 0 => []
  | n + 1 => txEntry x i :: txEntries x (i + 1) n

end Sys2Proof.Machine
end

