-- ==== Sys2Proof/Machine/FrameDecode.lean ====
section
/-! DEFINITION. The payload decoders (spec/42_frame_decode.md rules R170 to R179), the table that selects
one (spec/44_framer.md rule R235), and the part of a READ that an operation DEC.*, DATA_FRAME or
UNKNOWN_TYPE stands for: READ's third stream access, the dispatch and the delivery (R233 to R237). -/

namespace Sys2Proof.Machine

/-- What a payload decoder answers (R170). -/
inductive DecResult where
  | decoded (body : Body) (consumed : Nat)
  | tooShort
  | unimplemented
  deriving DecidableEq, Repr

/-! ### The decoders: pure functions of the payload -/

/-- DEC.SYN_STREAM (R171). -/
def decSynStream (p : Bytes) : DecResult :=
  if p.length < 12 then .tooShort
  else .decoded (.synStream (sidUnpack (be32At p 0)) (sidUnpack (be32At p 4))
    (priUnpack (be32At p 8)) (p.drop 12)) p.length

/-- DEC.SYN_REPLY (R172). -/
def decSynReply (p : Bytes) : DecResult :=
  if p.length < 4 then .tooShort
  else .decoded (.synReply (sidUnpack (be32At p 0)) (p.drop 4)) p.length

/-- DEC.RST_STREAM (R173). -/
def decRstStream (p : Bytes) : DecResult :=
  if p.length < 8 then .tooShort
  else .decoded (.rstStream (sidUnpack (be32At p 0)) (be32At p 4)) 8

/-- n Settings entries from byte offset `off` of a payload (R96, R174). -/
def entriesAt (p : Bytes) (off : Nat) : Nat → List SetEntry
  | 0 => []
  | n + 1 => entryOfWords (be32At p off) (be32At p (off + 4)) :: entriesAt p (off + 8) n

/-- DEC.SETTINGS (R174).  The arithmetic is exact. -/
def decSettings (p : Bytes) : DecResult :=
  if p.length < 4 then .tooShort
  else if p.length < 4 + 8 * (be32At p 0).toNat then .tooShort
  else .decoded (.settings (entriesAt p 4 (be32At p 0).toNat)) (4 + 8 * (be32At p 0).toNat)

/-- DEC.PING (R175). -/
def decPing (p : Bytes) : DecResult :=
  if p.length < 4 then .tooShort else .decoded (.ping (be32At p 0)) 4

/-- DEC.GOAWAY (R176). -/
def decGoaway (p : Bytes) : DecResult :=
  if p.length < 8 then .tooShort
  else .decoded (.goAway (sidUnpack (be32At p 0)) (be32At p 4)) 8

/-- DEC.HEADERS (R177). -/
def decHeaders (p : Bytes) : DecResult :=
  if p.length < 4 then .tooShort
  else .decoded (.headers (sidUnpack (be32At p 0)) (p.drop 4)) p.length

/-- DEC.WINDOW_UPDATE (R178). -/
def decWindowUpdate (p : Bytes) : DecResult :=
  if p.length < 8 then .tooShort
  else .decoded (.windowUpdate (sidUnpack (be32At p 0)) (sidUnpack (be32At p 4))) 8

/-- DEC.CREDENTIAL (R179). -/
def decCredential (_p : Bytes) : DecResult := .unimplemented

/-- The decoder of an implemented frame type (R97). -/
def decoderOf (k : FrameKind) (p : Bytes) : DecResult :=
  match k with
  | .synStream => decSynStream p
  | .synReply => decSynReply p
  | .rstStream => decRstStream p
  | .settings => decSettings p
  | .ping => decPing p
  | .goAway => decGoaway p
  | .headers => decHeaders p
  | .windowUpdate => decWindowUpdate p

/-- DISPATCH (R235): a constant table from the type code to a decoder, none for an unknown code. -/
def dispatch (t : BitVec 16) : Option (Bytes → DecResult) :=
  match kindOfCode t with
  | some k => some (decoderOf k)
  | none => if t = credentialCode then some decCredential else none

/-! ### What FRX does with a frame whose header it holds -/

/-- READ step 5 (R237): the fields are delivered and the READ ends with a Frame. -/
def frxDeliver (body : Body) (l : Nat) (x : Frx) : Frx :=
  { placeBody body l x with status := statusSucceeded, eos := false, fsm := .awaitingHeader }

/-- READ step 4 (R235, R236): dispatch on the payload `p`, and the exact-consumption check. -/
def frxDispatch (d : Option (Bytes → DecResult)) (p : Bytes) (x : Frx) : Frx :=
  match d with
  | none => frxRaise (.unsupportedFrameType .unknownType) x
  | some dec =>
    match dec p with
    | .unimplemented => frxRaise (.unsupportedFrameType .knownUnimplemented) x
    | .tooShort => frxRaise (.protocolViolation .payloadTooShort) x
    | .decoded body consumed =>
      if consumed < p.length then frxRaise (.protocolViolation .payloadTooLong) x
      else frxDeliver body p.length x

/-- RXBUF and RX_CNT take the payload bytes that arrived (R25, R67, R234). -/
def frxStore (b : Bytes) (x : Frx) : Frx :=
  { x with buf := memWrite x.buf 0 b, cnt := BitVec.ofNat 24 b.length }

/-- READ from its third stream access on (R234 to R237): read the `l` payload bytes, then dispatch.
None while the source does not answer.  Truncation leaves the position undefined (R66, R273, U1). -/
def frxReceive (d : Option (Bytes → DecResult)) (l : Nat) (r : Frx × Source) :
    Option (Frx × Source) :=
  match srcRead r.2 l with
  | .silent => none
  | .ended b src => some (frxRaise (.truncation .inPayload) (frxStore b r.1), loseSource src)
  | .failed e src => some (frxRaise (.ioError e) r.1, src)
  | .ok b src => some (frxDispatch d b (frxStore b r.1), src)

/-- READ step 2 on a data frame (R233): no byte after the HeaderWord is read.  The position is then
inside the data frame, undefined for the block (R273). -/
def frxDataFrame (r : Frx × Source) : Frx × Source :=
  (frxRaise .unsupportedDataFrame r.1, loseSource r.2)

/-- Let the read path act. -/
def onRx (s : State) (f : Frx × Source → Frx × Source) : State :=
  { s with frx := (f (s.frx, s.fsrc)).1, fsrc := (f (s.frx, s.fsrc)).2 }

/-- The operation a control header selects (R113), on the `l` payload bytes that follow; nothing happens
while the source does not answer (R300).  It looks at neither the version nor the flags (R170). -/
def frameOp (d : Option (Bytes → DecResult)) (l : Nat) (s : State) : State :=
  onRx s fun r => (frxReceive d l r).getD r

/-! ### The operations -/

/-- DEC.SYN_STREAM (R171). -/
def execDecSynStream (_v : BitVec 15) (_f : BitVec 8) (l : BitVec 24) (s : State) :
    Host.Outcome State Fault Refusal :=
  .next (frameOp (some decSynStream) l.toNat s)

/-- DEC.SYN_REPLY (R172). -/
def execDecSynReply (_v : BitVec 15) (_f : BitVec 8) (l : BitVec 24) (s : State) :
    Host.Outcome State Fault Refusal :=
  .next (frameOp (some decSynReply) l.toNat s)

/-- DEC.RST_STREAM (R173). -/
def execDecRstStream (_v : BitVec 15) (_f : BitVec 8) (l : BitVec 24) (s : State) :
    Host.Outcome State Fault Refusal :=
  .next (frameOp (some decRstStream) l.toNat s)

/-- DEC.SETTINGS (R174). -/
def execDecSettings (_v : BitVec 15) (_f : BitVec 8) (l : BitVec 24) (s : State) :
    Host.Outcome State Fault Refusal :=
  .next (frameOp (some decSettings) l.toNat s)

/-- DEC.PING (R175). -/
def execDecPing (_v : BitVec 15) (_f : BitVec 8) (l : BitVec 24) (s : State) :
    Host.Outcome State Fault Refusal :=
  .next (frameOp (some decPing) l.toNat s)

/-- DEC.GOAWAY (R176). -/
def execDecGoaway (_v : BitVec 15) (_f : BitVec 8) (l : BitVec 24) (s : State) :
    Host.Outcome State Fault Refusal :=
  .next (frameOp (some decGoaway) l.toNat s)

/-- DEC.HEADERS (R177). -/
def execDecHeaders (_v : BitVec 15) (_f : BitVec 8) (l : BitVec 24) (s : State) :
    Host.Outcome State Fault Refusal :=
  .next (frameOp (some decHeaders) l.toNat s)

/-- DEC.WINDOW_UPDATE (R178). -/
def execDecWindowUpdate (_v : BitVec 15) (_f : BitVec 8) (l : BitVec 24) (s : State) :
    Host.Outcome State Fault Refusal :=
  .next (frameOp (some decWindowUpdate) l.toNat s)

/-- DEC.CREDENTIAL (R179, R235): UnsupportedFrameType/KnownUnimplemented, once the frame is consumed. -/
def execDecCredential (_v : BitVec 15) (_f : BitVec 8) (l : BitVec 24) (s : State) :
    Host.Outcome State Fault Refusal :=
  .next (frameOp (some decCredential) l.toNat s)

/-- UNKNOWN_TYPE (R111, R235): UnsupportedFrameType/UnknownType, once the frame is consumed. -/
def execUnknownType (_v : BitVec 15) (_t : BitVec 16) (_f : BitVec 8) (l : BitVec 24) (s : State) :
    Host.Outcome State Fault Refusal :=
  .next (frameOp none l.toNat s)

/-- DATA_FRAME (R111, R233): UnsupportedDataFrame after the HeaderWord.  The stream id stands in RX_HW. -/
def execDataFrame (_sid : BitVec 31) (s : State) : Host.Outcome State Fault Refusal :=
  .next (onRx s frxDataFrame)

end Sys2Proof.Machine
end

