-- ==== Sys2Proof/Machine/FrameEncode.lean ====
section
/-! DEFINITION. The payload encoders (spec/43_frame_encode.md rules R200 to R208) and the part of a WRITE
that an operation ENC.* stands for: steps 2 to 4 of spec/44_framer.md (R241 to R243). -/

namespace Sys2Proof.Machine

/-- A payload encoder (R200): the exact length, computed from the descriptor first, and the payload,
which is built only when the length is acceptable. -/
structure Encoder where
  len : Ftx → Nat
  payload : Ftx → Bytes

/-- ENC.SYN_STREAM (R201). -/
def encSynStream : Encoder where
  len x := 12 + x.tailLen.toNat
  payload x :=
    be32 (sidPack x.f0) ++ be32 (sidPack x.f1) ++ be32 (priPack x.f2) ++ txBlob x

/-- ENC.SYN_REPLY (R202). -/
def encSynReply : Encoder where
  len x := 4 + x.tailLen.toNat
  payload x := be32 (sidPack x.f0) ++ txBlob x

/-- ENC.RST_STREAM (R203). -/
def encRstStream : Encoder where
  len _ := 8
  payload x := be32 (sidPack x.f0) ++ be32 x.f1

/-- One Settings entry on the wire (R96, R204). -/
def entryBytes (e : SetEntry) : Bytes :=
  be32 (flPack (e.flags.setWidth 32) (e.id.setWidth 32)) ++ be32 e.value

/-- Settings entries on the wire, in order (R204). -/
def entriesBytes : List SetEntry → Bytes
  | [] => []
  | e :: es => entryBytes e ++ entriesBytes es

/-- ENC.SETTINGS (R204). -/
def encSettings : Encoder where
  len x := 4 + 8 * x.f0.toNat
  payload x := be32 x.f0 ++ entriesBytes (txEntries x 0 x.f0.toNat)

/-- ENC.PING (R205). -/
def encPing : Encoder where
  len _ := 4
  payload x := be32 x.f0

/-- ENC.GOAWAY (R206). -/
def encGoaway : Encoder where
  len _ := 8
  payload x := be32 (sidPack x.f0) ++ be32 x.f1

/-- ENC.HEADERS (R207). -/
def encHeaders : Encoder where
  len x := 4 + x.tailLen.toNat
  payload x := be32 (sidPack x.f0) ++ txBlob x

/-- ENC.WINDOW_UPDATE (R208). -/
def encWindowUpdate : Encoder where
  len _ := 8
  payload x := be32 (sidPack x.f0) ++ be32 (sidPack x.f1)

/-- The encoder of an implemented frame type (R97). -/
def encoderOf : FrameKind → Encoder
  | .synStream => encSynStream
  | .synReply => encSynReply
  | .rstStream => encRstStream
  | .settings => encSettings
  | .ping => encPing
  | .goAway => encGoaway
  | .headers => encHeaders
  | .windowUpdate => encWindowUpdate

/-- TX_LEN takes the computed length (R34, R241). -/
def ftxSetLen (n : Nat) (x : Ftx) : Ftx :=
  { x with len := BitVec.ofNat 36 n }

/-- TXBUF takes the payload and the two words are built (R242, R243); the frame then waits for FSNK. -/
def ftxBuild (enc : Encoder) (x : Ftx) : Ftx :=
  { x with
    buf := memWrite [] 0 (enc.payload x)
    fl := flPack (x.flags.setWidth 32) (BitVec.ofNat 32 (enc.len x))
    hw := hdrPack 1 (x.version.setWidth 32) (x.type.setWidth 32)
    emitting := true
    free := x.free + 1 }

/-- WRITE steps 2 to 4 (R241 to R243): the length, its two checks, the payload and the two words. -/
def ftxEncode (p : Config.Params) (enc : Encoder) (x : Ftx) : Ftx :=
  if 16777215 < enc.len x then ftxRaise .lengthOverflow (ftxSetLen (enc.len x) x)
  else if p.payloadMax < enc.len x then
    ftxRaise (.protocolViolation .limitExceeded) (ftxSetLen (enc.len x) x)
  else ftxSetLen (enc.len x) (ftxBuild enc x)

/-- The operation that TX_TYPE selects in a WRITE. -/
def encodeOp (enc : Encoder) (s : State) : State :=
  { s with ftx := ftxEncode s.params enc s.ftx }

/-- ENC.SYN_STREAM (R201). -/
def execEncSynStream (s : State) : Host.Outcome State Fault Refusal := .next (encodeOp encSynStream s)

/-- ENC.SYN_REPLY (R202). -/
def execEncSynReply (s : State) : Host.Outcome State Fault Refusal := .next (encodeOp encSynReply s)

/-- ENC.RST_STREAM (R203). -/
def execEncRstStream (s : State) : Host.Outcome State Fault Refusal := .next (encodeOp encRstStream s)

/-- ENC.SETTINGS (R204). -/
def execEncSettings (s : State) : Host.Outcome State Fault Refusal := .next (encodeOp encSettings s)

/-- ENC.PING (R205). -/
def execEncPing (s : State) : Host.Outcome State Fault Refusal := .next (encodeOp encPing s)

/-- ENC.GOAWAY (R206). -/
def execEncGoaway (s : State) : Host.Outcome State Fault Refusal := .next (encodeOp encGoaway s)

/-- ENC.HEADERS (R207). -/
def execEncHeaders (s : State) : Host.Outcome State Fault Refusal := .next (encodeOp encHeaders s)

/-- ENC.WINDOW_UPDATE (R208). -/
def execEncWindowUpdate (s : State) : Host.Outcome State Fault Refusal :=
  .next (encodeOp encWindowUpdate s)

end Sys2Proof.Machine
end

