-- ==== Sys2Proof/Machine/Framer.lean ====
section
/-! DEFINITION. The Framer (spec/44_framer.md rules R230 to R248): the steps of FRX and FTX, and the
commands READ and WRITE.  A step is one stream access, or the dispatch of what has been read (R301). -/

namespace Sys2Proof.Machine

/-! ### READ -/

/-- READ step 1 (R232): the HeaderWord.  fsm leaves AwaitingHeader when it is a control frame's (R230,
R233).  Truncation leaves the position undefined, EndOfStream does not (R66, R263, R273, U1). -/
def frxHeaderWord (r : Frx × Source) : Option (Frx × Source) :=
  match srcRead r.2 4 with
  | .silent => none
  | .ended [] src => some (frxRaise .endOfStream r.1, src)
  | .ended (_ :: _) src => some (frxRaise (.truncation .inHeaderWord) r.1, loseSource src)
  | .failed e src => some (frxRaise (.ioError e) r.1, src)
  | .ok b src =>
    some ({ r.1 with
              hw := be32At b 0, hwv := true
              fsm := if hdrControl (be32At b 0) = 1#1 then .awaitingPayload else .awaitingHeader },
          src)

/-- The first half of READ step 3 (R234): the FlagLengthWord and the capacity check.  After
LimitExceeded and after Truncation the position is undefined (R66, R273, U1). -/
def frxFlagLength (p : Config.Params) (r : Frx × Source) : Option (Frx × Source) :=
  match srcRead r.2 4 with
  | .silent => none
  | .ended _ src => some (frxRaise (.truncation .inFlagLengthWord) r.1, loseSource src)
  | .failed e src => some (frxRaise (.ioError e) r.1, src)
  | .ok b src =>
    if p.payloadMax < (flLength (be32At b 0)).toNat then
      some (frxRaise (.protocolViolation .limitExceeded)
              { r.1 with fl := be32At b 0, flv := true }, loseSource src)
    else some ({ r.1 with fl := be32At b 0, flv := true }, src)

/-- The next step of FRX, none when it is idle or its source does not answer (R230 to R237, R300). -/
def frxTurn (p : Config.Params) (r : Frx × Source) : Option (Frx × Source) :=
  if r.1.status.busy = false then none
  else if r.1.hwv = false then frxHeaderWord r
  else if hdrControl r.1.hw = 0#1 then some (frxDataFrame r)
  else if r.1.flv = false then frxFlagLength p r
  else frxReceive (dispatch (hdrType r.1.hw)) (flLength r.1.fl).toNat r

/-- A READ has at most three steps after its acceptance: three stream reads (R302), or one and the
refusal of a data frame. -/
def readSteps : Nat := 3

/-- A READ from its acceptance (R231): it goes on at once as far as the source answers, or, in the
stepwise pace, by the turns of FRX (R301; notes/assumptions/1.md). -/
def frxRead (p : Config.Params) (pace : Pace) (r : Frx × Source) : Frx × Source :=
  match pace with
  | .stepwise => (frxAccept r.1, findSource .fsrc r.2 r.1.free)
  | .atOnce => runTurns (frxTurn p) readSteps (frxAccept r.1, findSource .fsrc r.2 r.1.free)

/-- READ (R231 to R238).  A busy unit drops it (R294), and so does a block held in reset (R290). -/
def execRead (s : State) : Host.Outcome State Fault Refusal :=
  if s.resetLine = true ∨ s.frx.status.busy = true then .next s
  else .next (onRx s (frxRead s.params s.pace))

/-! ### WRITE -/

/-- Why TX_TYPE is refused (R240, R262). -/
def txTypeProblem (t : BitVec 16) : TypeProblem :=
  if t = credentialCode then .knownUnimplemented else .unknownType

/-- The bytes of the frame that has been built (R90, R244). -/
def txFrameBytes (x : Ftx) : Bytes :=
  be32 x.hw ++ be32 x.fl ++ memReadFree x.buf x.free 0 x.len.toNat

/-- A WRITE ends with success (R245).  TXBUF holds a value only during a WRITE (R36). -/
def ftxSucceed (x : Ftx) : Ftx :=
  { x with
    status := statusSucceeded, written := BitVec.ofNat 25 (8 + x.len.toNat), buf := [],
    emitting := false }

/-- WRITE step 5 and 6 (R244, R245): one ordered sequence of bytes. -/
def ftxEmit (r : Ftx × Sink) : Option (Ftx × Sink) :=
  match sinkWrite .fsnk r.2 (txFrameBytes r.1) r.1.free with
  | .silent => none
  | .failed e snk => some (ftxRaise (.ioError e) r.1, snk)
  | .ok snk => some (ftxSucceed r.1, snk)

/-- WRITE steps 1 to 4 (R240 to R243). -/
def ftxPrepare (p : Config.Params) (x : Ftx) : Ftx :=
  match kindOfCode x.type with
  | none => ftxRaise (.unsupportedFrameType (txTypeProblem x.type)) x
  | some k => ftxEncode p (encoderOf k) x

/-- The next step of FTX, none when it is idle or its sink does not answer (R240 to R245, R300). -/
def ftxTurn (p : Config.Params) (r : Ftx × Sink) : Option (Ftx × Sink) :=
  if r.1.status.busy = false then none
  else if r.1.emitting = false then some (ftxPrepare p r.1, r.2)
  else ftxEmit r

/-- A WRITE has at most two steps after its acceptance, one of them a sink write (R302). -/
def writeSteps : Nat := 2

/-- A WRITE from its acceptance (R239). -/
def ftxWrite (p : Config.Params) (pace : Pace) (r : Ftx × Sink) : Ftx × Sink :=
  match pace with
  | .stepwise => (ftxAccept r.1, r.2)
  | .atOnce => runTurns (ftxTurn p) writeSteps (ftxAccept r.1, r.2)

/-- Let the write path act. -/
def onTx (s : State) (f : Ftx × Sink → Ftx × Sink) : State :=
  { s with ftx := (f (s.ftx, s.fsnk)).1, fsnk := (f (s.ftx, s.fsnk)).2 }

/-- WRITE (R239 to R246).  A busy unit drops it (R294), and so does a block held in reset (R290). -/
def execWrite (s : State) : Host.Outcome State Fault Refusal :=
  if s.resetLine = true ∨ s.ftx.status.busy = true then .next s
  else .next (onTx s (ftxWrite s.params s.pace))

end Sys2Proof.Machine
end

