-- ==== Sys2Proof/Machine/NvBlock.lean ====
section
/-! DEFINITION. The name/value unit (spec/41_nvblock.md rules R150 to R157): the steps of NVU, and the
commands NV.DEC and NV.ENC.  A step is one stream access (R301). -/

namespace Sys2Proof.Machine

/-! ### NV.DEC -/

/-- NV.DEC ends with success (R151). -/
def nvFinishDec (x : Nvu) : Nvu :=
  { x with
    count := BitVec.ofNat 32 x.nvt.length, bytes := BitVec.ofNat 66 x.total,
    status := statusSucceeded, phase := .idle }

/-- Go on to the next of the `n` pairs still to be read, or end. -/
def nvNextPair (n : Nat) (x : Nvu) : Nvu :=
  match n with
  | 0 => nvFinishDec x
  | more + 1 => { x with phase := .decNameLen more }

/-- A whole pair has been read: the strict checks (R153), then last write wins, then the capacity
(R151, R271). -/
def nvEndPair (p : Config.Params) (more : Nat) (name value : Bytes) (x : Nvu) : Except OpError Nvu :=
  if x.strict = true ∧ name = [] then .error (.protocolViolation .zeroLengthName)
  else if x.strict = true ∧ nvHas x.nvt name = true then .error (.protocolViolation .duplicateName)
  else if nvHas x.nvt name = false ∧ p.nvPairCap ≤ x.nvt.length then
    .error (.protocolViolation .limitExceeded)
  else
    .ok (nvNextPair more
      { x with nvt := nvInsert x.nvt name value, total := x.total + 8 + name.length + value.length })

/-- What the unit does with a length word: the capacity check comes before the bytes it announces are
asked for (R151, R271). -/
def nvCheckLength (p : Config.Params) (len : Nat) (next : NvPhase) (x : Nvu) : Except OpError Nvu :=
  if p.nvStrCap < len then .error (.protocolViolation .limitExceeded)
  else .ok { x with phase := next }

/-- `rd(n, phase)` of R151, and what is then done with the bytes.  None while the source does not answer;
every error leaves NSRC at an undefined position (R273). -/
def nvRead (p : Config.Params) (n : Nat) (point : TruncPoint) (f : Bytes → Nvu → Except OpError Nvu)
    (r : Nvu × Source) : Option (Nvu × Source) :=
  match srcRead r.2 n with
  | .silent => none
  | .ended _ src => some (nvRaiseDec p (.truncation point) r.1, loseSource src)
  | .failed e src => some (nvRaiseDec p (.ioError e) r.1, loseSource src)
  | .ok b src =>
    match f b r.1 with
    | .error e => some (nvRaiseDec p e r.1, loseSource src)
    | .ok x => some (x, src)

/-- The next step of an NV.DEC (R151), none when there is none to do or the source does not answer. -/
def nvDecTurn (p : Config.Params) (r : Nvu × Source) : Option (Nvu × Source) :=
  match r.1.phase with
  | .idle => none
  | .enc _ => none
  | .decCount =>
    nvRead p 4 .inNvCount (fun b x => .ok (nvNextPair (be32At b 0).toNat { x with total := 4 })) r
  | .decNameLen more =>
    nvRead p 4 .inNvNameLen
      (fun b x => nvCheckLength p (be32At b 0).toNat (.decName more (be32At b 0).toNat) x) r
  | .decName more nameLen =>
    nvRead p nameLen .inNvName (fun b x => .ok { x with phase := .decValueLen more b }) r
  | .decValueLen more name =>
    nvRead p 4 .inNvValueLen
      (fun b x => nvCheckLength p (be32At b 0).toNat (.decValue more name (be32At b 0).toNat) x) r
  | .decValue more name valueLen =>
    nvRead p valueLen .inNvValue (fun b x => nvEndPair p more name b x) r

/-- More steps than any NV.DEC or NV.ENC has: 1 + 4 * (2^32 - 1) stream accesses (R302). -/
def nvSteps : Nat := 17179869181

/-- An NV.DEC from its acceptance (R151). -/
def nvDec (p : Config.Params) (strict : Bool) (pace : Pace) (r : Nvu × Source) : Nvu × Source :=
  match pace with
  | .stepwise => (nvAcceptDec strict r.1, findSource .nsrc r.2 r.1.free)
  | .atOnce => runTurns (nvDecTurn p) nvSteps (nvAcceptDec strict r.1, findSource .nsrc r.2 r.1.free)

/-- Let the name/value unit act on its source. -/
def onNvIn (s : State) (f : Nvu × Source → Nvu × Source) : State :=
  { s with nvu := (f (s.nvu, s.nsrc)).1, nsrc := (f (s.nvu, s.nsrc)).2 }

/-- NV.DEC (R151, R153).  A busy unit drops it (R294), and so does a block held in reset (R290). -/
def execNvDec (s : State) : Host.Outcome State Fault Refusal :=
  if s.resetLine = true ∨ s.nvu.status.busy = true then .next s
  else .next (onNvIn s (nvDec s.params (s.ctrl == 1) s.pace))

/-! ### NV.ENC -/

/-- The byte strings that stand for pairs on the wire, in order (R107, R152). -/
def pairPieces : NvTable → List Bytes
  | [] => []
  | (n, v) :: t =>
    be32 (BitVec.ofNat 32 n.length) :: n :: be32 (BitVec.ofNat 32 v.length) :: v :: pairPieces t

/-- The size of a block: 4, and for every pair 8 and the two string lengths (R107, R156). -/
def blockSize : NvTable → Nat
  | [] => 4
  | (n, v) :: t => 8 + n.length + v.length + blockSize t

/-- The pairs NV.ENC writes: NVT[0 .. NV_COUNT) (R152). -/
def nvOut (x : Nvu) : NvTable := x.nvt.take x.count.toNat

/-- Accepting an NV.ENC (R37, R152): the byte strings to hand over are those of the count and the pairs,
in index order. -/
def nvAcceptEnc (x : Nvu) : Nvu :=
  { x with
    status := statusAccepted, dir := true, phase := .enc (be32 x.count :: pairPieces (nvOut x)),
    total := blockSize (nvOut x) }

/-- NV.ENC ends with success (R152). -/
def nvFinishEnc (x : Nvu) : Nvu :=
  { x with bytes := BitVec.ofNat 66 x.total, status := statusSucceeded, phase := .idle }

/-- The byte strings `bs` are still to be handed over, or NV.ENC ends. -/
def nvNextPiece (bs : List Bytes) (x : Nvu) : Nvu :=
  match bs with
  | [] => nvFinishEnc x
  | _ :: _ => { x with phase := .enc bs }

/-- The next step of an NV.ENC (R152): `wr(b)` for one byte string. -/
def nvEncTurn (r : Nvu × Sink) : Option (Nvu × Sink) :=
  match r.1.phase with
  | .enc (b :: bs) =>
    match sinkWrite .nsnk r.2 b r.1.free with
    | .silent => none
    | .failed e snk => some (nvRaiseEnc (.ioError e) r.1, snk)
    | .ok snk => some (nvNextPiece bs r.1, snk)
  | .enc [] => some (nvFinishEnc r.1, r.2)
  | .idle | .decCount | .decNameLen _ | .decName _ _ | .decValueLen _ _ | .decValue _ _ _ => none

/-- An NV.ENC from its acceptance (R152). -/
def nvEnc (pace : Pace) (r : Nvu × Sink) : Nvu × Sink :=
  match pace with
  | .stepwise => (nvAcceptEnc r.1, r.2)
  | .atOnce => runTurns nvEncTurn nvSteps (nvAcceptEnc r.1, r.2)

/-- Let the name/value unit act on its sink. -/
def onNvOut (s : State) (f : Nvu × Sink → Nvu × Sink) : State :=
  { s with nvu := (f (s.nvu, s.nsnk)).1, nsnk := (f (s.nvu, s.nsnk)).2 }

/-- NV.ENC (R152).  A busy unit drops it (R294), and so does a block held in reset (R290). -/
def execNvEnc (s : State) : Host.Outcome State Fault Refusal :=
  if s.resetLine = true ∨ s.nvu.status.busy = true then .next s
  else .next (onNvOut s (nvEnc s.pace))

end Sys2Proof.Machine
end

