-- ==== Sys2Proof/Machine/WordUnit.lean ====
section
/-! DEFINITION. The word unit: the eight function ports (spec/40_words.md rules R130 to R138).  They hold
no state and cannot fail; what they give is handed to the host. -/

namespace Sys2Proof.Machine

/-- Hand a result to the host. -/
def respond (r : HostResp) (s : State) : State := { s with resp := s.resp ++ [r] }

/-- HDR.PACK (R130). -/
def execHdrPack (control version type : Word) (s : State) : Host.Outcome State Fault Refusal :=
  .next (respond (.word (hdrPack control version type)) s)

/-- HDR.UNPACK (R131). -/
def execHdrUnpack (w : Word) (s : State) : Host.Outcome State Fault Refusal :=
  .next (respond (.header (hdrUnpack w).1 (hdrUnpack w).2.1 (hdrUnpack w).2.2) s)

/-- FL.PACK (R132). -/
def execFlPack (flags length : Word) (s : State) : Host.Outcome State Fault Refusal :=
  .next (respond (.word (flPack flags length)) s)

/-- FL.UNPACK (R133). -/
def execFlUnpack (w : Word) (s : State) : Host.Outcome State Fault Refusal :=
  .next (respond (.flagLength (flUnpack w).1 (flUnpack w).2) s)

/-- SID.PACK (R134). -/
def execSidPack (id : Word) (s : State) : Host.Outcome State Fault Refusal :=
  .next (respond (.word (sidPack id)) s)

/-- SID.UNPACK (R135). -/
def execSidUnpack (w : Word) (s : State) : Host.Outcome State Fault Refusal :=
  .next (respond (.streamId (sidUnpack w)) s)

/-- PRI.PACK (R136). -/
def execPriPack (priority : Word) (s : State) : Host.Outcome State Fault Refusal :=
  .next (respond (.word (priPack priority)) s)

/-- PRI.UNPACK (R137). -/
def execPriUnpack (w : Word) (s : State) : Host.Outcome State Fault Refusal :=
  .next (respond (.priority (priUnpack w)) s)

end Sys2Proof.Machine
end

