-- ==== Sys2Proof/Machine/HostPort.lean ====
section
/-! DEFINITION. The accesses of the host (spec/10_state.md rules R21 to R44, spec/20_memory.md rules R60,
R66 to R71): registers by number, the buffers and the table.  Reads have no side effect on the block; a
busy unit gives up nothing but its STATUS (R295). -/

namespace Sys2Proof.Machine

/-- The answer to a host access. -/
abbrev HostOutcome := Host.Outcome State Fault Refusal

/-- Answer a register read (zero-extended to the port). -/
def answerReg (reg : BitVec 8) {w : Nat} (v : BitVec w) (s : State) : HostOutcome :=
  .next (respond (.reg reg (v.setWidth 66)) s)

/-- A read of FRX other than of RX_STATUS, refused while it is busy (R44, R295). -/
def readRx (s : State) (reg : BitVec 8) {w : Nat} (v : BitVec w) : HostOutcome :=
  if s.frx.status.busy then .refused .busyUnit else answerReg reg v s

/-- A read of a frame-field register, which gives no value unless the last READ gives it one: "the model
must give such a read no value (refuse or fault), never zero" (R27; R28, U17). -/
def readField (s : State) (valid : Bool) (reg : BitVec 8) {w : Nat} (v : BitVec w) : HostOutcome :=
  if s.frx.status.busy then .refused .busyUnit
  else if valid then answerReg reg v s else .refused .noValue

/-- A read of FTX other than of TX_STATUS. -/
def readTx (s : State) (reg : BitVec 8) {w : Nat} (v : BitVec w) : HostOutcome :=
  if s.ftx.status.busy then .refused .busyUnit else answerReg reg v s

/-- A read of NVU other than of NV_STATUS. -/
def readNv (s : State) (reg : BitVec 8) {w : Nat} (v : BitVec w) : HostOutcome :=
  if s.nvu.status.busy then .refused .busyUnit else answerReg reg v s

/-- A register read (R42).  Unassigned numbers read 0.  A register that nothing has written since reset
reads the value it holds (notes/assumptions/3.md). -/
def regRead (reg : BitVec 8) (s : State) : HostOutcome :=
  if reg = 0x00 ∨ reg = 0x10 ∨ reg = 0x20 then .refused .writeOnlyRegister
  else if reg = 0x01 then answerReg reg (rxStatusWord s.frx) s
  else if reg = 0x02 then readRx s reg s.frx.hw
  else if reg = 0x03 then readRx s reg s.frx.fl
  else if reg = 0x04 then readRx s reg s.frx.cnt
  else if reg = 0x05 then readField s (rxFieldValid s.frx 0) reg s.frx.f0
  else if reg = 0x06 then readField s (rxFieldValid s.frx 1) reg s.frx.f1
  else if reg = 0x07 then readField s (rxFieldValid s.frx 2) reg s.frx.f2
  else if reg = 0x08 then readField s s.frx.status.ok reg s.frx.tailOff
  else if reg = 0x09 then readField s s.frx.status.ok reg s.frx.tailLen
  else if reg = 0x11 then answerReg reg (txStatusWord s.ftx) s
  else if reg = 0x12 then readTx s reg s.ftx.type
  else if reg = 0x13 then readTx s reg s.ftx.version
  else if reg = 0x14 then readTx s reg s.ftx.flags
  else if reg = 0x15 then readTx s reg s.ftx.f0
  else if reg = 0x16 then readTx s reg s.ftx.f1
  else if reg = 0x17 then readTx s reg s.ftx.f2
  else if reg = 0x18 then readTx s reg s.ftx.tailLen
  else if reg = 0x19 then readTx s reg s.ftx.hw
  else if reg = 0x1A then readTx s reg s.ftx.fl
  else if reg = 0x1B then readTx s reg s.ftx.len
  else if reg = 0x1C then readTx s reg s.ftx.written
  else if reg = 0x21 then answerReg reg (nvStatusWord s.nvu) s
  else if reg = 0x22 then readNv s reg s.nvu.count
  else if reg = 0x23 then readNv s reg s.nvu.bytes
  else if reg = 0x30 then answerReg reg s.ctrl s
  else answerReg reg (0 : BitVec 1) s

/-- A write of the descriptor, refused while FTX is busy (R295). -/
def writeTx (s : State) (f : Ftx → Ftx) : HostOutcome :=
  if s.ftx.status.busy then .refused .busyUnit else .next { s with ftx := f s.ftx }

/-- The unit that owns a read-only register is busy (R42). -/
def readOnlyBusy (reg : BitVec 8) (s : State) : Bool :=
  if 0x01 ≤ reg.toNat ∧ reg.toNat ≤ 0x09 then s.frx.status.busy
  else if reg = 0x11 ∨ 0x19 ≤ reg.toNat ∧ reg.toNat ≤ 0x1C then s.ftx.status.busy
  else if 0x21 ≤ reg.toNat ∧ reg.toNat ≤ 0x23 then s.nvu.status.busy
  else false

/-- A register write (R31 to R33, R42): the low bits are kept (D5).  A write of CTRL is refused while NVU
is busy (R44, R299), and a write of a read-only register while its unit is busy (R44, R295: of a busy unit
the STATUS register is read and nothing else is accessed).  A read-only register of an idle unit and an
unassigned register ignore it (R40, R42; notes/assumptions/11.md), and so does a CMD register (R35, R37,
U21): a value that requests an operation never comes here. -/
def regWrite (reg : BitVec 8) (d : PortData) (s : State) : HostOutcome :=
  if reg = 0x12 then writeTx s fun x => { x with type := d.setWidth 16 }
  else if reg = 0x13 then writeTx s fun x => { x with version := d.setWidth 15 }
  else if reg = 0x14 then writeTx s fun x => { x with flags := d.setWidth 8 }
  else if reg = 0x15 then writeTx s fun x => { x with f0 := d.setWidth 32 }
  else if reg = 0x16 then writeTx s fun x => { x with f1 := d.setWidth 32 }
  else if reg = 0x17 then writeTx s fun x => { x with f2 := d.setWidth 32 }
  else if reg = 0x18 then writeTx s fun x => { x with tailLen := d.setWidth 32 }
  else if reg = 0x30 then
    if s.nvu.status.busy then .refused .busyUnit else .next { s with ctrl := d.setWidth 1 }
  else if readOnlyBusy reg s then .refused .busyUnit
  else .next s

/-- Read n bytes of a buffer of `cap` bytes: all of them must exist (R60; notes/assumptions/17.md) and hold a
value (U16, U18). -/
def readBuffer (m : Memory) (cap off n : Nat) (s : State) : HostOutcome :=
  if cap < off + n then .fault .noSuchAddress
  else
    match memRead m off n with
    | some b => .next (respond (.bytes b) s)
    | none => .refused .noValue

/-- The capacity of TXTAIL, the least that R69 allows (notes/assumptions/16.md). -/
def txtailCap (p : Config.Params) : Nat := p.payloadMax

/-- The capacity of TXSET in entries, the least that R69 allows (notes/assumptions/16.md). -/
def txsetCap (p : Config.Params) : Nat := (p.payloadMax - 4) / 8

/-- Read bytes of RXBUF (R29, R67). -/
def rxbufRead (off n : Nat) (s : State) : HostOutcome :=
  if s.frx.status.busy then .refused .busyUnit
  else readBuffer s.frx.buf s.params.payloadMax off n s

/-- Read RXSET[i] (R68): it has a value for an entry of a decoded Settings frame only. -/
def rxsetRead (i : Nat) (s : State) : HostOutcome :=
  if s.frx.status.busy then .refused .busyUnit
  else if rxKind s.frx = some .settings ∧ i < s.frx.f0.toNat then
    match rxsetEntry s.frx i with
    | some e => .next (respond (.entry e) s)
    | none => .refused .noValue
  else .refused .noValue

/-- Write bytes of TXTAIL (R33, R69). -/
def txtailWrite (off : Nat) (b : Bytes) (s : State) : HostOutcome :=
  if s.ftx.status.busy then .refused .busyUnit
  else if txtailCap s.params < off + b.length then .fault .noSuchAddress
  else .next { s with ftx := { s.ftx with tail := memWrite s.ftx.tail off b } }

/-- Read bytes of TXTAIL (R20, R44). -/
def txtailRead (off n : Nat) (s : State) : HostOutcome :=
  if s.ftx.status.busy then .refused .busyUnit
  else readBuffer s.ftx.tail (txtailCap s.params) off n s

/-- Write TXSET[i] (R33, R69): each field keeps the low bits (D5; notes/assumptions/25.md). -/
def txsetWrite (i : Nat) (flags id value : Word) (s : State) : HostOutcome :=
  if s.ftx.status.busy then .refused .busyUnit
  else if txsetCap s.params ≤ i then .fault .noSuchAddress
  else
    .next { s with
              ftx := { s.ftx with
                        set := storeSet s.ftx.set i
                          { flags := flags.setWidth 8, id := id.setWidth 24, value := value } } }

/-- Read TXSET[i] (R20, R44). -/
def txsetRead (i : Nat) (s : State) : HostOutcome :=
  if s.ftx.status.busy then .refused .busyUnit
  else if txsetCap s.params ≤ i then .fault .noSuchAddress
  else
    match storeGet s.ftx.set i with
    | some e => .next (respond (.entry e) s)
    | none => .refused .noValue

/-- Load NVT (R155): it sets NV_COUNT; a load that is no table is outside the contract (U23). -/
def nvtLoad (t : NvTable) (s : State) : HostOutcome :=
  if s.nvu.status.busy then .refused .busyUnit
  else if nvFits s.params t then
    .next { s with nvu := { s.nvu with nvt := t, count := BitVec.ofNat 32 t.length } }
  else .refused .outsideTableContract

/-- One half of NVT[i], for 0 ≤ i < NV_COUNT (R70). -/
def nvtHalf (x : Nvu) (i : Nat) (h : NvHalf) : Option Bytes :=
  match (nvOut x)[i]? with
  | none => none
  | some (n, v) =>
    match h with
    | .name => some n
    | .value => some v

/-- Read the length of a name or value (R70). -/
def nvtLength (i : Nat) (h : NvHalf) (s : State) : HostOutcome :=
  if s.nvu.status.busy then .refused .busyUnit
  else
    match nvtHalf s.nvu i h with
    | some b => .next (respond (.length b.length) s)
    | none => .refused .noValue

/-- Read bytes of a name or value by offset (R70). -/
def nvtRead (i : Nat) (h : NvHalf) (off n : Nat) (s : State) : HostOutcome :=
  if s.nvu.status.busy then .refused .busyUnit
  else
    match nvtHalf s.nvu i h with
    | some b =>
      if off + n ≤ b.length then .next (respond (.bytes ((b.drop off).take n)) s)
      else .refused .noValue
    | none => .refused .noValue

/-- A host access that requests no operation. -/
def hostAccess (r : HostReq) (s : State) : HostOutcome :=
  match r with
  | .regWrite reg d => regWrite reg d s
  | .regRead reg => regRead reg s
  | .wordOp _ _ _ _ => .next s
  | .rxbufRead off n => rxbufRead off n s
  | .rxsetRead i => rxsetRead i s
  | .txtailWrite off b => txtailWrite off b s
  | .txtailRead off n => txtailRead off n s
  | .txsetWrite i f id v => txsetWrite i f id v s
  | .txsetRead i => txsetRead i s
  | .nvtLoad t => nvtLoad t s
  | .nvtLength i h => nvtLength i h s
  | .nvtRead i h off n => nvtRead i h off n s

end Sys2Proof.Machine
end

