-- ==== Sys2Proof/Machine/Environment.lean ====
section
/-! DEFINITION. What the environment does to the block (spec/00_scope.md rule R6): the reset input
(spec/70_reset_and_hazards.md rules R290 to R292), the byte streams (spec/20_memory.md rules R61, R62),
and the turns of the units between their stream accesses (R301). -/

namespace Sys2Proof.Machine

/-- FSNK when a reset comes: a WRITE that was handing its frame over may have handed some of it (R292,
U24). -/
def resetFsnk (x : Ftx) (snk : Sink) : Sink :=
  if x.status.busy = true ∧ x.emitting = true then sinkSome .fsnk snk (txFrameBytes x) x.free
  else snk

/-- NSRC when a reset comes: unknown position if an NV.DEC was in progress (R292). -/
def resetNsrc (x : Nvu) (src : Source) : Source :=
  if x.status.busy = true ∧ x.dir = false then loseSource src else src

/-- NSNK when a reset comes: an NV.ENC in progress may have handed some bytes over (R292, U24). -/
def resetNsnk (x : Nvu) (snk : Sink) : Sink :=
  match x.phase with
  | .enc (b :: _) => sinkSome .nsnk snk b x.free
  | .enc [] | .idle | .decCount | .decNameLen _ | .decName _ _ | .decValueLen _ _ | .decValue _ _ _ =>
    snk

/-- Every element of the block at its reset value (R43, R290); an operation in progress is abandoned
without an outcome (R292).  The streams and the model's own fields are not the block's. -/
def resetBlock (s : State) : State :=
  { s with
    ctrl := s.params.strictReset
    frx := Frx.reset s.frx.free
    ftx := Ftx.reset s.ftx.free
    nvu := Nvu.reset s.nvu.free
    fsrc := if s.frx.status.busy = true then loseSource s.fsrc else s.fsrc
    fsnk := resetFsnk s.ftx s.fsnk
    nsrc := resetNsrc s.nvu s.nsrc
    nsnk := resetNsnk s.nvu s.nsnk }

/-- The bytes `b` come to a source, and `tail` is what follows them (R61).  Those before the position at
which an operation found the source are gone (notes/assumptions/6.md). -/
def deliverTo (b : Bytes) (tail : SrcTail) (src : Source) : Source :=
  { src with bytes := src.bytes ++ b.drop src.skip, tail := tail, skip := src.skip - b.length }

/-- Let one source change. -/
def onSource (p : SrcPort) (f : Source → Source) (s : State) : State :=
  match p with
  | .fsrc => { s with fsrc := f s.fsrc }
  | .nsrc => { s with nsrc := f s.nsrc }

/-- Let one sink change how it answers. -/
def setSink (p : SnkPort) (m : SinkMode) (s : State) : State :=
  match p with
  | .fsnk => { s with fsnk := { s.fsnk with mode := m } }
  | .nsnk => { s with nsnk := { s.nsnk with mode := m } }

/-- NVU takes its next step, of the operation it is in (R37). -/
def nvTurn (s : State) : State :=
  if s.nvu.dir = true then onNvOut s fun r => (nvEncTurn r).getD r
  else onNvIn s fun r => (nvDecTurn s.params r).getD r

/-- A unit takes its next step; a unit that is idle or not answered stays where it is (R300). -/
def unitTurn (u : UnitId) (s : State) : State :=
  match u with
  | .frx => onRx s fun r => (frxTurn s.params r).getD r
  | .ftx => onTx s fun r => (ftxTurn s.params r).getD r
  | .nvu => nvTurn s

/-- What happens to the block when no operation is dispatched.  A reset event resets the block whether it
asserts or releases the input, and whether or not the input changes: a release alone, or an assertion while
asserted, abandons a busy unit too (DESIGN CHOICE, unsafe: notes/assumptions/18.md; R290 and R292 speak of
an assertion and the release that ends it). -/
def happen (e : Event) (s : State) : HostOutcome :=
  match e with
  | .host r => hostAccess r s
  | .turn u => .next (unitTurn u s)
  | .deliver p b tail => .next (onSource p (deliverTo b tail) s)
  | .connect p src => .next (onSource p (fun _ => src) s)
  | .sink p m => .next (setSink p m s)
  | .resetLine a => .next { resetBlock s with resetLine := a }
  | .pace p => .next { s with pace := p }

end Sys2Proof.Machine
end

