-- ==== Sys2Proof/Machine/Dispatch.lean ====
section
/-! DEFINITION. The meaning of each operation, one arm per constructor of `Instr`. -/

namespace Sys2Proof.Machine

def exec (i : Instr) (s : State) : Host.Outcome State Fault Refusal :=
  match i with
  | .read => Sys2Proof.Machine.execRead s
  | .write => Sys2Proof.Machine.execWrite s
  | .decSynStream v f l => Sys2Proof.Machine.execDecSynStream v f l s
  | .decSynReply v f l => Sys2Proof.Machine.execDecSynReply v f l s
  | .decRstStream v f l => Sys2Proof.Machine.execDecRstStream v f l s
  | .decSettings v f l => Sys2Proof.Machine.execDecSettings v f l s
  | .decPing v f l => Sys2Proof.Machine.execDecPing v f l s
  | .decGoaway v f l => Sys2Proof.Machine.execDecGoaway v f l s
  | .decHeaders v f l => Sys2Proof.Machine.execDecHeaders v f l s
  | .decWindowUpdate v f l => Sys2Proof.Machine.execDecWindowUpdate v f l s
  | .decCredential v f l => Sys2Proof.Machine.execDecCredential v f l s
  | .dataFrame sid => Sys2Proof.Machine.execDataFrame sid s
  | .unknownType v t f l => Sys2Proof.Machine.execUnknownType v t f l s
  | .encSynStream => Sys2Proof.Machine.execEncSynStream s
  | .encSynReply => Sys2Proof.Machine.execEncSynReply s
  | .encRstStream => Sys2Proof.Machine.execEncRstStream s
  | .encSettings => Sys2Proof.Machine.execEncSettings s
  | .encPing => Sys2Proof.Machine.execEncPing s
  | .encGoaway => Sys2Proof.Machine.execEncGoaway s
  | .encHeaders => Sys2Proof.Machine.execEncHeaders s
  | .encWindowUpdate => Sys2Proof.Machine.execEncWindowUpdate s
  | .hdrPack c v t => Sys2Proof.Machine.execHdrPack c v t s
  | .hdrUnpack w => Sys2Proof.Machine.execHdrUnpack w s
  | .flPack f l => Sys2Proof.Machine.execFlPack f l s
  | .flUnpack w => Sys2Proof.Machine.execFlUnpack w s
  | .sidPack n => Sys2Proof.Machine.execSidPack n s
  | .sidUnpack w => Sys2Proof.Machine.execSidUnpack w s
  | .priPack p => Sys2Proof.Machine.execPriPack p s
  | .priUnpack w => Sys2Proof.Machine.execPriUnpack w s
  | .nvDec => Sys2Proof.Machine.execNvDec s
  | .nvEnc => Sys2Proof.Machine.execNvEnc s

end Sys2Proof.Machine
end

