-- ==== Sys2Proof/WellFormed.lean ====
section
/-! DEFINITION. Which terms of `Instr` stand for words of the block (spec/30_encoding.md rules R97 and
R111).  Every other operand fills its field, so the type code of the default row is the one check. -/

namespace Sys2Proof

/-- The type codes of the default row: 0, 5 and 11 to 65535 (R111). -/
def unknownCode (t : BitVec 16) : Bool :=
  t == 0 || t == 5 || decide (11 ≤ t.toNat)

/-- An operation that some word of the block encodes. -/
def wellFormed : Instr → Bool
  | .unknownType _ t _ _ => unknownCode t
  | .read | .write | .nvDec | .nvEnc => true
  | .decSynStream _ _ _ | .decSynReply _ _ _ | .decRstStream _ _ _ | .decSettings _ _ _ => true
  | .decPing _ _ _ | .decGoaway _ _ _ | .decHeaders _ _ _ | .decWindowUpdate _ _ _ => true
  | .decCredential _ _ _ | .dataFrame _ => true
  | .encSynStream | .encSynReply | .encRstStream | .encSettings => true
  | .encPing | .encGoaway | .encHeaders | .encWindowUpdate => true
  | .hdrPack _ _ _ | .hdrUnpack _ | .flPack _ _ | .flUnpack _ => true
  | .sidPack _ | .sidUnpack _ | .priPack _ | .priUnpack _ => true

end Sys2Proof
end

