-- ==== Sys2Proof/Decode.lean ====
section
/-! DEFINITION. The decoder: from the words an operation is fetched from to the operation, total, with a
rejection by name; the encoder; and the host's numbering of a table row's bits
(spec/30_encoding.md rules R97, R111, R113; spec/10_state.md rules R35, R37, R42). -/

namespace Sys2Proof

open Machine (be32 be32At hdrPack hdrControl hdrVersion hdrType flPack flFlags flLength kindOfCode
  frameCode credentialCode)

/-- Why words select no operation. -/
inductive Reject where
  /-- The register written is no command register (R42). -/
  | notACommandRegister
  /-- The value written to a command register requests nothing (R35, R37). -/
  | ignoredCommandValue
  /-- A control frame's HeaderWord without its FlagLengthWord (R112). -/
  | incompleteHeader
  /-- TX_TYPE is 10, known but without an encoder (R209, R240). -/
  | knownUnimplemented
  /-- TX_TYPE is no type code of the known set (R209, R240). -/
  | unknownTxType
  /-- Fewer bytes than a header has (R112). -/
  | tooFewBytes
  deriving DecidableEq, Repr

/-- RX_CMD, register number 0x00 (R42). -/
def regRxCmd : BitVec 8 := 0x00

/-- TX_CMD, register number 0x10 (R42). -/
def regTxCmd : BitVec 8 := 0x10

/-- NV_CMD, register number 0x20 (R42). -/
def regNvCmd : BitVec 8 := 0x20

/-- The command a host write requests.  A command register keeps the low bits of what is written
(D5 and the table's masks; notes/assumptions/10.md): RX_CMD and TX_CMD one bit, NV_CMD two. -/
def decodeCommand (reg : BitVec 8) (data : PortData) : Except Reject Instr :=
  if reg = regRxCmd then
    if data.extractLsb' 0 1 = 1#1 then .ok .read else .error .ignoredCommandValue
  else if reg = regTxCmd then
    if data.extractLsb' 0 1 = 1#1 then .ok .write else .error .ignoredCommandValue
  else if reg = regNvCmd then
    if data.extractLsb' 0 2 = 1#2 then .ok .nvDec
    else if data.extractLsb' 0 2 = 2#2 then .ok .nvEnc
    else .error .ignoredCommandValue
  else .error .notACommandRegister

/-- The operation a complete header selects (R113): the control bit, then the type code alone. -/
def decodeHeader (w0 w1 : Word) : Instr :=
  if hdrControl w0 = 0#1 then .dataFrame (w0.extractLsb' 0 31)
  else
    match kindOfCode (hdrType w0) with
    | some .synStream => .decSynStream (hdrVersion w0) (flFlags w1) (flLength w1)
    | some .synReply => .decSynReply (hdrVersion w0) (flFlags w1) (flLength w1)
    | some .rstStream => .decRstStream (hdrVersion w0) (flFlags w1) (flLength w1)
    | some .settings => .decSettings (hdrVersion w0) (flFlags w1) (flLength w1)
    | some .ping => .decPing (hdrVersion w0) (flFlags w1) (flLength w1)
    | some .goAway => .decGoaway (hdrVersion w0) (flFlags w1) (flLength w1)
    | some .headers => .decHeaders (hdrVersion w0) (flFlags w1) (flLength w1)
    | some .windowUpdate => .decWindowUpdate (hdrVersion w0) (flFlags w1) (flLength w1)
    | none =>
      if hdrType w0 = credentialCode then .decCredential (hdrVersion w0) (flFlags w1) (flLength w1)
      else .unknownType (hdrVersion w0) (hdrType w0) (flFlags w1) (flLength w1)

/-- The encoder TX_TYPE selects (R209, R240). -/
def decodeTxType (t : BitVec 16) : Except Reject Instr :=
  match kindOfCode t with
  | some .synStream => .ok .encSynStream
  | some .synReply => .ok .encSynReply
  | some .rstStream => .ok .encRstStream
  | some .settings => .ok .encSettings
  | some .ping => .ok .encPing
  | some .goAway => .ok .encGoaway
  | some .headers => .ok .encHeaders
  | some .windowUpdate => .ok .encWindowUpdate
  | none => if t = credentialCode then .error .knownUnimplemented else .error .unknownTxType

/-- The word operation a function port call asks for (R138). -/
def decodePort (fn : WordFn) (a b c : Word) : Instr :=
  match fn with
  | .hdrPack => .hdrPack a b c
  | .hdrUnpack => .hdrUnpack a
  | .flPack => .flPack a b
  | .flUnpack => .flUnpack a
  | .sidPack => .sidPack a
  | .sidUnpack => .sidUnpack a
  | .priPack => .priPack a
  | .priUnpack => .priUnpack a

/-- The decoder. -/
def decode : InstrWord → Except Reject Instr
  | .command reg data => decodeCommand reg data
  | .dataHeader w0 =>
    if hdrControl w0 = 0#1 then .ok (.dataFrame (w0.extractLsb' 0 31)) else .error .incompleteHeader
  | .header w0 w1 => .ok (decodeHeader w0 w1)
  | .txType t => decodeTxType t
  | .port fn a b c => .ok (decodePort fn a b c)

/-- The header at the start of a byte stream (R112, R113): the operation and the bytes that follow its
header.  Of a data frame only the HeaderWord is taken (R233). -/
def decodeBytes (p : Bytes) : Except Reject (Instr × Bytes) :=
  if p.length < 4 then .error .tooFewBytes
  else if hdrControl (be32At p 0) = 0#1 then .ok (decodeHeader (be32At p 0) 0, p.drop 4)
  else if p.length < 8 then .error .tooFewBytes
  else .ok (decodeHeader (be32At p 0) (be32At p 4), p.drop 8)

/-- The HeaderWord of a control frame (R91). -/
def controlWord (version : BitVec 15) (type : BitVec 16) : Word :=
  hdrPack 1 (version.setWidth 32) (type.setWidth 32)

/-- A FlagLengthWord (R93). -/
def flagLengthWord (flags : BitVec 8) (length : BitVec 24) : Word :=
  flPack (flags.setWidth 32) (length.setWidth 32)

/-- The header of a control frame of the type code given (R113). -/
def controlHeader (t : BitVec 16) (v : BitVec 15) (f : BitVec 8) (l : BitVec 24) : InstrWord :=
  .header (controlWord v t) (flagLengthWord f l)

/-- The encoder: the words of an operation, written from the same tables (R42, R113, R138, R240). -/
def encode : Instr → InstrWord
  | .read => .command regRxCmd 1
  | .write => .command regTxCmd 1
  | .nvDec => .command regNvCmd 1
  | .nvEnc => .command regNvCmd 2
  | .decSynStream v f l => controlHeader 1 v f l
  | .decSynReply v f l => controlHeader 2 v f l
  | .decRstStream v f l => controlHeader 3 v f l
  | .decSettings v f l => controlHeader 4 v f l
  | .decPing v f l => controlHeader 6 v f l
  | .decGoaway v f l => controlHeader 7 v f l
  | .decHeaders v f l => controlHeader 8 v f l
  | .decWindowUpdate v f l => controlHeader 9 v f l
  | .decCredential v f l => controlHeader 10 v f l
  | .unknownType v t f l => controlHeader t v f l
  | .dataFrame sid => .dataHeader (sid.setWidth 32)
  | .encSynStream => .txType 1
  | .encSynReply => .txType 2
  | .encRstStream => .txType 3
  | .encSettings => .txType 4
  | .encPing => .txType 6
  | .encGoaway => .txType 7
  | .encHeaders => .txType 8
  | .encWindowUpdate => .txType 9
  | .hdrPack c v t => .port .hdrPack c v t
  | .hdrUnpack w => .port .hdrUnpack w 0 0
  | .flPack f l => .port .flPack f l 0
  | .flUnpack w => .port .flUnpack w 0 0
  | .sidPack i => .port .sidPack i 0 0
  | .sidUnpack w => .port .sidUnpack w 0 0
  | .priPack p => .port .priPack p 0 0
  | .priUnpack w => .port .priUnpack w 0 0

/-- The bytes of a frame header on the wire (R90, R233); other words are no bytes of a stream. -/
def headerBytes : InstrWord → Bytes
  | .dataHeader w0 => be32 w0
  | .header w0 w1 => be32 w0 ++ be32 w1
  | .command _ _ | .txType _ | .port _ _ _ _ => []

/-- The words that the bits of a row of spec/opcode_table.json stand for.  The table's rows fall into
four spaces told apart by their width (notes/assumptions/13.md): up to 8 bits a value written to a
command register, up to 16 the code in TX_TYPE, up to 32 the word of a function port, above that a
header W0‖W1 numbered as R113 numbers it, W0 in bits 63:32.  Rows of one space with the same bits
cannot be told apart: READ, WRITE and NV.DEC all have the value 1, which is given to READ. -/
def tableWord (nbits w : Nat) : Option InstrWord :=
  if nbits ≤ 8 then
    if w % 2 = 1 then some (.command regRxCmd (BitVec.ofNat 66 w))
    else if w % 4 = 2 then some (.command regNvCmd (BitVec.ofNat 66 w))
    else none
  else if nbits ≤ 16 then some (.txType (BitVec.ofNat 16 w))
  else if nbits ≤ 32 then
    if w % 536870912 = 0 ∧ w ≠ 0 then some (.port .priPack (BitVec.ofNat 32 (w / 536870912)) 0 0)
    else if w < 2147483648 then some (.port .sidPack (BitVec.ofNat 32 w) 0 0)
    else some (.port .hdrUnpack (BitVec.ofNat 32 w) 0 0)
  else some (.header (BitVec.ofNat 32 (w / 4294967296)) (BitVec.ofNat 32 w))

/-- What the decoder reads from an instruction whose bits, numbered as spec/opcode_table.json numbers
them, are `w`. -/
def decodeTableWord (nbits w : Nat) : Option Instr :=
  match tableWord nbits w with
  | none => none
  | some x =>
    match decode x with
    | .ok i => some i
    | .error _ => none

end Sys2Proof
end

