-- ==== Sys2Proof/Machine/Fetch.lean ====
section
/-! DEFINITION. Where the block finds the words of its next operation (spec/00_scope.md rule R5,
spec/30_encoding.md rule R113, spec/44_framer.md rules R235, R240), and how a row of the opcode table is
put there. -/

namespace Sys2Proof.Machine

/-- The header that FRX is to act on, if it has one: of a data frame the HeaderWord (R233), else both
words (R113). -/
def fetchHeader (x : Frx) : Option InstrWord :=
  if x.status.busy = true ∧ x.hwv = true then
    if hdrControl x.hw = 0#1 then some (.dataHeader x.hw)
    else if x.flv = true then some (.header x.hw x.fl)
    else none
  else none

/-- The type code that FTX is to act on, if it has a WRITE whose payload is not built yet (R240). -/
def fetchTxType (x : Ftx) : Option InstrWord :=
  if x.status.busy = true ∧ x.emitting = false then some (.txType x.type) else none

/-- The words that an event makes the block look at. -/
def fetch (e : Event) (s : State) : Option InstrWord :=
  match e with
  | .host (.regWrite reg d) => some (.command reg d)
  | .host (.wordOp fn a b c) => some (.port fn a b c)
  | .host (.regRead _) | .host (.rxbufRead _ _) | .host (.rxsetRead _) => none
  | .host (.txtailWrite _ _) | .host (.txtailRead _ _) | .host (.txsetWrite _ _ _ _) => none
  | .host (.txsetRead _) | .host (.nvtLoad _) | .host (.nvtLength _ _) => none
  | .host (.nvtRead _ _ _ _) => none
  | .turn .frx => fetchHeader s.frx
  | .turn .ftx => fetchTxType s.ftx
  | .turn .nvu => none
  | .deliver _ _ _ | .connect _ _ | .sink _ _ | .resetLine _ | .pace _ => none

/-- The operation that an event makes the block run, if any. -/
def fetchDecoded (e : Event) (s : State) : Option Instr :=
  match fetch e s with
  | none => none
  | some w =>
    match decode w with
    | .ok i => some i
    | .error _ => none

/-- FRX with a READ in progress that has just read the header given, of a data frame the HeaderWord alone
(R232 to R234). -/
def withHeader (w0 w1 : Word) (x : Frx) : Frx :=
  { frxAccept x with
    hw := w0, hwv := true
    fl := if hdrControl w0 = 1#1 then w1 else (frxAccept x).fl
    flv := hdrControl w0 == 1#1
    fsm := if hdrControl w0 = 1#1 then .awaitingPayload else .awaitingHeader }

/-- Put words where the next step looks for them (notes/assumptions/14.md): a host access at the head of
the events; or a unit in the middle of its command, with its turn at the head of the events.  The
operand bytes of a control frame are zeros at the head of FSRC. -/
def placeWord (w : InstrWord) (s : State) : State :=
  match w with
  | .command reg d => { s with events := .host (.regWrite reg d) :: s.events }
  | .port fn a b c => { s with events := .host (.wordOp fn a b c) :: s.events }
  | .txType t =>
    { s with
      ftx := { ftxAccept s.ftx with type := t }
      events := .turn .ftx :: s.events }
  | .dataHeader w0 =>
    { s with frx := withHeader w0 0 s.frx, events := .turn .frx :: s.events }
  | .header w0 w1 =>
    if hdrControl w0 = 0#1 then
      { s with frx := withHeader w0 0 s.frx, events := .turn .frx :: s.events }
    else
      { s with
        frx := withHeader w0 w1 s.frx
        fsrc := { s.fsrc with bytes := List.replicate (flLength w1).toNat 0 ++ s.fsrc.bytes }
        events := .turn .frx :: s.events }

/-- Put the bits of a row of the opcode table where the next step looks for them. -/
def placeTableWord (nbits w : Nat) (s : State) : State :=
  match tableWord nbits w with
  | some x => placeWord x s
  | none => s

end Sys2Proof.Machine
end

