-- ==== Sys2Proof/Machine/Step.lean ====
section
/-! DEFINITION. One step of the machine: the next event, and the operation it makes the block run. -/

namespace Sys2Proof.Machine

/-- What one event does. -/
def stepEvent (e : Event) (s : State) : Host.Outcome State Fault Refusal :=
  match fetchDecoded e s with
  | some i => exec i s
  | none => happen e s

/-- One step.  With no event to come nothing happens: the block does nothing until the host issues a
command (R290), and a run is over when the host stops (R304). -/
def step (s : State) : Host.Outcome State Fault Refusal :=
  match s.events with
  | [] => .next s
  | e :: es => stepEvent e { s with events := es }

/-- The state with a row of the opcode table where the next step fetches it. -/
def State.withFetchWord (s : State) (nbits w : Nat) : State := placeTableWord nbits w s

end Sys2Proof.Machine
end

