-- ==== Sys2Proof/Machine/Abstract.lean ====
section
/-! DEFINITION. The operations as functions, without registers: READ (spec/44_framer.md rule R238), WRITE
(R246), NV.DEC and NV.ENC (spec/41_nvblock.md rules R151, R152), and the payload of a frame value
(spec/43_frame_encode.md rule R210).  The registers are a projection of these (spec/10_state.md rule
R30); the certificates say so. -/

namespace Sys2Proof.Machine

/-- What follows a finite input (R61, R238). -/
inductive Terminator where
  | ended
  | failed (e : IoCode)
  deriving DecidableEq, Repr

/-- The tail of a source whose input is finite. -/
def tailOf : Terminator → SrcTail
  | .ended => .ended
  | .failed e => .failed e

/-- The error when an input ends inside a field (R238). -/
def shortInput (point : TruncPoint) : Terminator → OpError
  | .ended => .truncation point
  | .failed e => .ioError e

/-- ReadResult (R30): a frame, or the error with its kind, sub-cause and code. -/
abbrev ReadResult := Except OpError Frame

/-- The dispatch on a payload that has been read whole (R235, R236), for the header words given. -/
def readPayload (w0 w1 : Word) (p : Bytes) : ReadResult :=
  match dispatch (hdrType w0) with
  | none => .error (.unsupportedFrameType .unknownType)
  | some dec =>
    match dec p with
    | .unimplemented => .error (.unsupportedFrameType .knownUnimplemented)
    | .tooShort => .error (.protocolViolation .payloadTooShort)
    | .decoded body consumed =>
      if consumed < p.length then .error (.protocolViolation .payloadTooLong)
      else .ok { version := hdrVersion w0, flags := flFlags w1, body := body }

/-- `Read(s, term)` (R238): the result, and the input left over where the spec gives it. -/
def readFrame (p : Config.Params) (s : Bytes) (t : Terminator) : ReadResult × Option Bytes :=
  if s = [] ∧ t = .ended then (.error .endOfStream, some s)
  else if s.length < 4 then (.error (shortInput .inHeaderWord t), none)
  else if hdrControl (be32At s 0) = 0#1 then (.error .unsupportedDataFrame, some (s.drop 4))
  else if s.length < 8 then (.error (shortInput .inFlagLengthWord t), none)
  else if p.payloadMax < (flLength (be32At s 4)).toNat then
    (.error (.protocolViolation .limitExceeded), some (s.drop 8))
  else if s.length < 8 + (flLength (be32At s 4)).toNat then (.error (shortInput .inPayload t), none)
  else
    (readPayload (be32At s 0) (be32At s 4) ((s.drop 8).take (flLength (be32At s 4)).toNat),
      some (s.drop (8 + (flLength (be32At s 4)).toNat)))

/-- The type of a body: its constructor (R30). -/
def bodyKind : Body → FrameKind
  | .synStream _ _ _ _ => .synStream
  | .synReply _ _ => .synReply
  | .rstStream _ _ => .rstStream
  | .settings _ => .settings
  | .ping _ => .ping
  | .goAway _ _ => .goAway
  | .headers _ _ => .headers
  | .windowUpdate _ _ => .windowUpdate

/-- The payload of a body (R98 to R105, R210). -/
def bodyPayload : Body → Bytes
  | .synStream sid assoc pri h =>
    be32 (sidPack (sid.setWidth 32)) ++ be32 (sidPack (assoc.setWidth 32)) ++
      be32 (priPack (pri.setWidth 32)) ++ h
  | .synReply sid h => be32 (sidPack (sid.setWidth 32)) ++ h
  | .rstStream sid code => be32 (sidPack (sid.setWidth 32)) ++ be32 code
  | .settings es => be32 (BitVec.ofNat 32 es.length) ++ entriesBytes es
  | .ping id => be32 id
  | .goAway sid code => be32 (sidPack (sid.setWidth 32)) ++ be32 code
  | .headers sid h => be32 (sidPack (sid.setWidth 32)) ++ h
  | .windowUpdate sid delta =>
    be32 (sidPack (sid.setWidth 32)) ++ be32 (sidPack (delta.setWidth 32))

/-- The bytes of a frame on the wire (R90, R246). -/
def frameBytes (f : Frame) : Bytes :=
  be32 (hdrPack 1 (f.version.setWidth 32) ((frameCode (bodyKind f.body)).setWidth 32)) ++
    be32 (flPack (f.flags.setWidth 32) (BitVec.ofNat 32 (bodyPayload f.body).length)) ++
    bodyPayload f.body

/-- The body that the descriptor describes for a frame type, every field masked to its width (R32, R33,
R200). -/
def txBody (x : Ftx) : FrameKind → Body
  | .synStream =>
    .synStream (sidUnpack x.f0) (sidUnpack x.f1) (x.f2.setWidth 3) (txBlob x)
  | .synReply => .synReply (sidUnpack x.f0) (txBlob x)
  | .rstStream => .rstStream (sidUnpack x.f0) x.f1
  | .settings => .settings (txEntries x 0 x.f0.toNat)
  | .ping => .ping x.f0
  | .goAway => .goAway (sidUnpack x.f0) x.f1
  | .headers => .headers (sidUnpack x.f0) (txBlob x)
  | .windowUpdate => .windowUpdate (sidUnpack x.f0) (sidUnpack x.f1)

/-- The frame that the descriptor describes for a frame type. -/
def txFrame (x : Ftx) (k : FrameKind) : Frame :=
  { version := x.version, flags := x.flags, body := txBody x k }

/-- `Write` (R246) up to the sink: the error, or the bytes to emit. -/
def writeFrame (p : Config.Params) (x : Ftx) : Except OpError Bytes :=
  match kindOfCode x.type with
  | none => .error (.unsupportedFrameType (txTypeProblem x.type))
  | some k =>
    if 16777215 < (encoderOf k).len x then .error .lengthOverflow
    else if p.payloadMax < (encoderOf k).len x then .error (.protocolViolation .limitExceeded)
    else .ok (frameBytes (txFrame x k))

/-- The next n bytes of an input, or the error when it ends inside them (R61, R151). -/
def takeField (point : TruncPoint) (n : Nat) (s : Bytes) (t : Terminator) :
    Except OpError (Bytes × Bytes) :=
  if n ≤ s.length then .ok (s.take n, s.drop n) else .error (shortInput point t)

/-- A name or value with its length word before it (R107, R151). -/
def takeString (p : Config.Params) (lenPoint point : TruncPoint) (s : Bytes) (t : Terminator) :
    Except OpError (Bytes × Bytes) :=
  match takeField lenPoint 4 s t with
  | .error e => .error e
  | .ok (w, s1) =>
    if p.nvStrCap < (be32At w 0).toNat then .error (.protocolViolation .limitExceeded)
    else takeField point (be32At w 0).toNat s1 t

/-- The checks of a pair that has been read (R151, R153, R271). -/
def pairProblem (p : Config.Params) (strict : Bool) (nvt : NvTable) (name : Bytes) : Option OpError :=
  if strict = true ∧ name = [] then some (.protocolViolation .zeroLengthName)
  else if strict = true ∧ nvHas nvt name = true then some (.protocolViolation .duplicateName)
  else if nvHas nvt name = false ∧ p.nvPairCap ≤ nvt.length then
    some (.protocolViolation .limitExceeded)
  else none

/-- The pairs of a block (R151): the table, the bytes consumed, and the input left over. -/
def takePairs (p : Config.Params) (strict : Bool) (t : Terminator) :
    Nat → NvTable → Nat → Bytes → Except OpError (NvTable × Nat × Bytes)
  | 0, nvt, total, s => .ok (nvt, total, s)
  | n + 1, nvt, total, s =>
    match takeString p .inNvNameLen .inNvName s t with
    | .error e => .error e
    | .ok (name, s1) =>
      match takeString p .inNvValueLen .inNvValue s1 t with
      | .error e => .error e
      | .ok (value, s2) =>
        match pairProblem p strict nvt name with
        | some e => .error e
        | none =>
          takePairs p strict t n (nvInsert nvt name value)
            (total + 8 + name.length + value.length) s2

/-- `decode(reader) -> (NameValuePairs, bytesConsumed)` (R151). -/
def nvDecode (p : Config.Params) (strict : Bool) (s : Bytes) (t : Terminator) :
    Except OpError (NvTable × Nat × Bytes) :=
  match takeField .inNvCount 4 s t with
  | .error e => .error e
  | .ok (w, s1) => takePairs p strict t (be32At w 0).toNat [] 4 s1

/-- `encode(pairs, writer)` (R152): the bytes of a table. -/
def nvEncode (t : NvTable) : Bytes :=
  be32 (BitVec.ofNat 32 t.length) ++ (pairPieces t).flatten

end Sys2Proof.Machine
end

