-- ==== Sys2Proof/Safety.lean ====
section
/-! DEFINITION. What counts as a safe run, the invariant of the machine (the relations between fields of
the state that the spec promises), and the words the certificates use: which fields an operation of a
unit may change, what a descriptor holds, which bits of a payload are reserved. -/

namespace Sys2Proof.Machine

/-- A state from which the next step goes on: no access the spec gives no meaning. -/
def goesOn (s : State) : Prop := ∃ t, step s = .next t

/-- A safe run of n steps: no fault and no refusal. -/
def safeRun (n : Nat) (s : State) : Prop := ∃ t, Sys2Proof.core.run n s = .next t

/-! ### The invariant -/

/-- The fields that R26, R35 and R37 give every STATUS register agree with each other: never both BUSY
and DONE; OK exactly when DONE with KIND 0; no outcome before DONE; IOCODE for IoError only; SUB exactly
for the kinds that have sub-causes (R262); no KIND above 7 (R261). -/
abbrev statusInv (x : Status) : Prop :=
  (x.busy = true → x.done = false) ∧
  (x.ok = true ↔ x.done = true ∧ x.kind = 0) ∧
  (x.done = false → x.kind = 0) ∧
  x.kind.toNat ≤ 7 ∧
  (x.kind ≠ 7 → x.iocode = 0) ∧
  (x.sub ≠ 0 ↔ x.kind = 2 ∨ x.kind = 3 ∨ x.kind = 6)

/-- The outcomes READ can have (R238, R267): never LengthOverflow; of the truncations those in a frame;
of the protocol violations those of a payload or its length. -/
abbrev readOutcome (x : Status) : Prop :=
  x.kind ≠ 5 ∧ (x.kind = 2 → x.sub.toNat ≤ 3) ∧ (x.kind = 3 → x.sub.toNat ≤ 2) ∧
    (x.kind = 6 → x.sub = 1 ∨ x.sub = 2 ∨ x.sub = 5)

/-- The outcomes WRITE can have (R246): never EndOfStream, Truncation or UnsupportedDataFrame. -/
abbrev writeOutcome (x : Status) : Prop :=
  x.kind ≠ 1 ∧ x.kind ≠ 2 ∧ x.kind ≠ 4 ∧ (x.kind = 3 → x.sub.toNat ≤ 2) ∧ (x.kind = 6 → x.sub = 5)

/-- The outcomes the name/value unit can have (R157); of NV.ENC, whose DIR is 1, IoError only. -/
abbrev nvOutcome (x : Status) (dir : Bool) : Prop :=
  x.kind ≠ 1 ∧ x.kind ≠ 3 ∧ x.kind ≠ 4 ∧ x.kind ≠ 5 ∧
    (x.kind = 2 → 4 ≤ x.sub.toNat ∧ x.sub.toNat ≤ 8) ∧
    (x.kind = 6 → 3 ≤ x.sub.toNat ∧ x.sub.toNat ≤ 5) ∧
    (dir = true → x.kind = 0 ∨ x.kind = 7)

/-- The first n bytes of a buffer hold values, and nothing from there on does. -/
abbrev holdsExactly (m : Memory) (n : Nat) : Prop :=
  storeWf m ∧ (∀ a, a < n → (storeGet m a).isSome = true) ∧ ∀ x ∈ m, x.1 < n

/-- The read path: its status; EOS (R26); fsm is AwaitingPayload exactly between a control HeaderWord
and the end of the READ (R22, R230); FLV needs a control HeaderWord (R233); RXBUF holds RX_CNT bytes,
none while BUSY (R25, R67, R270); a length that has been let through is within the capacity (R234); a
Frame leaves RX_CNT at the length of an implemented type's frame (R25, R237). -/
abbrev frxInv (p : Config.Params) (x : Frx) : Prop :=
  statusInv x.status ∧ readOutcome x.status ∧
  (x.eos = true ↔ x.status.done = true ∧ x.status.kind = 1) ∧
  (x.fsm = .awaitingPayload ↔ x.status.busy = true ∧ x.hwv = true ∧ hdrControl x.hw = 1#1) ∧
  (x.flv = true → x.hwv = true ∧ hdrControl x.hw = 1#1) ∧
  holdsExactly x.buf x.cnt.toNat ∧
  (x.status.busy = true → x.cnt = 0) ∧
  (x.status.busy = true → x.flv = true → (flLength x.fl).toNat ≤ p.payloadMax) ∧
  (x.status.ok = true →
    x.hwv = true ∧ x.flv = true ∧ x.cnt = flLength x.fl ∧ (kindOfCode (hdrType x.hw)).isSome = true)

/-- The write path: its status; TXBUF holds the payload while a built frame waits for the sink and
nothing otherwise (R36); the words built carry control 1, the type and the length (R243); TX_WRITTEN is
8 + TX_LEN after success (R34, R245); the host's buffers stay within their capacities (R69). -/
abbrev ftxInv (p : Config.Params) (x : Ftx) : Prop :=
  statusInv x.status ∧ writeOutcome x.status ∧
  (x.emitting = true → x.status.busy = true ∧ x.len.toNat ≤ p.payloadMax) ∧
  holdsExactly x.buf (if x.emitting = true then x.len.toNat else 0) ∧
  (x.emitting = true ∨ x.status.ok = true →
    hdrControl x.hw = 1#1 ∧ (kindOfCode (hdrType x.hw)).isSome = true ∧
      (flLength x.fl).toNat = x.len.toNat) ∧
  (x.status.ok = true → x.written.toNat = 8 + x.len.toNat) ∧
  storeWf x.tail ∧ (∀ c ∈ x.tail, c.1 < txtailCap p) ∧
  storeWf x.set ∧ (∀ c ∈ x.set, c.1 < txsetCap p)

/-- What the step that an NV.DEC or NV.ENC is at holds (R151, R152): strings within the capacity, and
DIR as the operation says (R37). -/
abbrev phaseInv (p : Config.Params) (dir : Bool) (ph : NvPhase) : Prop :=
  match ph with
  | .idle => True
  | .decCount | .decNameLen _ => dir = false
  | .decName _ n => dir = false ∧ n ≤ p.nvStrCap
  | .decValueLen _ name => dir = false ∧ name.length ≤ p.nvStrCap
  | .decValue _ name n => dir = false ∧ name.length ≤ p.nvStrCap ∧ n ≤ p.nvStrCap
  | .enc bs => dir = true ∧ bs ≠ []

/-- The name/value unit: its status; NVT is a table that fits (R150, R155); NV_COUNT is the number of its
pairs but while an NV.DEC builds it (R37); the unit is BUSY exactly while it is at some step. -/
abbrev nvuInv (p : Config.Params) (x : Nvu) : Prop :=
  statusInv x.status ∧ nvOutcome x.status x.dir ∧ nvFits p x.nvt ∧
  (x.status.busy = true ↔ x.phase ≠ .idle) ∧ phaseInv p x.dir x.phase ∧
  (x.status.busy = false ∨ x.dir = true → x.count.toNat = x.nvt.length)

/-- The build parameters are in their ranges (R7), and no unit is busy while reset is asserted (R290). -/
abbrev blockInv (s : State) : Prop :=
  s.params.legal ∧
  (s.resetLine = true →
    s.frx.status.busy = false ∧ s.ftx.status.busy = false ∧ s.nvu.status.busy = false)

/-- The invariant of the machine: that of the block and those of its units. -/
abbrev machineInv (s : State) : Prop :=
  blockInv s ∧ frxInv s.params s.frx ∧ ftxInv s.params s.ftx ∧ nvuInv s.params s.nvu

/-! ### Words of the certificates -/

/-- READ is accepted: the block is out of reset and FRX is idle (R231, R290). -/
abbrev readAccepted (s : State) : Prop := s.resetLine = false ∧ s.frx.status.busy = false

/-- WRITE is accepted (R239, R290). -/
abbrev writeAccepted (s : State) : Prop := s.resetLine = false ∧ s.ftx.status.busy = false

/-- A name/value command is accepted (R151, R152, R290). -/
abbrev nvAccepted (s : State) : Prop := s.resetLine = false ∧ s.nvu.status.busy = false

/-- A source with a finite input: its bytes, then what follows them, at a known position (R61). -/
abbrev finiteInput (src : Source) (t : Terminator) : Prop := src.tail = tailOf t ∧ src.lost = false

/-- Nothing but FRX and FSRC differs. -/
abbrev onlyReadPath (s t : State) : Prop := t = { s with frx := t.frx, fsrc := t.fsrc }

/-- Nothing but FTX and FSNK differs. -/
abbrev onlyWritePath (s t : State) : Prop := t = { s with ftx := t.ftx, fsnk := t.fsnk }

/-- The descriptor of FTX, its buffers included, is the same (R239). -/
abbrev sameDescriptor (x y : Ftx) : Prop :=
  y.type = x.type ∧ y.version = x.version ∧ y.flags = x.flags ∧ y.f0 = x.f0 ∧ y.f1 = x.f1 ∧
    y.f2 = x.f2 ∧ y.tailLen = x.tailLen ∧ y.tail = x.tail ∧ y.set = x.set

/-- FRX after a READ has ended with an error, the bytes `b` of its payload in RXBUF (R272). -/
def frxFailedWith (e : OpError) (b : Bytes) (x : Frx) : Frx :=
  { x with
    buf := memWrite x.buf 0 b, cnt := BitVec.ofNat 24 b.length, status := statusRaised e,
    eos := false, fsm := .awaitingHeader }

/-- FRX after a READ has ended with a Frame whose payload is `b`, the tail of it at `off` (R237). -/
def frxHolds (b : Bytes) (off : Nat) (x : Frx) : Frx :=
  { x with
    buf := memWrite x.buf 0 b, cnt := BitVec.ofNat 24 b.length, status := statusSucceeded,
    eos := false, fsm := .awaitingHeader
    tailOff := BitVec.ofNat 24 off, tailLen := BitVec.ofNat 24 (b.length - off) }

/-- FTX with a frame built and waiting for the sink: the length, the payload and the two words (R241 to
R243). -/
def ftxHolds (q : Bytes) (fl hw : Word) (x : Ftx) : Ftx :=
  { x with
    len := BitVec.ofNat 36 q.length, buf := memWrite [] 0 q, fl := fl, hw := hw, emitting := true
    free := x.free + 1 }

/-- The HeaderWord that R246 gives for a version and a type code. -/
def writtenHeader (v : BitVec 15) (t : BitVec 16) : Word := 1#1 ++ v ++ t

/-- The bits of payload byte `i` that a frame type does not reserve (R98 to R105, R110). -/
def keptBits (k : FrameKind) (i : Nat) : Byte :=
  match k with
  | .synStream =>
    if i = 0 ∨ i = 4 then 0x7F else if i = 8 then 0xE0 else if 9 ≤ i ∧ i ≤ 11 then 0 else 0xFF
  | .synReply | .rstStream | .goAway | .headers => if i = 0 then 0x7F else 0xFF
  | .windowUpdate => if i = 0 ∨ i = 4 then 0x7F else 0xFF
  | .settings | .ping => 0xFF

/-- How many bytes a type's decoder consumes of a payload it accepts (R181): all of it where the type has
a blob, else a size that is fixed or, for Settings, in the first word. -/
def consumedBytes (k : FrameKind) (p : Bytes) : Nat :=
  match k with
  | .synStream => max 12 p.length
  | .synReply | .headers => max 4 p.length
  | .rstStream | .goAway | .windowUpdate => 8
  | .ping => 4
  | .settings => if p.length < 4 then 4 else 4 + 8 * (be32At p 0).toNat

/-- The operation that decodes frames of a type. -/
def decOperation (k : FrameKind) (v : BitVec 15) (f : BitVec 8) (l : BitVec 24) : Instr :=
  match k with
  | .synStream => .decSynStream v f l
  | .synReply => .decSynReply v f l
  | .rstStream => .decRstStream v f l
  | .settings => .decSettings v f l
  | .ping => .decPing v f l
  | .goAway => .decGoaway v f l
  | .headers => .decHeaders v f l
  | .windowUpdate => .decWindowUpdate v f l

/-- The operation that encodes frames of a type. -/
def encOperation : FrameKind → Instr
  | .synStream => .encSynStream
  | .synReply => .encSynReply
  | .rstStream => .encRstStream
  | .settings => .encSettings
  | .ping => .encPing
  | .goAway => .encGoaway
  | .headers => .encHeaders
  | .windowUpdate => .encWindowUpdate

/-- An operation on a payload: those the type code of a control header selects (R113). -/
def onPayload : Instr → Option (BitVec 24)
  | .decSynStream _ _ l | .decSynReply _ _ l | .decRstStream _ _ l | .decSettings _ _ l => some l
  | .decPing _ _ l | .decGoaway _ _ l | .decHeaders _ _ l | .decWindowUpdate _ _ l => some l
  | .decCredential _ _ l | .unknownType _ _ _ l => some l
  | .read | .write | .dataFrame _ | .nvDec | .nvEnc => none
  | .encSynStream | .encSynReply | .encRstStream | .encSettings => none
  | .encPing | .encGoaway | .encHeaders | .encWindowUpdate => none
  | .hdrPack _ _ _ | .hdrUnpack _ | .flPack _ _ | .flUnpack _ => none
  | .sidPack _ | .sidUnpack _ | .priPack _ | .priUnpack _ => none

/-- How many bytes of NSRC the step that an NV.DEC is at asks for (R65, R151). -/
def nvNeeds : NvPhase → Option Nat
  | .idle | .enc _ => none
  | .decCount | .decNameLen _ | .decValueLen _ _ => some 4
  | .decName _ n => some n
  | .decValue _ _ n => some n

/-- A row of the opcode table for type code `t` matches the header W0‖W1 (R113). -/
abbrev rowMatches (t : BitVec 16) (w0 w1 : Word) : Prop :=
  (w0 ++ w1 : BitVec 64) &&& 0x8000FFFF00000000#64 =
    0x8000000000000000#64 ||| (t.setWidth 64 <<< 32)

/-- The value associated with a name in a table. -/
def nvLookup : NvTable → Bytes → Option Bytes
  | [], _ => none
  | (k, v) :: t, n => if k = n then some v else nvLookup t n

/-- Run a function n times. -/
def times {σ : Type} (f : σ → σ) : Nat → σ → σ
  | 0, x => x
  | n + 1, x => times f n (f x)

/-- The second of two operations after the first, as far as the first goes on. -/
def thenExec (i : Instr) (o : HostOutcome) : HostOutcome :=
  match o with
  | .next s => exec i s
  | .fault f => .fault f
  | .refused r => .refused r

end Sys2Proof.Machine
end

