-- ==== Sys2Proof/Certificates/Slice0/Obligations.lean ====
section
/-! DEFINITION. The statements about the block, from the numbered rules of spec/ (OBLIGATIONS.json lists
them).  A statement that holds for free values names no value of them. -/

open Sys2Proof Sys2Proof.Machine

/-! ### The word unit -/

/-- R130, R132, R134, R136, R138: each PACK port hands the host the word whose fields are the low bits of
its operands, reserved bits 0, and changes nothing else. -/
def Obligations.PackPortsPlaceTheirFields : Prop :=
  ∀ (s : State) (c v t f l n p : Word),
    exec (.hdrPack c v t) s =
      .next { s with resp := s.resp ++ [.word (c.setWidth 1 ++ v.setWidth 15 ++ t.setWidth 16)] } ∧
    exec (.flPack f l) s =
      .next { s with resp := s.resp ++ [.word (f.setWidth 8 ++ l.setWidth 24)] } ∧
    exec (.sidPack n) s = .next { s with resp := s.resp ++ [.word (0#1 ++ n.setWidth 31)] } ∧
    exec (.priPack p) s = .next { s with resp := s.resp ++ [.word (p.setWidth 3 ++ 0#29)] }

/-- R131, R133, R135, R137: each UNPACK port hands the host the fields of the word, as the numbers R8
gives for its bits, and changes nothing else. -/
def Obligations.UnpackPortsReadTheirFields : Prop :=
  ∀ (s : State) (w : Word),
    (∃ c v t, exec (.hdrUnpack w) s = .next { s with resp := s.resp ++ [.header c v t] } ∧
      c.toNat = w.toNat / 2 ^ 31 ∧ v.toNat = w.toNat / 2 ^ 16 % 2 ^ 15 ∧ t.toNat = w.toNat % 2 ^ 16) ∧
    (∃ f l, exec (.flUnpack w) s = .next { s with resp := s.resp ++ [.flagLength f l] } ∧
      f.toNat = w.toNat / 2 ^ 24 ∧ l.toNat = w.toNat % 2 ^ 24) ∧
    (∃ n, exec (.sidUnpack w) s = .next { s with resp := s.resp ++ [.streamId n] } ∧
      n.toNat = w.toNat % 2 ^ 31) ∧
    (∃ p, exec (.priUnpack w) s = .next { s with resp := s.resp ++ [.priority p] } ∧
      p.toNat = w.toNat / 2 ^ 29)

/-- R139: unpacking what was packed gives the fields back; packing what was unpacked gives the word back,
with its reserved bits cleared. -/
def Obligations.WordsRoundTrip : Prop :=
  (∀ (c : BitVec 1) (v : BitVec 15) (t : BitVec 16),
    hdrUnpack (hdrPack (c.setWidth 32) (v.setWidth 32) (t.setWidth 32)) = (c, v, t)) ∧
  (∀ (f : BitVec 8) (l : BitVec 24), flUnpack (flPack (f.setWidth 32) (l.setWidth 32)) = (f, l)) ∧
  (∀ n : BitVec 31, sidUnpack (sidPack (n.setWidth 32)) = n) ∧
  (∀ p : BitVec 3, priUnpack (priPack (p.setWidth 32)) = p) ∧
  (∀ w : Word,
    hdrPack ((hdrUnpack w).1.setWidth 32) ((hdrUnpack w).2.1.setWidth 32)
      ((hdrUnpack w).2.2.setWidth 32) = w ∧
    flPack ((flUnpack w).1.setWidth 32) ((flUnpack w).2.setWidth 32) = w ∧
    sidPack ((sidUnpack w).setWidth 32) = w &&& 0x7FFFFFFF#32 ∧
    priPack ((priUnpack w).setWidth 32) = w &&& 0xE0000000#32)

/-! ### Encoding -/

/-- Decode and encode agree: every well-formed operation is read back from its words, with every operand
at every value its encoding admits. -/
def Obligations.DecodeAfterEncode : Prop :=
  ∀ i : Instr, wellFormed i = true → decode (encode i) = .ok i

/-- A header that selects an operation is the encoding of that operation: no bit of a control header, or
of a data frame's HeaderWord, is lost by decoding. -/
def Obligations.EncodeAfterDecodeHeader : Prop :=
  ∀ (w0 w1 : Word) (i : Instr),
    (hdrControl w0 = 1#1 → decode (.header w0 w1) = .ok i → encode i = .header w0 w1) ∧
    (decode (.dataHeader w0) = .ok i → encode i = .dataHeader w0)

/-- R113: the operation a header selects, in the match-and-mask form of the opcode table; the version and
the FlagLengthWord only become operands. -/
def Obligations.HeaderSelectsOperation : Prop :=
  ∀ w0 w1 : Word,
    ((w0 ++ w1 : BitVec 64) &&& 0x8000000000000000#64 = 0 →
      decode (.header w0 w1) = .ok (.dataFrame (w0.setWidth 31))) ∧
    (∀ k, rowMatches (frameCode k) w0 w1 →
      decode (.header w0 w1) =
        .ok (decOperation k ((w0 >>> 16).setWidth 15) ((w1 >>> 24).setWidth 8) (w1.setWidth 24))) ∧
    (rowMatches 10 w0 w1 →
      decode (.header w0 w1) =
        .ok (.decCredential ((w0 >>> 16).setWidth 15) ((w1 >>> 24).setWidth 8) (w1.setWidth 24))) ∧
    (∀ t, unknownCode t = true → rowMatches t w0 w1 →
      decode (.header w0 w1) =
        .ok (.unknownType ((w0 >>> 16).setWidth 15) t ((w1 >>> 24).setWidth 8) (w1.setWidth 24)))

/-- The bytes of a header, at the head of any stream, decode to the operation and leave the rest of the
stream (R90, R112, R113). -/
def Obligations.HeaderBytesRoundTrip : Prop :=
  ∀ (i : Instr) (rest : Bytes), wellFormed i = true →
    (onPayload i).isSome = true ∨ (∃ n, i = .dataFrame n) →
    decodeBytes (headerBytes (encode i) ++ rest) = .ok (i, rest)

/-- Words written out from the spec's encodings decode to the operations they stand for (R35, R37, R42,
R97, R114). -/
def Obligations.WordsOfTheSpecDecode : Prop :=
  decode (.command 0x00 1) = .ok .read ∧
  decode (.command 0x10 1) = .ok .write ∧
  decode (.command 0x20 1) = .ok .nvDec ∧
  decode (.command 0x20 2) = .ok .nvEnc ∧
  decode (.header 0x80030001 0x01000010) = .ok (.decSynStream 3 1 16) ∧
  decode (.header 0x80030009 0x00000008) = .ok (.decWindowUpdate 3 0 8) ∧
  decode (.header 0x8003000A 0x00000000) = .ok (.decCredential 3 0 0) ∧
  decode (.header 0xFFFF0005 0xFFFFFFFF) = .ok (.unknownType 32767 5 255 16777215) ∧
  decode (.dataHeader 0x00000005) = .ok (.dataFrame 5) ∧
  decode (.txType 4) = .ok .encSettings ∧
  decode (.txType 10) = .error .knownUnimplemented ∧
  decode (.port .sidUnpack 0x499602D2 0 0) = .ok (.sidUnpack 0x499602D2)

/-! ### The step -/

/-- A step at whose event the block fetches words that decode to an operation is that operation's
meaning, and the operation is well formed.  The list of events is the model's own
(notes/assumptions/2.md). -/
def Obligations.StepRunsDecodedOperation : Prop :=
  ∀ (s : State) (e : Event) (es : List Event) (w : InstrWord) (i : Instr),
    s.events = e :: es → fetch e { s with events := es } = some w → decode w = .ok i →
      step s = exec i { s with events := es } ∧ wellFormed i = true

/-- Where the block fetches: the host's writes and port calls, the header a READ has read, TX_TYPE.  A step
whose event gives no operation is what the event does by itself, and that of a host access is the access.
The list of events and the turns of the units are the model's own (notes/assumptions/2.md and 1.md). -/
def Obligations.WhereOperationsAreFetched : Prop :=
  ∀ (s : State) (es : List Event),
    (∀ reg d, fetch (.host (.regWrite reg d)) s = some (.command reg d)) ∧
    (∀ fn a b c, fetch (.host (.wordOp fn a b c)) s = some (.port fn a b c)) ∧
    (s.frx.status.busy = true → s.frx.hwv = true → hdrControl s.frx.hw = 0#1 →
      fetch (.turn .frx) s = some (.dataHeader s.frx.hw)) ∧
    (s.frx.status.busy = true → s.frx.hwv = true → hdrControl s.frx.hw = 1#1 → s.frx.flv = true →
      fetch (.turn .frx) s = some (.header s.frx.hw s.frx.fl)) ∧
    (s.ftx.status.busy = true → s.ftx.emitting = false →
      fetch (.turn .ftx) s = some (.txType s.ftx.type)) ∧
    (∀ e, fetchDecoded e s = none →
      step { s with events := e :: es } = happen e { s with events := es }) ∧
    (∀ r, fetchDecoded (.host r) s = none →
      step { s with events := .host r :: es } = hostAccess r { s with events := es })

/-- The turn of FRX that has a complete header is the operation the header decodes to; the turn of FTX
that has no payload yet is the encoder that TX_TYPE decodes to, or the refusal of the type (R235, R240 for
the choice alone).  The model's choice: which part of a READ or a WRITE the operations DEC.*, DATA_FRAME,
UNKNOWN_TYPE and ENC.* are (notes/assumptions/26.md), and that a unit moves by turns, which are events
(notes/assumptions/1.md and 2.md). -/
def Obligations.TurnsAreDecodedOperations : Prop :=
  ∀ (s : State) (w : InstrWord),
    (fetch (.turn .frx) s = some w → ∃ i, decode w = .ok i ∧ exec i s = .next (unitTurn .frx s)) ∧
    (fetch (.turn .ftx) s = some w →
      match decode w with
      | .ok i => exec i s = .next (unitTurn .ftx s)
      | .error _ =>
        unitTurn .ftx s =
          { s with
            ftx := ftxRaise
              (.unsupportedFrameType (if s.ftx.type = 10 then .knownUnimplemented else .unknownType))
              s.ftx })

/-! ### READ -/

/-- R238: READ is the function `Read` of the remaining input: its result stands in RX_STATUS and the
frame registers, the input left over in FSRC; nothing outside the read path changes.  That it does so in
one step is the model's choice (notes/assumptions/1.md); in the stepwise pace it does the same by turns
(Obligations.StepwiseCommandsAgree). -/
def Obligations.ReadIsTheReadFunction : Prop :=
  ∀ (s : State) (t : Terminator), readAccepted s → s.pace = .atOnce → finiteInput s.fsrc t →
    ∃ u, exec .read s = .next u ∧ onlyReadPath s u ∧
      (match (readFrame s.params s.fsrc.bytes t).1 with
        | .ok f => u.frx.status = statusSucceeded ∧ rxFrame u.frx = some f
        | .error e => u.frx.status = statusRaised e ∧ rxFrame u.frx = none) ∧
      (∀ rest, (readFrame s.params s.fsrc.bytes t).2 = some rest → u.fsrc.bytes = rest)

/-- What a READ leaves readable, outcome by outcome (R270): RX_HW and RX_FL as far as their bytes came,
RX_CNT, the bytes of RXBUF, the frame-field registers for a Frame only; and fsm, OK and EOS (R26, R230,
R263).  That RXBUF holds no byte from RX_CNT on, and that the READ is one step, is the model's choice
(notes/assumptions/22.md and 1.md). -/
def Obligations.ReadLeavesReadable : Prop :=
  ∀ (s u : State) (t : Terminator), readAccepted s → s.pace = .atOnce → finiteInput s.fsrc t →
    exec .read s = .next u →
    let b := s.fsrc.bytes
    let n := b.length
    let l := (flLength (be32At b 4)).toNat
    let whole := 8 ≤ n ∧ hdrControl (be32At b 0) = 1#1
    (u.frx.hwv = true ↔ 4 ≤ n) ∧ (4 ≤ n → u.frx.hw = be32At b 0) ∧
    (u.frx.flv = true ↔ whole) ∧ (whole → u.frx.fl = be32At b 4) ∧
    (u.frx.cnt.toNat =
      if whole ∧ l ≤ s.params.payloadMax then
        if 8 + l ≤ n then l else if t = .ended then n - 8 else 0
      else 0) ∧
    memRead u.frx.buf 0 u.frx.cnt.toNat = some ((b.drop 8).take u.frx.cnt.toNat) ∧
    (∀ a, u.frx.cnt.toNat ≤ a → storeGet u.frx.buf a = none) ∧
    (∀ j, rxFieldValid u.frx j = true ↔
      ∃ f rest, readFrame s.params b t = (.ok f, rest) ∧ j < namedFields (bodyKind f.body)) ∧
    (u.frx.status.ok = true ↔ ∃ f rest, readFrame s.params b t = (.ok f, rest)) ∧
    u.frx.fsm = .awaitingHeader ∧ (u.frx.eos = true ↔ n = 0 ∧ t = .ended)

/-- Where FSRC stands after a READ (R273): at a frame boundary after a Frame, an unsupported type or a
payload of the wrong size, where it stood after EndOfStream; elsewhere the spec leaves it undefined, which
the model marks on the source, beside the bytes that are certainly gone (notes/assumptions/6.md).  That the
READ is one step is the model's choice too (notes/assumptions/1.md). -/
def Obligations.StreamPositionAfterRead : Prop :=
  ∀ (s u : State) (t : Terminator), readAccepted s → s.pace = .atOnce → finiteInput s.fsrc t →
    exec .read s = .next u →
    match (readFrame s.params s.fsrc.bytes t).1 with
    | .ok _ | .error (.unsupportedFrameType _) | .error (.protocolViolation .payloadTooShort)
    | .error (.protocolViolation .payloadTooLong) =>
      u.fsrc =
        { s.fsrc with
          bytes := s.fsrc.bytes.drop (8 + (flLength (be32At s.fsrc.bytes 4)).toNat) }
    | .error .endOfStream => u.fsrc = s.fsrc
    | .error (.truncation _) => u.fsrc = { s.fsrc with bytes := [], lost := true }
    | .error .unsupportedDataFrame =>
      u.fsrc = { s.fsrc with bytes := s.fsrc.bytes.drop 4, lost := true }
    | .error (.protocolViolation _) =>
      u.fsrc = { s.fsrc with bytes := s.fsrc.bytes.drop 8, lost := true }
    | .error (.ioError _) => u.fsrc.lost = true
    | .error .lengthOverflow => False

/-- A READ whose first stream access is not answered waits, BUSY, in AwaitingHeader; a unit whose source
or sink does not answer makes no step, in whatever it is waiting for (R300).  The model's choice: the turns
of the units (notes/assumptions/1.md), and that a sink which has not answered holds nothing of the string
meanwhile, of which R62 and R300 say nothing (notes/assumptions/7.md: unsafe there). -/
def Obligations.SilentStreamsAreWaitedFor : Prop :=
  ∀ s : State,
    (readAccepted s → s.fsrc.tail = .growing → s.fsrc.bytes.length < 4 → s.fsrc.lost = false →
      exec .read s = .next { s with frx := frxAccept s.frx }) ∧
    (s.frx.status.busy = true → s.fsrc.tail = .growing →
      (s.frx.hwv = false ∧ s.fsrc.bytes.length < 4 ∨
        s.frx.hwv = true ∧ hdrControl s.frx.hw = 1#1 ∧ s.frx.flv = false ∧ s.fsrc.bytes.length < 4 ∨
        s.frx.hwv = true ∧ hdrControl s.frx.hw = 1#1 ∧ s.frx.flv = true ∧
          s.fsrc.bytes.length < (flLength s.frx.fl).toNat) →
      unitTurn .frx s = s) ∧
    (s.ftx.status.busy = true → s.ftx.emitting = true → s.fsnk.mode = .silent →
      unitTurn .ftx s = s) ∧
    (∀ n, s.nvu.dir = false → nvNeeds s.nvu.phase = some n → s.nsrc.tail = .growing →
      s.nsrc.bytes.length < n → unitTurn .nvu s = s) ∧
    (∀ b bs, s.nvu.dir = true → s.nvu.phase = .enc (b :: bs) → b ≠ [] → s.nsnk.mode = .silent →
      unitTurn .nvu s = s)

/-- The two paces agree (R301: only the order of the steps of one unit is fixed): a command accepted and
then moved by turns of its unit ends as the same command run at once, whatever its streams answer.  The
paces are the model's own (notes/assumptions/1.md), and so is what a sink that has not answered holds
(notes/assumptions/7.md). -/
def Obligations.StepwiseCommandsAgree : Prop :=
  ∀ s u v : State,
    (readAccepted s → exec .read { s with pace := .stepwise } = .next u →
      exec .read { s with pace := .atOnce } = .next v →
      times (unitTurn .frx) 3 u = { v with pace := .stepwise }) ∧
    (writeAccepted s → exec .write { s with pace := .stepwise } = .next u →
      exec .write { s with pace := .atOnce } = .next v →
      times (unitTurn .ftx) 2 u = { v with pace := .stepwise })

/-- A command to a busy unit, or to a block held in reset, is dropped (R231, R239, R290, R294). -/
def Obligations.BusyUnitDropsCommands : Prop :=
  ∀ s : State,
    (s.resetLine = true ∨ s.frx.status.busy = true → exec .read s = .next s) ∧
    (s.resetLine = true ∨ s.ftx.status.busy = true → exec .write s = .next s) ∧
    (s.resetLine = true ∨ s.nvu.status.busy = true →
      exec .nvDec s = .next s ∧ exec .nvEnc s = .next s)

/-! ### The payload decoders -/

/-- DEC.SYN_STREAM (R170, R171) on a payload that the source holds whole, with what READ does around it
(R234 to R237).  That the operation is this part of a READ, and that RXBUF beyond the payload stays as it
was, are the model's choice (notes/assumptions/26.md and 22.md). -/
def Obligations.DecSynStreamResult : Prop :=
  ∀ (v : BitVec 15) (f : BitVec 8) (l : BitVec 24) (s : State), l.toNat ≤ s.fsrc.bytes.length →
    let p := s.fsrc.bytes.take l.toNat
    exec (.decSynStream v f l) s =
      .next { s with
        fsrc := { s.fsrc with bytes := s.fsrc.bytes.drop l.toNat }
        frx :=
          if l.toNat < 12 then frxFailedWith (.protocolViolation .payloadTooShort) p s.frx
          else
            { frxHolds p 12 s.frx with
              f0 := be32At p 0 &&& 0x7FFFFFFF#32, f1 := be32At p 4 &&& 0x7FFFFFFF#32
              f2 := be32At p 8 >>> 29 } }

/-- DEC.SYN_REPLY and DEC.HEADERS (R170, R172, R177), which differ in nothing but the type, with what READ
does around them (R234 to R237; the model's choice: notes/assumptions/26.md, and 22.md for RXBUF beyond the
payload). -/
def Obligations.DecBlobAfterStreamIdResult : Prop :=
  ∀ (v : BitVec 15) (f : BitVec 8) (l : BitVec 24) (s : State), l.toNat ≤ s.fsrc.bytes.length →
    let p := s.fsrc.bytes.take l.toNat
    let t : State :=
      { s with
        fsrc := { s.fsrc with bytes := s.fsrc.bytes.drop l.toNat }
        frx :=
          if l.toNat < 4 then frxFailedWith (.protocolViolation .payloadTooShort) p s.frx
          else { frxHolds p 4 s.frx with f0 := be32At p 0 &&& 0x7FFFFFFF#32 } }
    exec (.decSynReply v f l) s = .next t ∧ exec (.decHeaders v f l) s = .next t

/-- The decoders of fixed-size payloads (R170, R173, R175, R176, R178), of which a longer one is a protocol
violation too (R236), with what READ does around them (R234 to R237; the model's choice:
notes/assumptions/26.md, and 22.md for RXBUF beyond the payload). -/
def Obligations.DecFixedSizeResult : Prop :=
  ∀ (v : BitVec 15) (f : BitVec 8) (l : BitVec 24) (s : State), l.toNat ≤ s.fsrc.bytes.length →
    let p := s.fsrc.bytes.take l.toNat
    let sized (size : Nat) (x : Frx) : State :=
      { s with
        fsrc := { s.fsrc with bytes := s.fsrc.bytes.drop l.toNat }
        frx :=
          if l.toNat < size then frxFailedWith (.protocolViolation .payloadTooShort) p s.frx
          else if size < l.toNat then frxFailedWith (.protocolViolation .payloadTooLong) p s.frx
          else x }
    exec (.decRstStream v f l) s =
      .next (sized 8 { frxHolds p 8 s.frx with
        f0 := be32At p 0 &&& 0x7FFFFFFF#32, f1 := be32At p 4 }) ∧
    exec (.decPing v f l) s = .next (sized 4 { frxHolds p 4 s.frx with f0 := be32At p 0 }) ∧
    exec (.decGoaway v f l) s =
      .next (sized 8 { frxHolds p 8 s.frx with
        f0 := be32At p 0 &&& 0x7FFFFFFF#32, f1 := be32At p 4 }) ∧
    exec (.decWindowUpdate v f l) s =
      .next (sized 8 { frxHolds p 8 s.frx with
        f0 := be32At p 0 &&& 0x7FFFFFFF#32, f1 := be32At p 4 &&& 0x7FFFFFFF#32 })

/-- DEC.SETTINGS (R170, R174), whose size its first word gives, in exact arithmetic, with what READ does
around it (R234 to R237; the model's choice: notes/assumptions/26.md, and 22.md for RXBUF beyond the
payload). -/
def Obligations.DecSettingsResult : Prop :=
  ∀ (v : BitVec 15) (f : BitVec 8) (l : BitVec 24) (s : State), l.toNat ≤ s.fsrc.bytes.length →
    let p := s.fsrc.bytes.take l.toNat
    let size := 4 + 8 * (be32At p 0).toNat
    exec (.decSettings v f l) s =
      .next { s with
        fsrc := { s.fsrc with bytes := s.fsrc.bytes.drop l.toNat }
        frx :=
          if l.toNat < 4 ∨ l.toNat < size then
            frxFailedWith (.protocolViolation .payloadTooShort) p s.frx
          else if size < l.toNat then frxFailedWith (.protocolViolation .payloadTooLong) p s.frx
          else { frxHolds p 4 s.frx with f0 := be32At p 0 } }

/-- What RXSET shows after a DEC.SETTINGS that has delivered n entries (R67, R68): entry i of the payload for
i < n, and no value from n on.  That the operation itself takes the payload from FSRC is the model's choice
(notes/assumptions/26.md): the spec's decoder works on bytes that READ has put into RXBUF (R170, R234). -/
def Obligations.SettingsEntriesInRxset : Prop :=
  ∀ (v : BitVec 15) (f : BitVec 8) (l : BitVec 24) (s u : State), l.toNat ≤ s.fsrc.bytes.length →
    hdrType s.frx.hw = 4 → exec (.decSettings v f l) s = .next u → u.frx.status.ok = true →
    let p := s.fsrc.bytes.take l.toNat
    ∀ i,
      (i < u.frx.f0.toNat →
        hostAccess (.rxsetRead i) u =
          .next { u with
            resp := u.resp ++ [.entry
              { flags := p.getD (4 + 8 * i) 0, id := (be32At p (4 + 8 * i)).setWidth 24
                value := be32At p (8 + 8 * i) }] }) ∧
      (u.frx.f0.toNat ≤ i → hostAccess (.rxsetRead i) u = .refused .noValue)

/-- A Credential frame (R179) and a frame of an unknown type (R111, R235, R265) fail once the whole payload
has been consumed, with sub-causes of their own, whatever the payload is.  That the operation consumes the
payload (R234), and that RXBUF beyond it stays as it was, are the model's choice (notes/assumptions/26.md
and 22.md). -/
def Obligations.UnsupportedTypesFail : Prop :=
  ∀ (v : BitVec 15) (t : BitVec 16) (f : BitVec 8) (l : BitVec 24) (s : State),
    l.toNat ≤ s.fsrc.bytes.length →
    let p := s.fsrc.bytes.take l.toNat
    let ended (why : TypeProblem) : State :=
      { s with
        fsrc := { s.fsrc with bytes := s.fsrc.bytes.drop l.toNat }
        frx := frxFailedWith (.unsupportedFrameType why) p s.frx }
    exec (.decCredential v f l) s = .next (ended .knownUnimplemented) ∧
    exec (.unknownType v t f l) s = .next (ended .unknownType)

/-- R233, R266: a data frame fails after its HeaderWord; no byte is consumed, and RX_HW and every other
register but the status keep what they hold.  That the operation is this end of a READ, and the mark on the
source that the statement leaves open, are the model's choice (notes/assumptions/26.md and 6.md). -/
def Obligations.DataFrameFails : Prop :=
  ∀ (n : BitVec 31) (s : State),
    ∃ u, exec (.dataFrame n) s = .next u ∧ onlyReadPath s u ∧ u.fsrc.bytes = s.fsrc.bytes ∧
      u.fsrc.tail = s.fsrc.tail ∧
      u.frx =
        { s.frx with
          status := statusRaised .unsupportedDataFrame, eos := false, fsm := .awaitingHeader }

/-- R234, R264, R269: the payload read of an operation whose source does not hold the payload: it waits
while more may come, keeps the bytes that came before an end, and reports the source's error code.  These
rules speak of READ; that DEC.* and UNKNOWN_TYPE as operations do this payload read themselves is the
model's choice (notes/assumptions/26.md; R170: a decoder never reads the source).  The position is then
undefined (R273), which the model marks on the source (notes/assumptions/6.md). -/
def Obligations.ShortPayloadIsReported : Prop :=
  ∀ (i : Instr) (l : BitVec 24) (s : State), onPayload i = some l → s.fsrc.bytes.length < l.toNat →
    match s.fsrc.tail with
    | .growing => exec i s = .next s
    | .ended =>
      exec i s =
        .next { s with
          fsrc := { s.fsrc with bytes := [], lost := true }
          frx := frxFailedWith (.truncation .inPayload) s.fsrc.bytes s.frx }
    | .failed e =>
      ∃ u, exec i s = .next u ∧ onlyReadPath s u ∧ u.fsrc.lost = true ∧
        u.frx =
          { s.frx with status := statusRaised (.ioError e), eos := false, fsm := .awaitingHeader }

/-- The frame of RXBUF: an operation on a payload that the source holds writes the payload to RXBUF from
offset 0 and its length to RX_CNT, as READ does (R67, R234).  The model's choice: that the operation itself
takes the payload from FSRC (notes/assumptions/26.md), and that it leaves every byte from its length on as
it was (notes/assumptions/22.md), to which the spec gives no value. -/
def Obligations.PayloadLandsInRxbuf : Prop :=
  ∀ (i : Instr) (l : BitVec 24) (s : State), onPayload i = some l → l.toNat ≤ s.fsrc.bytes.length →
    ∃ u, exec i s = .next u ∧ onlyReadPath s u ∧ u.frx.cnt = l ∧
      (∀ a, l.toNat ≤ a → storeGet u.frx.buf a = storeGet s.frx.buf a) ∧
      (∀ a, a < l.toNat → storeGet u.frx.buf a = s.fsrc.bytes[a]?)

/-- R181: what each decoder consumes, which lengths it refuses, and which pass the exact-consumption
check. -/
def Obligations.DecodersConsume : Prop :=
  ∀ (k : FrameKind) (p : Bytes),
    (p.length < consumedBytes k p → decoderOf k p = .tooShort) ∧
    (consumedBytes k p ≤ p.length → ∃ body, decoderOf k p = .decoded body (consumedBytes k p))

/-! ### The payload encoders -/

/-- The encoders of fixed-size payloads (R203, R205, R206, R208), with what WRITE does around them: the
length, its check, the payload and the two words (R241 to R243; the model's choice:
notes/assumptions/26.md).  A descriptor register that nothing has written enters as the free value it holds
(notes/assumptions/3.md and 4.md). -/
def Obligations.EncFixedSizeResult : Prop :=
  ∀ s : State,
    let built (q : Bytes) : State :=
      { s with
        ftx :=
          if s.params.payloadMax < q.length then
            ftxRaise (.protocolViolation .limitExceeded) (ftxSetLen q.length s.ftx)
          else
            ftxHolds q (s.ftx.flags ++ BitVec.ofNat 24 q.length)
              (writtenHeader s.ftx.version s.ftx.type) s.ftx }
    exec .encPing s = .next (built (be32 s.ftx.f0)) ∧
    exec .encRstStream s = .next (built (be32 (s.ftx.f0 &&& 0x7FFFFFFF#32) ++ be32 s.ftx.f1)) ∧
    exec .encGoaway s = .next (built (be32 (s.ftx.f0 &&& 0x7FFFFFFF#32) ++ be32 s.ftx.f1)) ∧
    exec .encWindowUpdate s =
      .next (built (be32 (s.ftx.f0 &&& 0x7FFFFFFF#32) ++ be32 (s.ftx.f1 &&& 0x7FFFFFFF#32)))

/-- The encoders of payloads that end in a blob (R201, R202, R207), with what WRITE does around them (R241 to
R243; the model's choice: notes/assumptions/26.md).  A blob too long is refused on its length, before it is
read; one that fits has been written by the host.  A descriptor register that nothing has written enters as
the free value it holds (notes/assumptions/3.md and 4.md). -/
def Obligations.EncBlobResult : Prop :=
  ∀ (s : State) (size : Nat),
    let refused (n : Nat) (e : OpError) : State := { s with ftx := ftxRaise e (ftxSetLen n s.ftx) }
    let built (q : Bytes) : State :=
      { s with
        ftx := ftxHolds q (s.ftx.flags ++ BitVec.ofNat 24 q.length)
          (writtenHeader s.ftx.version s.ftx.type) s.ftx }
    let sid := be32 (s.ftx.f0 &&& 0x7FFFFFFF#32)
    (size = 4 + s.ftx.tailLen.toNat →
      (16777215 < size →
        exec .encSynReply s = .next (refused size .lengthOverflow) ∧
        exec .encHeaders s = .next (refused size .lengthOverflow)) ∧
      (size ≤ 16777215 → s.params.payloadMax < size →
        exec .encSynReply s = .next (refused size (.protocolViolation .limitExceeded)) ∧
        exec .encHeaders s = .next (refused size (.protocolViolation .limitExceeded))) ∧
      (size ≤ 16777215 → size ≤ s.params.payloadMax →
        ∀ blob, memRead s.ftx.tail 0 s.ftx.tailLen.toNat = some blob →
        exec .encSynReply s = .next (built (sid ++ blob)) ∧
        exec .encHeaders s = .next (built (sid ++ blob)))) ∧
    (size = 12 + s.ftx.tailLen.toNat →
      (16777215 < size → exec .encSynStream s = .next (refused size .lengthOverflow)) ∧
      (size ≤ 16777215 → s.params.payloadMax < size →
        exec .encSynStream s = .next (refused size (.protocolViolation .limitExceeded))) ∧
      (size ≤ 16777215 → size ≤ s.params.payloadMax →
        ∀ blob, memRead s.ftx.tail 0 s.ftx.tailLen.toNat = some blob →
        exec .encSynStream s =
          .next (built (sid ++ be32 (s.ftx.f1 &&& 0x7FFFFFFF#32) ++ be32 (s.ftx.f2 <<< 29) ++ blob))))

/-- ENC.SETTINGS (R204) on entries that the host has written, with what WRITE does around it (R241 to R243;
the model's choice: notes/assumptions/26.md).  A count too large is refused on the exact length, before any
entry is read.  A descriptor register that nothing has written enters as the free value it holds
(notes/assumptions/3.md and 4.md). -/
def Obligations.EncSettingsResult : Prop :=
  ∀ (s : State) (es : List SetEntry),
    let size := 4 + 8 * s.ftx.f0.toNat
    let refused (e : OpError) : State := { s with ftx := ftxRaise e (ftxSetLen size s.ftx) }
    let q := be32 s.ftx.f0 ++ es.flatMap fun e => be32 (e.flags ++ e.id) ++ be32 e.value
    (16777215 < size → exec .encSettings s = .next (refused .lengthOverflow)) ∧
    (size ≤ 16777215 → s.params.payloadMax < size →
      exec .encSettings s = .next (refused (.protocolViolation .limitExceeded))) ∧
    (size ≤ 16777215 → size ≤ s.params.payloadMax → es.length = s.ftx.f0.toNat →
      (∀ i, i < es.length → storeGet s.ftx.set i = es[i]?) →
      exec .encSettings s =
        .next { s with
          ftx := ftxHolds q (s.ftx.flags ++ BitVec.ofNat 24 size)
            (writtenHeader s.ftx.version s.ftx.type) s.ftx })

/-- R200: an encoder's payload is the payload of the body that the descriptor describes, every field
masked to its width, and the length it computes first is the length of that payload.  The statement takes
in descriptors whose blob or entries nothing has written, to which R297 gives no defined result: that the
encoder runs on free values there is the model's choice (notes/assumptions/4.md and 5.md). -/
def Obligations.EncodersBuildTheBody : Prop :=
  ∀ (k : FrameKind) (x : Ftx),
    (encoderOf k).payload x = bodyPayload (txBody x k) ∧
    (encoderOf k).len x = ((encoderOf k).payload x).length ∧ bodyKind (txBody x k) = k

/-- R210: the payload codecs invert each other: decoding an encoded body gives it back and consumes all
of it; encoding a decoded payload gives the payload back with its reserved bits cleared. -/
def Obligations.PayloadCodecsAreInverse : Prop :=
  (∀ b : Body, (∀ es, b = .settings es → es.length < 2 ^ 32) →
    decoderOf (bodyKind b) (bodyPayload b) = .decoded b (bodyPayload b).length) ∧
  (∀ (k : FrameKind) (p : Bytes) (b : Body), decoderOf k p = .decoded b p.length →
    bodyKind b = k ∧ bodyPayload b = p.mapIdx fun i x => x &&& keptBits k i)

/-! ### WRITE -/

/-- WRITE is the function `Write` (R246): an unsupported type, a length that overflows and a length above
the capacity emit nothing; otherwise FSNK is handed the bytes of the frame the descriptor describes.  The
model's choice: that a register, byte or entry that nothing has written enters the frame as a free value
(notes/assumptions/4.md and 5.md; R297), that a sink which has not answered holds nothing of the frame
meanwhile (notes/assumptions/7.md: unsafe there; a failing one holds some prefix, R62), and that the WRITE
is one step (notes/assumptions/1.md). -/
def Obligations.WriteIsTheWriteFunction : Prop :=
  ∀ s : State, writeAccepted s → s.pace = .atOnce →
    ∃ u, exec .write s = .next u ∧ onlyWritePath s u ∧ sameDescriptor s.ftx u.ftx ∧
      match writeFrame s.params s.ftx with
      | .error e => u.ftx.status = statusRaised e ∧ u.fsnk = s.fsnk
      | .ok b =>
        u.ftx.hw = be32At b 0 ∧ u.ftx.fl = be32At b 4 ∧ u.ftx.len.toNat + 8 = b.length ∧
        match s.fsnk.mode with
        | .accepts =>
          u.ftx.status = statusSucceeded ∧ u.ftx.written.toNat = b.length ∧
            u.fsnk = { s.fsnk with accepted := s.fsnk.accepted ++ b }
        | .fails e =>
          u.ftx.status = statusRaised (.ioError e) ∧
            ∃ n, u.fsnk = { s.fsnk with accepted := s.fsnk.accepted ++ b.take n }
        | .silent => u.ftx.status = statusAccepted ∧ u.fsnk = s.fsnk

/-- Reading a written frame gives the frame back and leaves what follows it (R246: `Read(Write(F) bytes) =
Ok F` and consumes all of the bytes). -/
def Obligations.ReadInvertsWrite : Prop :=
  ∀ (p : Config.Params) (f : Frame) (rest : Bytes) (t : Terminator), p.legal →
    (bodyPayload f.body).length ≤ p.payloadMax →
    readFrame p (frameBytes f ++ rest) t = (.ok f, some rest)

/-- The same of the machine: when the bytes that a successful WRITE handed to FSNK stand at the head of a
read path's FSRC, the READ there shows the frame that the descriptor described (R75, R210, R246).  It takes
in descriptors with registers, a blob or entries that nothing has written, to which R297 gives no defined
result: that those enter the frame as free values, which are then read back, is the model's choice
(notes/assumptions/4.md and 5.md), and so is that each command is one step (notes/assumptions/1.md). -/
def Obligations.WrittenFramesReadBack : Prop :=
  ∀ (s u r : State) (t : Terminator) (k : FrameKind) (rest : Bytes),
    writeAccepted s → s.pace = .atOnce → s.fsnk.mode = .accepts →
    kindOfCode s.ftx.type = some k → (encoderOf k).len s.ftx ≤ 16777215 →
    (encoderOf k).len s.ftx ≤ s.params.payloadMax → exec .write s = .next u →
    readAccepted r → r.pace = .atOnce → r.params = s.params → finiteInput r.fsrc t →
    r.fsrc.bytes = u.fsnk.accepted.drop s.fsnk.accepted.length ++ rest →
    ∃ w, exec .read r = .next w ∧ w.frx.status = statusSucceeded ∧
      rxFrame w.frx = some (txFrame s.ftx k) ∧ w.fsrc.bytes = rest

/-! ### The name/value unit -/

/-- NV.DEC is the function `decode` (R151, R153): on success NVT, NV_COUNT and NV_BYTES are its result and
NSRC keeps what follows the block; on an error the outcome is its error.  That the NV.DEC is one step is
the model's choice (notes/assumptions/1.md). -/
def Obligations.NvDecIsTheDecodeFunction : Prop :=
  ∀ (s : State) (t : Terminator), nvAccepted s → s.pace = .atOnce → finiteInput s.nsrc t →
    s.params.legal →
    ∃ u, exec .nvDec s = .next u ∧ u = { s with nvu := u.nvu, nsrc := u.nsrc } ∧
      u.nvu.dir = false ∧
      match nvDecode s.params (s.ctrl == 1) s.nsrc.bytes t with
      | .ok (tbl, total, rest) =>
        u.nvu.status = statusSucceeded ∧ u.nvu.nvt = tbl ∧ u.nvu.count.toNat = tbl.length ∧
          u.nvu.bytes.toNat = total ∧ u.nsrc = { s.nsrc with bytes := rest }
      | .error e => u.nvu.status = statusRaised e

/-- R152: NV.ENC hands NSNK the bytes of the table in index order, counts them in NV_BYTES, and changes
neither NVT nor NV_COUNT; a sink that fails has accepted a part of them and its code is reported; a
sink that does not answer leaves the unit BUSY (R300).  The model's choice: that such a sink holds nothing of
the bytes meanwhile (notes/assumptions/7.md: unsafe there), and that the NV.ENC is one step
(notes/assumptions/1.md). -/
def Obligations.NvEncIsTheEncodeFunction : Prop :=
  ∀ s : State, nvAccepted s → s.pace = .atOnce → s.params.legal → nvFits s.params s.nvu.nvt →
    s.nvu.count.toNat = s.nvu.nvt.length →
    ∃ u, exec .nvEnc s = .next u ∧ u = { s with nvu := u.nvu, nsnk := u.nsnk } ∧
      u.nvu.nvt = s.nvu.nvt ∧ u.nvu.count = s.nvu.count ∧ u.nvu.dir = true ∧
      match s.nsnk.mode with
      | .accepts =>
        u.nvu.status = statusSucceeded ∧ u.nvu.bytes.toNat = (nvEncode s.nvu.nvt).length ∧
          u.nsnk = { s.nsnk with accepted := s.nsnk.accepted ++ nvEncode s.nvu.nvt }
      | .fails e =>
        u.nvu.status = statusRaised (.ioError e) ∧
          ∃ n, u.nsnk = { s.nsnk with accepted := s.nsnk.accepted ++ (nvEncode s.nvu.nvt).take n }
      | .silent => u.nvu.status = statusAccepted ∧ u.nsnk = s.nsnk

/-- R154: decoding the bytes of a table gives the same list in the same order and consumes them exactly,
with STRICT = 1 provided no name is empty. -/
def Obligations.NameValueRoundTrip : Prop :=
  ∀ (p : Config.Params) (strict : Bool) (tbl : NvTable) (rest : Bytes) (t : Terminator),
    p.legal → nvFits p tbl → (strict = true → ∀ x ∈ tbl, x.1 ≠ []) →
    nvDecode p strict (nvEncode tbl ++ rest) t = .ok (tbl, (nvEncode tbl).length, rest)

/-- Last write wins (R151): inserting a pair gives its name that value and no other name another one; a
repeated name keeps its place, a new one comes last; names stay different (R150). -/
def Obligations.LastWriteWins : Prop :=
  ∀ (tbl : NvTable) (name value : Bytes),
    nvLookup (nvInsert tbl name value) name = some value ∧
    (∀ other, other ≠ name → nvLookup (nvInsert tbl name value) other = nvLookup tbl other) ∧
    (nvInsert tbl name value).map Prod.fst =
      (if name ∈ tbl.map Prod.fst then tbl.map Prod.fst else tbl.map Prod.fst ++ [name]) ∧
    (nvUnique tbl → nvUnique (nvInsert tbl name value))

/-- A successful decode gives a table that fits, and its count of bytes is that of the bytes it took
(R150, R151, R156). -/
def Obligations.DecodedTableFits : Prop :=
  ∀ (p : Config.Params) (strict : Bool) (s : Bytes) (t : Terminator) (tbl : NvTable) (total : Nat)
    (rest : Bytes), nvDecode p strict s t = .ok (tbl, total, rest) →
    nvFits p tbl ∧ rest = s.drop total ∧ total ≤ s.length ∧
      tbl.length ≤ (be32At s 0).toNat

/-- Strict decoding accepts no more and gives the same (R153): its table is that of the plain decoding,
has no empty name, and has as many pairs as the block says. -/
def Obligations.StrictDecodingRefinesPlain : Prop :=
  ∀ (p : Config.Params) (s : Bytes) (t : Terminator) (tbl : NvTable) (total : Nat) (rest : Bytes),
    nvDecode p true s t = .ok (tbl, total, rest) →
    nvDecode p false s t = .ok (tbl, total, rest) ∧ (∀ x ∈ tbl, x.1 ≠ []) ∧
      tbl.length = (be32At s 0).toNat

/-- R302 for the name/value unit: moved by turns, one stream access each, an NV.DEC over a finite input has
ended after at most 1 + 4 * count of them, and an NV.ENC, whatever its sink answers, has gone as far as it
can after at most 1 + 4 * NV_COUNT; each is then where the same command run at once is.  The paces are the
model's own (notes/assumptions/1.md), and so is what a sink that has not answered holds
(notes/assumptions/7.md). -/
def Obligations.NvCommandsEndWithinTheirAccesses : Prop :=
  ∀ s u v : State, nvAccepted s →
    (∀ t, finiteInput s.nsrc t → s.params.legal → 4 ≤ s.nsrc.bytes.length →
      exec .nvDec { s with pace := .stepwise } = .next u →
      exec .nvDec { s with pace := .atOnce } = .next v →
      times (unitTurn .nvu) (1 + 4 * (be32At s.nsrc.bytes 0).toNat) u = { v with pace := .stepwise } ∧
        v.nvu.status.busy = false) ∧
    (exec .nvEnc { s with pace := .stepwise } = .next u →
      exec .nvEnc { s with pace := .atOnce } = .next v →
      times (unitTurn .nvu) (1 + 4 * s.nvu.count.toNat) u = { v with pace := .stepwise } ∧
        (v.nvu.status.busy = true ↔ s.nsnk.mode = .silent))

/-! ### The host's port -/

/-- The STATUS registers as words (R26, R35, R37): every field in its place, reserved bits 0. -/
def Obligations.StatusRegisterLayout : Prop :=
  ∀ (x : Frx) (y : Ftx) (z : Nvu),
    let fields (w : BitVec 24) (s : Status) : Prop :=
      w.getLsbD 0 = s.busy ∧ w.getLsbD 1 = s.done ∧ w.getLsbD 2 = s.ok ∧
        (w >>> 8).setWidth 4 = s.kind ∧ (w >>> 12).setWidth 4 = s.sub ∧ (w >>> 16).setWidth 8 = s.iocode
    fields (rxStatusWord x) x.status ∧
    ((rxStatusWord x).getLsbD 3 = x.eos ∧
      ((rxStatusWord x).getLsbD 4 = true ↔ x.fsm = .awaitingPayload) ∧
      (rxStatusWord x).getLsbD 5 = x.hwv ∧ (rxStatusWord x).getLsbD 6 = x.flv ∧
      (rxStatusWord x).getLsbD 7 = false) ∧
    fields (txStatusWord y) y.status ∧
    (∀ i, 3 ≤ i → i ≤ 7 → (txStatusWord y).getLsbD i = false) ∧
    fields (nvStatusWord z) z.status ∧ (nvStatusWord z).getLsbD 3 = z.dir ∧
    (∀ i, 4 ≤ i → i ≤ 7 → (nvStatusWord z).getLsbD i = false)

/-- Reads of registers and buffers are free of side effects (R66): all that changes is what the host has
been given, by one answer.  Of RXBUF, TXTAIL and TXSET the answer is what they hold (R29, R60, R67, R69); a
read that meets a byte or entry without a value is refused (U16, U18), and one beyond the end faults, which
is the model's reading (notes/assumptions/5.md and 17.md), as the sizes are its choice
(notes/assumptions/16.md). -/
def Obligations.ReadsHaveNoSideEffects : Prop :=
  ∀ s : State,
    (∀ (t : State) (r : HostReq),
      (∃ reg, r = .regRead reg) ∨ (∃ o n, r = .rxbufRead o n) ∨ (∃ i, r = .rxsetRead i) ∨
        (∃ o n, r = .txtailRead o n) ∨ (∃ i, r = .txsetRead i) ∨ (∃ i h, r = .nvtLength i h) ∨
        (∃ i h o n, r = .nvtRead i h o n) →
      hostAccess r s = .next t → ∃ a, t = { s with resp := s.resp ++ [a] }) ∧
    let reads (req : Nat → Nat → HostReq) (m : Memory) (size : Nat) : Prop :=
      ∀ off n,
        (size < off + n → hostAccess (req off n) s = .fault .noSuchAddress) ∧
        (∀ b : Bytes, off + n ≤ size → b.length = n →
          (∀ i, i < n → storeGet m (off + i) = b[i]?) →
          hostAccess (req off n) s = .next { s with resp := s.resp ++ [.bytes b] }) ∧
        (∀ i, off + n ≤ size → i < n → storeGet m (off + i) = none →
          hostAccess (req off n) s = .refused .noValue)
    (s.frx.status.busy = false → reads .rxbufRead s.frx.buf s.params.payloadMax) ∧
    (s.ftx.status.busy = false →
      reads .txtailRead s.ftx.tail (txtailCap s.params) ∧
      ∀ i,
        (txsetCap s.params ≤ i → hostAccess (.txsetRead i) s = .fault .noSuchAddress) ∧
        (∀ e, i < txsetCap s.params → storeGet s.ftx.set i = some e →
          hostAccess (.txsetRead i) s = .next { s with resp := s.resp ++ [.entry e] }) ∧
        (i < txsetCap s.params → storeGet s.ftx.set i = none →
          hostAccess (.txsetRead i) s = .refused .noValue))

/-- A descriptor register takes the low bits of what the host writes to it while FTX is idle, and CTRL bit 0
while NVU is idle; nothing else changes, and the register reads back what it took (R21, R31, R32, R33). -/
def Obligations.WrittenRegistersReadBack : Prop :=
  ∀ (s : State) (d : PortData),
    let takes (reg : BitVec 8) (width : Nat) (t : State) : Prop :=
      hostAccess (.regWrite reg d) s = .next t ∧
      hostAccess (.regRead reg) t =
        .next { t with resp := t.resp ++ [.reg reg ((d.setWidth width).setWidth 66)] }
    (s.ftx.status.busy = false →
      takes 0x12 16 { s with ftx := { s.ftx with type := d.setWidth 16 } } ∧
      takes 0x13 15 { s with ftx := { s.ftx with version := d.setWidth 15 } } ∧
      takes 0x14 8 { s with ftx := { s.ftx with flags := d.setWidth 8 } } ∧
      takes 0x15 32 { s with ftx := { s.ftx with f0 := d.setWidth 32 } } ∧
      takes 0x16 32 { s with ftx := { s.ftx with f1 := d.setWidth 32 } } ∧
      takes 0x17 32 { s with ftx := { s.ftx with f2 := d.setWidth 32 } } ∧
      takes 0x18 32 { s with ftx := { s.ftx with tailLen := d.setWidth 32 } }) ∧
    (s.nvu.status.busy = false → takes 0x30 1 { s with ctrl := d.setWidth 1 })

/-- The host's writes of TXTAIL and TXSET land where it says and nowhere else (R33, R69).  How large the
two are is the model's choice among what R69 allows (notes/assumptions/16.md), and so is that TXSET keeps
the low bits of what is written (notes/assumptions/25.md). -/
def Obligations.TxBuffersTakeWrites : Prop :=
  ∀ s : State, s.ftx.status.busy = false →
    (∀ off b, off + b.length ≤ txtailCap s.params →
      ∃ t, hostAccess (.txtailWrite off b) s = .next t ∧
        t = { s with ftx := { s.ftx with tail := t.ftx.tail } } ∧
        memRead t.ftx.tail off b.length = some b ∧
        ∀ a, a < off ∨ off + b.length ≤ a → storeGet t.ftx.tail a = storeGet s.ftx.tail a) ∧
    (∀ i f n v, i < txsetCap s.params →
      ∃ t, hostAccess (.txsetWrite i f n v) s = .next t ∧
        t = { s with ftx := { s.ftx with set := t.ftx.set } } ∧
        storeGet t.ftx.set i =
          some { flags := f.setWidth 8, id := n.setWidth 24, value := v } ∧
        ∀ j, j ≠ i → storeGet t.ftx.set j = storeGet s.ftx.set j)

/-- R295, R44: of a busy unit the host may read the STATUS register and nothing else; a write of any of its
registers but CMD, of which R35 and R37 say what a write does, is refused too. -/
def Obligations.BusyUnitsAreClosed : Prop :=
  ∀ s : State,
    (s.frx.status.busy = true →
      (∀ reg : BitVec 8, 0x02 ≤ reg.toNat → reg.toNat ≤ 0x09 →
        hostAccess (.regRead reg) s = .refused .busyUnit) ∧
      (∀ (reg : BitVec 8) d, 0x01 ≤ reg.toNat → reg.toNat ≤ 0x09 →
        hostAccess (.regWrite reg d) s = .refused .busyUnit) ∧
      (∀ o n, hostAccess (.rxbufRead o n) s = .refused .busyUnit) ∧
      (∀ i, hostAccess (.rxsetRead i) s = .refused .busyUnit)) ∧
    (s.ftx.status.busy = true →
      (∀ reg : BitVec 8, 0x12 ≤ reg.toNat → reg.toNat ≤ 0x1C →
        hostAccess (.regRead reg) s = .refused .busyUnit) ∧
      (∀ (reg : BitVec 8) d, 0x11 ≤ reg.toNat → reg.toNat ≤ 0x1C →
        hostAccess (.regWrite reg d) s = .refused .busyUnit) ∧
      (∀ o b, hostAccess (.txtailWrite o b) s = .refused .busyUnit) ∧
      (∀ o n, hostAccess (.txtailRead o n) s = .refused .busyUnit) ∧
      (∀ i f n v, hostAccess (.txsetWrite i f n v) s = .refused .busyUnit) ∧
      (∀ i, hostAccess (.txsetRead i) s = .refused .busyUnit)) ∧
    (s.nvu.status.busy = true →
      hostAccess (.regRead 0x22) s = .refused .busyUnit ∧
      hostAccess (.regRead 0x23) s = .refused .busyUnit ∧
      (∀ (reg : BitVec 8) d, 0x21 ≤ reg.toNat → reg.toNat ≤ 0x23 →
        hostAccess (.regWrite reg d) s = .refused .busyUnit) ∧
      (∀ d, hostAccess (.regWrite 0x30 d) s = .refused .busyUnit) ∧
      (∀ t, hostAccess (.nvtLoad t) s = .refused .busyUnit) ∧
      (∀ i h, hostAccess (.nvtLength i h) s = .refused .busyUnit) ∧
      (∀ i h o n, hostAccess (.nvtRead i h o n) s = .refused .busyUnit)) ∧
    hostAccess (.regRead 0x01) s =
      .next { s with resp := s.resp ++ [.reg 0x01 ((rxStatusWord s.frx).setWidth 66)] } ∧
    hostAccess (.regRead 0x11) s =
      .next { s with resp := s.resp ++ [.reg 0x11 ((txStatusWord s.ftx).setWidth 66)] } ∧
    hostAccess (.regRead 0x21) s =
      .next { s with resp := s.resp ++ [.reg 0x21 ((nvStatusWord s.nvu).setWidth 66)] }

/-- What the host reads of the registers of an idle unit (R42): the value each holds.  RX_F0, RX_F1, RX_F2
give one only while OK = 1 and only where the row of the frame's type names them, never zero in its place
(R27); RX_TAIL_OFF and RX_TAIL_LEN only while OK = 1 (R28).  That RX_HW, RX_FL and the registers of FTX read
as they stand while the spec leaves them unspecified is the model's choice (notes/assumptions/3.md, 8.md and
24.md). -/
def Obligations.RegisterReadsGiveTheirValues : Prop :=
  ∀ s : State,
    let gives (reg : BitVec 8) (v : PortData) : Prop :=
      hostAccess (.regRead reg) s = .next { s with resp := s.resp ++ [.reg reg v] }
    (s.frx.status.busy = false →
      gives 0x02 (s.frx.hw.setWidth 66) ∧ gives 0x03 (s.frx.fl.setWidth 66) ∧
      gives 0x04 (s.frx.cnt.setWidth 66) ∧
      (s.frx.status.ok = true →
        gives 0x08 (s.frx.tailOff.setWidth 66) ∧ gives 0x09 (s.frx.tailLen.setWidth 66)) ∧
      (s.frx.status.ok = false → ∀ reg : BitVec 8, 0x05 ≤ reg.toNat → reg.toNat ≤ 0x09 →
        hostAccess (.regRead reg) s = .refused .noValue) ∧
      (∀ k, s.frx.status.ok = true → hdrType s.frx.hw = frameCode k →
        ∀ reg i v, (reg, i, v) ∈ [(0x05, 0, s.frx.f0), (0x06, 1, s.frx.f1), (0x07, 2, s.frx.f2)] →
          if i < namedFields k then gives reg (v.setWidth 66)
          else hostAccess (.regRead reg) s = .refused .noValue)) ∧
    (s.ftx.status.busy = false →
      gives 0x12 (s.ftx.type.setWidth 66) ∧ gives 0x13 (s.ftx.version.setWidth 66) ∧
      gives 0x14 (s.ftx.flags.setWidth 66) ∧ gives 0x15 (s.ftx.f0.setWidth 66) ∧
      gives 0x16 (s.ftx.f1.setWidth 66) ∧ gives 0x17 (s.ftx.f2.setWidth 66) ∧
      gives 0x18 (s.ftx.tailLen.setWidth 66) ∧ gives 0x19 (s.ftx.hw.setWidth 66) ∧
      gives 0x1A (s.ftx.fl.setWidth 66) ∧ gives 0x1B (s.ftx.len.setWidth 66) ∧
      gives 0x1C (s.ftx.written.setWidth 66)) ∧
    (s.nvu.status.busy = false →
      gives 0x22 (s.nvu.count.setWidth 66) ∧ gives 0x23 s.nvu.bytes) ∧
    gives 0x30 (s.ctrl.setWidth 66)

/-- R42: an unassigned register number reads 0 and ignores writes. -/
def Obligations.UnassignedRegistersReadZero : Prop :=
  ∀ (s : State) (reg : BitVec 8) (d : PortData),
    (0x0A ≤ reg.toNat ∧ reg.toNat ≤ 0x0F) ∨ (0x1D ≤ reg.toNat ∧ reg.toNat ≤ 0x1F) ∨
      (0x24 ≤ reg.toNat ∧ reg.toNat ≤ 0x2F) ∨ 0x31 ≤ reg.toNat →
    hostAccess (.regRead reg) s = .next { s with resp := s.resp ++ [.reg reg 0] } ∧
    hostAccess (.regWrite reg d) s = .next s ∧ decode (.command reg d) = .error .notACommandRegister

/-- R155: the host's load of NVT sets the table and NV_COUNT; a list that is no table that fits is
refused. -/
def Obligations.NvtLoadKeepsTheContract : Prop :=
  ∀ (s : State) (tbl : NvTable), s.nvu.status.busy = false → s.params.legal →
    (nvFits s.params tbl →
      ∃ u, hostAccess (.nvtLoad tbl) s = .next u ∧
        u = { s with nvu := { s.nvu with nvt := tbl, count := u.nvu.count } } ∧
        u.nvu.count.toNat = tbl.length) ∧
    (¬ nvFits s.params tbl → hostAccess (.nvtLoad tbl) s = .refused .outsideTableContract)

/-- What the host reads of NVT (R70): for an index below NV_COUNT the length and the bytes of the name and
of the value.  That a read of a pair from there on, or of bytes beyond a name or value, is refused is the
model's reading (notes/assumptions/17.md). -/
def Obligations.NvtIsReadByIndex : Prop :=
  ∀ (s : State) (i : Nat), s.nvu.status.busy = false → s.nvu.count.toNat = s.nvu.nvt.length →
    (∀ name value, s.nvu.nvt[i]? = some (name, value) →
      hostAccess (.nvtLength i .name) s = .next { s with resp := s.resp ++ [.length name.length] } ∧
      hostAccess (.nvtLength i .value) s = .next { s with resp := s.resp ++ [.length value.length] } ∧
      ∀ off n,
        hostAccess (.nvtRead i .name off n) s =
          (if off + n ≤ name.length then
            .next { s with resp := s.resp ++ [.bytes ((name.drop off).take n)] }
          else .refused .noValue) ∧
        hostAccess (.nvtRead i .value off n) s =
          (if off + n ≤ value.length then
            .next { s with resp := s.resp ++ [.bytes ((value.drop off).take n)] }
          else .refused .noValue)) ∧
    (s.nvu.count.toNat ≤ i → ∀ h,
      hostAccess (.nvtLength i h) s = .refused .noValue ∧
      ∀ off n, hostAccess (.nvtRead i h off n) s = .refused .noValue)

/-! ### Reset and independence -/

/-- What the registers read right after reset (R43): the STATUS registers, RX_CNT, NV_COUNT and NV_BYTES 0,
CTRL at STRICT_RESET, no value of the frame-field registers (R27, R28); no byte or entry of a buffer holds
a value; NVT is empty; and the block does nothing on its own.  The model's choice: that each other register
that the spec leaves unspecified reads some value, of which nothing is said (notes/assumptions/3.md), that
an unspecified byte or entry of a buffer is one without a value (5.md), that the parameters stand in the
state at their defaults (15.md), and the empty list of events on which the last clause rests (2.md). -/
def Obligations.RegistersAfterReset : Prop :=
  let s := State.reset
  (∀ reg : BitVec 8, reg ∈ ([0x01, 0x04, 0x11, 0x21, 0x22, 0x23] : List (BitVec 8)) →
    hostAccess (.regRead reg) s = .next { s with resp := s.resp ++ [.reg reg 0] }) ∧
  hostAccess (.regRead 0x30) s =
    .next { s with resp := s.resp ++ [.reg 0x30 (s.params.strictReset.setWidth 66)] } ∧
  (∀ reg : BitVec 8, 0x05 ≤ reg.toNat → reg.toNat ≤ 0x09 →
    hostAccess (.regRead reg) s = .refused .noValue) ∧
  (∀ reg : BitVec 8, reg ∈ ([0x02, 0x03, 0x12, 0x13, 0x14, 0x15, 0x16, 0x17, 0x18, 0x19, 0x1A, 0x1B,
      0x1C] : List (BitVec 8)) →
    ∃ v, hostAccess (.regRead reg) s = .next { s with resp := s.resp ++ [.reg reg v] }) ∧
  s.frx.fsm = .awaitingHeader ∧ s.nvu.nvt = [] ∧ s.params = Config.defaults ∧
  (∀ a, storeGet s.frx.buf a = none ∧ storeGet s.ftx.tail a = none ∧ storeGet s.ftx.set a = none ∧
    storeGet s.ftx.buf a = none) ∧
  step s = .next s

/-- An event of the reset input (R290, R292) leaves every unit idle, at no step of an operation and without
an outcome: all fields of the STATUS registers 0, fsm in AwaitingHeader, CTRL at STRICT_RESET, NVT and every
buffer empty.  A source that an operation was reading is at an undefined position; a sink that one was
writing has taken some of the string it was being handed, from the first byte on, and another sink nothing.
The model's choice: that the release of reset does this as its assertion does, and that either does it where
the input already has that level (notes/assumptions/18.md); that the buffers are left without a value
(notes/assumptions/5.md); the marks of the streams (notes/assumptions/6.md and 7.md). -/
def Obligations.ResetAbandonsOperations : Prop :=
  ∀ (s : State) (a : Bool) (es : List Event), s.events = .resetLine a :: es →
    ∃ t, step s = .next t ∧ t.resetLine = a ∧ t.params = s.params ∧ t.ctrl = s.params.strictReset ∧
      t.frx.status = Status.zero ∧ t.ftx.status = Status.zero ∧ t.nvu.status = Status.zero ∧
      t.frx.fsm = .awaitingHeader ∧ t.frx.cnt = 0 ∧ t.frx.buf = [] ∧ t.frx.hwv = false ∧
      t.frx.flv = false ∧ t.ftx.buf = [] ∧ t.ftx.tail = [] ∧ t.ftx.set = [] ∧
      t.nvu.nvt = [] ∧ t.nvu.count = 0 ∧ t.nvu.bytes = 0 ∧
      t.frx.eos = false ∧ t.nvu.dir = false ∧ t.ftx.emitting = false ∧ t.nvu.phase = .idle ∧
      t.fsrc = { s.fsrc with lost := s.fsrc.lost || s.frx.status.busy } ∧
      t.nsrc = { s.nsrc with lost := s.nsrc.lost || (s.nvu.status.busy && !s.nvu.dir) } ∧
      (if s.ftx.status.busy = true ∧ s.ftx.emitting = true then
        ∃ n, t.fsnk = { s.fsnk with accepted := s.fsnk.accepted ++ (txFrameBytes s.ftx).take n }
      else t.fsnk = s.fsnk) ∧
      (match s.nvu.phase with
        | .enc (b :: _) => ∃ n, t.nsnk = { s.nsnk with accepted := s.nsnk.accepted ++ b.take n }
        | _ => t.nsnk = s.nsnk) ∧
      t.events = es ∧ t.resp = s.resp ∧ t.pace = s.pace

/-- R76: the units share nothing, so commands to different units give the same in either order. -/
def Obligations.UnitsAreIndependent : Prop :=
  ∀ s : State,
    thenExec .write (exec .read s) = thenExec .read (exec .write s) ∧
    (∀ i, i = .nvDec ∨ i = .nvEnc →
      thenExec i (exec .read s) = thenExec .read (exec i s) ∧
      thenExec i (exec .write s) = thenExec .write (exec i s))

/-- What happens to a stream reaches that stream only: bytes delivered come after those that the source
holds (R61, R303), another source may be connected (R71, R293), a sink may change how it answers (R62); no
register or buffer changes.  The events are the model's own (notes/assumptions/2.md), and so is the number
of bytes yet to come that lie before an undefined position (notes/assumptions/6.md). -/
def Obligations.StreamEventsReachStreamsOnly : Prop :=
  ∀ (s : State) (es : List Event) (b : Bytes) (tail : SrcTail),
    let delivered (src : Source) : Source :=
      { bytes := src.bytes ++ b.drop src.skip, tail := tail, skip := src.skip - b.length,
        lost := src.lost }
    step { s with events := .deliver .fsrc b tail :: es } =
      .next { s with events := es, fsrc := delivered s.fsrc } ∧
    step { s with events := .deliver .nsrc b tail :: es } =
      .next { s with events := es, nsrc := delivered s.nsrc } ∧
    (∀ src, step { s with events := .connect .fsrc src :: es } =
      .next { s with events := es, fsrc := src }) ∧
    (∀ src, step { s with events := .connect .nsrc src :: es } =
      .next { s with events := es, nsrc := src }) ∧
    (∀ m, step { s with events := .sink .fsnk m :: es } =
      .next { s with events := es, fsnk := { accepted := s.fsnk.accepted, mode := m } }) ∧
    (∀ m, step { s with events := .sink .nsnk m :: es } =
      .next { s with events := es, nsnk := { accepted := s.nsnk.accepted, mode := m } })

/-! ### The invariant -/

/-- Every step keeps the invariant of the read path (R22, R25, R26, R67, R230, R234, R267, R270).  That
RXBUF holds no byte from RX_CNT on, and none while BUSY, is the model's choice
(notes/assumptions/22.md). -/
def Obligations.StepKeepsReadPathInvariant : Prop :=
  ∀ s t : State, frxInv s.params s.frx → step s = .next t → t.params = s.params ∧ frxInv t.params t.frx

/-- Every step keeps the invariant of the write path (R34, R36, R69, R243, R245, R246).  The capacities of
TXTAIL and TXSET, and when TXBUF is emptied, are the model's choice (notes/assumptions/16.md and 22.md). -/
def Obligations.StepKeepsWritePathInvariant : Prop :=
  ∀ s t : State, ftxInv s.params s.ftx → step s = .next t → ftxInv t.params t.ftx

/-- Every step keeps the invariant of the name/value unit: NVT stays a table that fits (R37, R150, R155,
R157).  That this holds after a failed NV.DEC too, with NV_COUNT the number of its pairs, is the model's
choice (notes/assumptions/8.md and 9.md). -/
def Obligations.StepKeepsTableInvariant : Prop :=
  ∀ s t : State, s.params.legal → nvuInv s.params s.nvu → step s = .next t → nvuInv t.params t.nvu

/-- No step leaves a unit busy while reset is asserted (R290, R292), or changes the build parameters, which
stand in the state by the model's choice (R7; notes/assumptions/15.md). -/
def Obligations.StepKeepsResetInvariant : Prop :=
  ∀ s t : State, blockInv s → step s = .next t → blockInv t ∧ t.params = s.params

/-- The machine after reset meets the invariant (R43). -/
def Obligations.ResetMeetsInvariant : Prop :=
  machineInv State.reset
end

