-- ==== Sys2Proof/Laws/Bits.lean ====
section
/-! SUPPORT. Lemmas of the byte-order primitives and of the four bit-field words. -/

namespace Sys2Proof.Machine

@[simp] theorem be32_length (w : Word) : (be32 w).length = 4 := rfl

theorem be32_ne_nil (w : Word) : be32 w ≠ [] := by simp [be32]

/-- The word assembled from the bytes of a word is that word. -/
theorem bytes_of_word_join (w : Word) :
    (w.extractLsb' 24 8 ++ w.extractLsb' 16 8 ++ w.extractLsb' 8 8 ++ w.extractLsb' 0 8 : BitVec 32)
      = w := by
  apply BitVec.eq_of_getLsbD_eq
  intro i hi
  simp only [BitVec.getLsbD_append, BitVec.getLsbD_extractLsb']
  interval_cases i <;> simp

/-- `BE32(be32(w) ‖ q, 0) = w` (R10). -/
@[simp] theorem be32At_be32_append (w : Word) (q : Bytes) : be32At (be32 w ++ q) 0 = w :=
  bytes_of_word_join w

/-- `BE32(be32(w), 0) = w` (R10). -/
@[simp] theorem be32At_be32 (w : Word) : be32At (be32 w) 0 = w :=
  bytes_of_word_join w

/-- A word read further on in a string is a word of the rest of the string. -/
theorem be32At_append_right (a q : Bytes) (k : Nat) :
    be32At (a ++ q) (a.length + k) = be32At q k := by
  simp only [be32At, List.getD_eq_getElem?_getD, Nat.add_assoc]
  rw [List.getElem?_append_right (by omega), List.getElem?_append_right (by omega),
    List.getElem?_append_right (by omega), List.getElem?_append_right (by omega)]
  simp only [Nat.add_sub_cancel_left]

/-- A word after a word is read at the offset plus 4. -/
@[simp] theorem be32At_be32_skip (w : Word) (q : Bytes) (k : Nat) :
    be32At (be32 w ++ q) (k + 4) = be32At q k := by
  have := be32At_append_right (be32 w) q k
  rwa [be32_length, Nat.add_comm] at this

theorem be32At_take (p : Bytes) (off n : Nat) (h : off + 4 ≤ n) :
    be32At (p.take n) off = be32At p off := by
  simp only [be32At, List.getD_eq_getElem?_getD]
  rw [List.getElem?_take_of_lt (by omega), List.getElem?_take_of_lt (by omega),
    List.getElem?_take_of_lt (by omega), List.getElem?_take_of_lt (by omega)]

theorem be32At_drop (p : Bytes) (k off : Nat) : be32At (p.drop k) off = be32At p (k + off) := by
  simp only [be32At, List.getD_eq_getElem?_getD, List.getElem?_drop, Nat.add_assoc]

/-! ### PACK operations as fields side by side (R138: the low bits of the field's width are used) -/

/-- Bit i of a mask of k ones. -/
theorem getLsbD_mask (n k : Nat) (m : BitVec n) (i : Nat) (h : m = BitVec.setWidth n (BitVec.allOnes k)) :
   m.getLsbD i = (decide (i < n) && decide (i < k)) := by
  subst h; simp [BitVec.getLsbD_setWidth, BitVec.getLsbD_allOnes]

theorem hdrPack_eq (c v t : Word) :
    hdrPack c v t = (c.setWidth 1 ++ v.setWidth 15 ++ t.setWidth 16 : BitVec 32) := by
  apply BitVec.eq_of_getLsbD_eq
  intro i hi
  simp only [hdrPack, BitVec.getLsbD_or, BitVec.getLsbD_shiftLeft, BitVec.getLsbD_and, BitVec.getLsbD_append, BitVec.getLsbD_setWidth,
    getLsbD_mask 32 1 _ _ (by decide : (1#32) = _), getLsbD_mask 32 15 _ _ (by decide : (0x7FFF#32) = _), getLsbD_mask 32 16 _ _ (by decide : (0xFFFF#32) = _)]
  interval_cases i <;> simp

theorem flPack_eq (f l : Word) : flPack f l = (f.setWidth 8 ++ l.setWidth 24 : BitVec 32) := by
  apply BitVec.eq_of_getLsbD_eq
  intro i hi
  simp only [flPack, BitVec.getLsbD_or, BitVec.getLsbD_shiftLeft, BitVec.getLsbD_and, BitVec.getLsbD_append, BitVec.getLsbD_setWidth,
    getLsbD_mask 32 8 _ _ (by decide : (0xFF#32) = _), getLsbD_mask 32 24 _ _ (by decide : (0xFFFFFF#32) = _)]
  interval_cases i <;> simp

theorem sidPack_eq (w : Word) : sidPack w = (0#1 ++ w.setWidth 31 : BitVec 32) := by
  apply BitVec.eq_of_getLsbD_eq
  intro i hi
  simp only [sidPack, BitVec.getLsbD_and, BitVec.getLsbD_append, BitVec.getLsbD_setWidth,
    getLsbD_mask 32 31 _ _ (by decide : (0x7FFFFFFF#32) = _)]
  interval_cases i <;> simp

theorem priPack_eq (w : Word) : priPack w = (w.setWidth 3 ++ 0#29 : BitVec 32) := by
  apply BitVec.eq_of_getLsbD_eq
  intro i hi
  simp only [priPack, BitVec.getLsbD_shiftLeft, BitVec.getLsbD_and, BitVec.getLsbD_append, BitVec.getLsbD_setWidth,
    getLsbD_mask 32 3 _ _ (by decide : (0x7#32) = _)]
  interval_cases i <;> simp

/-! ### What the accessors give of a packed word -/

@[simp] theorem hdrControl_pack (c v t : Word) : hdrControl (hdrPack c v t) = c.setWidth 1 := by
  rw [hdrPack_eq]
  apply BitVec.eq_of_getLsbD_eq
  intro i hi
  simp only [hdrControl, BitVec.getLsbD_append, BitVec.getLsbD_extractLsb', BitVec.getLsbD_setWidth]
  interval_cases i
  simp

@[simp] theorem hdrVersion_pack (c v t : Word) : hdrVersion (hdrPack c v t) = v.setWidth 15 := by
  rw [hdrPack_eq]
  apply BitVec.eq_of_getLsbD_eq
  intro i hi
  simp only [hdrVersion, BitVec.getLsbD_append, BitVec.getLsbD_extractLsb', BitVec.getLsbD_setWidth]
  interval_cases i <;> simp

@[simp] theorem hdrType_pack (c v t : Word) : hdrType (hdrPack c v t) = t.setWidth 16 := by
  rw [hdrPack_eq]
  apply BitVec.eq_of_getLsbD_eq
  intro i hi
  simp only [hdrType, BitVec.getLsbD_append, BitVec.getLsbD_extractLsb', BitVec.getLsbD_setWidth]
  interval_cases i <;> simp

@[simp] theorem flFlags_pack (f l : Word) : flFlags (flPack f l) = f.setWidth 8 := by
  rw [flPack_eq]
  apply BitVec.eq_of_getLsbD_eq
  intro i hi
  simp only [flFlags, BitVec.getLsbD_append, BitVec.getLsbD_extractLsb', BitVec.getLsbD_setWidth]
  interval_cases i <;> simp

@[simp] theorem flLength_pack (f l : Word) : flLength (flPack f l) = l.setWidth 24 := by
  rw [flPack_eq]
  apply BitVec.eq_of_getLsbD_eq
  intro i hi
  simp only [flLength, BitVec.getLsbD_append, BitVec.getLsbD_extractLsb', BitVec.getLsbD_setWidth]
  interval_cases i <;> simp

@[simp] theorem sidUnpack_pack (w : Word) : sidUnpack (sidPack w) = w.setWidth 31 := by
  rw [sidPack_eq]
  apply BitVec.eq_of_getLsbD_eq
  intro i hi
  simp only [sidUnpack, BitVec.getLsbD_append, BitVec.getLsbD_extractLsb', BitVec.getLsbD_setWidth]
  interval_cases i <;> simp

@[simp] theorem priUnpack_pack (w : Word) : priUnpack (priPack w) = w.setWidth 3 := by
  rw [priPack_eq]
  apply BitVec.eq_of_getLsbD_eq
  intro i hi
  simp only [priUnpack, BitVec.getLsbD_append, BitVec.getLsbD_extractLsb', BitVec.getLsbD_setWidth]
  interval_cases i <;> simp

end Sys2Proof.Machine
end

