-- ==== Sys2Proof/Laws/State.lean ====
section
/-! SUPPORT. One lemma per field per update, each true by `rfl`, so that no later proof unfolds a record
update. -/

namespace Sys2Proof.Machine

/-! ### The units acting on the state -/

@[simp] theorem onRx_params (s : State) (f : Frx × Source → Frx × Source) : (onRx s f).params = s.params := rfl
@[simp] theorem onRx_ctrl (s : State) (f : Frx × Source → Frx × Source) : (onRx s f).ctrl = s.ctrl := rfl
@[simp] theorem onRx_frx (s : State) (f : Frx × Source → Frx × Source) : (onRx s f).frx = (f (s.frx, s.fsrc)).1 := rfl
@[simp] theorem onRx_ftx (s : State) (f : Frx × Source → Frx × Source) : (onRx s f).ftx = s.ftx := rfl
@[simp] theorem onRx_nvu (s : State) (f : Frx × Source → Frx × Source) : (onRx s f).nvu = s.nvu := rfl
@[simp] theorem onRx_fsrc (s : State) (f : Frx × Source → Frx × Source) : (onRx s f).fsrc = (f (s.frx, s.fsrc)).2 := rfl
@[simp] theorem onRx_fsnk (s : State) (f : Frx × Source → Frx × Source) : (onRx s f).fsnk = s.fsnk := rfl
@[simp] theorem onRx_nsrc (s : State) (f : Frx × Source → Frx × Source) : (onRx s f).nsrc = s.nsrc := rfl
@[simp] theorem onRx_nsnk (s : State) (f : Frx × Source → Frx × Source) : (onRx s f).nsnk = s.nsnk := rfl
@[simp] theorem onRx_resetLine (s : State) (f : Frx × Source → Frx × Source) : (onRx s f).resetLine = s.resetLine := rfl
@[simp] theorem onRx_pace (s : State) (f : Frx × Source → Frx × Source) : (onRx s f).pace = s.pace := rfl
@[simp] theorem onRx_events (s : State) (f : Frx × Source → Frx × Source) : (onRx s f).events = s.events := rfl
@[simp] theorem onRx_resp (s : State) (f : Frx × Source → Frx × Source) : (onRx s f).resp = s.resp := rfl

@[simp] theorem onTx_params (s : State) (f : Ftx × Sink → Ftx × Sink) : (onTx s f).params = s.params := rfl
@[simp] theorem onTx_ctrl (s : State) (f : Ftx × Sink → Ftx × Sink) : (onTx s f).ctrl = s.ctrl := rfl
@[simp] theorem onTx_frx (s : State) (f : Ftx × Sink → Ftx × Sink) : (onTx s f).frx = s.frx := rfl
@[simp] theorem onTx_ftx (s : State) (f : Ftx × Sink → Ftx × Sink) : (onTx s f).ftx = (f (s.ftx, s.fsnk)).1 := rfl
@[simp] theorem onTx_nvu (s : State) (f : Ftx × Sink → Ftx × Sink) : (onTx s f).nvu = s.nvu := rfl
@[simp] theorem onTx_fsrc (s : State) (f : Ftx × Sink → Ftx × Sink) : (onTx s f).fsrc = s.fsrc := rfl
@[simp] theorem onTx_fsnk (s : State) (f : Ftx × Sink → Ftx × Sink) : (onTx s f).fsnk = (f (s.ftx, s.fsnk)).2 := rfl
@[simp] theorem onTx_nsrc (s : State) (f : Ftx × Sink → Ftx × Sink) : (onTx s f).nsrc = s.nsrc := rfl
@[simp] theorem onTx_nsnk (s : State) (f : Ftx × Sink → Ftx × Sink) : (onTx s f).nsnk = s.nsnk := rfl
@[simp] theorem onTx_resetLine (s : State) (f : Ftx × Sink → Ftx × Sink) : (onTx s f).resetLine = s.resetLine := rfl
@[simp] theorem onTx_pace (s : State) (f : Ftx × Sink → Ftx × Sink) : (onTx s f).pace = s.pace := rfl
@[simp] theorem onTx_events (s : State) (f : Ftx × Sink → Ftx × Sink) : (onTx s f).events = s.events := rfl
@[simp] theorem onTx_resp (s : State) (f : Ftx × Sink → Ftx × Sink) : (onTx s f).resp = s.resp := rfl

@[simp] theorem onNvIn_params (s : State) (f : Nvu × Source → Nvu × Source) : (onNvIn s f).params = s.params := rfl
@[simp] theorem onNvIn_ctrl (s : State) (f : Nvu × Source → Nvu × Source) : (onNvIn s f).ctrl = s.ctrl := rfl
@[simp] theorem onNvIn_frx (s : State) (f : Nvu × Source → Nvu × Source) : (onNvIn s f).frx = s.frx := rfl
@[simp] theorem onNvIn_ftx (s : State) (f : Nvu × Source → Nvu × Source) : (onNvIn s f).ftx = s.ftx := rfl
@[simp] theorem onNvIn_nvu (s : State) (f : Nvu × Source → Nvu × Source) : (onNvIn s f).nvu = (f (s.nvu, s.nsrc)).1 := rfl
@[simp] theorem onNvIn_fsrc (s : State) (f : Nvu × Source → Nvu × Source) : (onNvIn s f).fsrc = s.fsrc := rfl
@[simp] theorem onNvIn_fsnk (s : State) (f : Nvu × Source → Nvu × Source) : (onNvIn s f).fsnk = s.fsnk := rfl
@[simp] theorem onNvIn_nsrc (s : State) (f : Nvu × Source → Nvu × Source) : (onNvIn s f).nsrc = (f (s.nvu, s.nsrc)).2 := rfl
@[simp] theorem onNvIn_nsnk (s : State) (f : Nvu × Source → Nvu × Source) : (onNvIn s f).nsnk = s.nsnk := rfl
@[simp] theorem onNvIn_resetLine (s : State) (f : Nvu × Source → Nvu × Source) : (onNvIn s f).resetLine = s.resetLine := rfl
@[simp] theorem onNvIn_pace (s : State) (f : Nvu × Source → Nvu × Source) : (onNvIn s f).pace = s.pace := rfl
@[simp] theorem onNvIn_events (s : State) (f : Nvu × Source → Nvu × Source) : (onNvIn s f).events = s.events := rfl
@[simp] theorem onNvIn_resp (s : State) (f : Nvu × Source → Nvu × Source) : (onNvIn s f).resp = s.resp := rfl

@[simp] theorem onNvOut_params (s : State) (f : Nvu × Sink → Nvu × Sink) : (onNvOut s f).params = s.params := rfl
@[simp] theorem onNvOut_ctrl (s : State) (f : Nvu × Sink → Nvu × Sink) : (onNvOut s f).ctrl = s.ctrl := rfl
@[simp] theorem onNvOut_frx (s : State) (f : Nvu × Sink → Nvu × Sink) : (onNvOut s f).frx = s.frx := rfl
@[simp] theorem onNvOut_ftx (s : State) (f : Nvu × Sink → Nvu × Sink) : (onNvOut s f).ftx = s.ftx := rfl
@[simp] theorem onNvOut_nvu (s : State) (f : Nvu × Sink → Nvu × Sink) : (onNvOut s f).nvu = (f (s.nvu, s.nsnk)).1 := rfl
@[simp] theorem onNvOut_fsrc (s : State) (f : Nvu × Sink → Nvu × Sink) : (onNvOut s f).fsrc = s.fsrc := rfl
@[simp] theorem onNvOut_fsnk (s : State) (f : Nvu × Sink → Nvu × Sink) : (onNvOut s f).fsnk = s.fsnk := rfl
@[simp] theorem onNvOut_nsrc (s : State) (f : Nvu × Sink → Nvu × Sink) : (onNvOut s f).nsrc = s.nsrc := rfl
@[simp] theorem onNvOut_nsnk (s : State) (f : Nvu × Sink → Nvu × Sink) : (onNvOut s f).nsnk = (f (s.nvu, s.nsnk)).2 := rfl
@[simp] theorem onNvOut_resetLine (s : State) (f : Nvu × Sink → Nvu × Sink) : (onNvOut s f).resetLine = s.resetLine := rfl
@[simp] theorem onNvOut_pace (s : State) (f : Nvu × Sink → Nvu × Sink) : (onNvOut s f).pace = s.pace := rfl
@[simp] theorem onNvOut_events (s : State) (f : Nvu × Sink → Nvu × Sink) : (onNvOut s f).events = s.events := rfl
@[simp] theorem onNvOut_resp (s : State) (f : Nvu × Sink → Nvu × Sink) : (onNvOut s f).resp = s.resp := rfl

@[simp] theorem respond_params (r : HostResp) (s : State) : (respond r s).params = s.params := rfl
@[simp] theorem respond_ctrl (r : HostResp) (s : State) : (respond r s).ctrl = s.ctrl := rfl
@[simp] theorem respond_frx (r : HostResp) (s : State) : (respond r s).frx = s.frx := rfl
@[simp] theorem respond_ftx (r : HostResp) (s : State) : (respond r s).ftx = s.ftx := rfl
@[simp] theorem respond_nvu (r : HostResp) (s : State) : (respond r s).nvu = s.nvu := rfl
@[simp] theorem respond_fsrc (r : HostResp) (s : State) : (respond r s).fsrc = s.fsrc := rfl
@[simp] theorem respond_fsnk (r : HostResp) (s : State) : (respond r s).fsnk = s.fsnk := rfl
@[simp] theorem respond_nsrc (r : HostResp) (s : State) : (respond r s).nsrc = s.nsrc := rfl
@[simp] theorem respond_nsnk (r : HostResp) (s : State) : (respond r s).nsnk = s.nsnk := rfl
@[simp] theorem respond_resetLine (r : HostResp) (s : State) : (respond r s).resetLine = s.resetLine := rfl
@[simp] theorem respond_pace (r : HostResp) (s : State) : (respond r s).pace = s.pace := rfl
@[simp] theorem respond_events (r : HostResp) (s : State) : (respond r s).events = s.events := rfl
@[simp] theorem respond_resp (r : HostResp) (s : State) : (respond r s).resp = s.resp ++ [r] := rfl

@[simp] theorem encodeOp_params (enc : Encoder) (s : State) : (encodeOp enc s).params = s.params := rfl
@[simp] theorem encodeOp_ctrl (enc : Encoder) (s : State) : (encodeOp enc s).ctrl = s.ctrl := rfl
@[simp] theorem encodeOp_frx (enc : Encoder) (s : State) : (encodeOp enc s).frx = s.frx := rfl
@[simp] theorem encodeOp_ftx (enc : Encoder) (s : State) : (encodeOp enc s).ftx = ftxEncode s.params enc s.ftx := rfl
@[simp] theorem encodeOp_nvu (enc : Encoder) (s : State) : (encodeOp enc s).nvu = s.nvu := rfl
@[simp] theorem encodeOp_fsrc (enc : Encoder) (s : State) : (encodeOp enc s).fsrc = s.fsrc := rfl
@[simp] theorem encodeOp_fsnk (enc : Encoder) (s : State) : (encodeOp enc s).fsnk = s.fsnk := rfl
@[simp] theorem encodeOp_nsrc (enc : Encoder) (s : State) : (encodeOp enc s).nsrc = s.nsrc := rfl
@[simp] theorem encodeOp_nsnk (enc : Encoder) (s : State) : (encodeOp enc s).nsnk = s.nsnk := rfl
@[simp] theorem encodeOp_resetLine (enc : Encoder) (s : State) : (encodeOp enc s).resetLine = s.resetLine := rfl
@[simp] theorem encodeOp_pace (enc : Encoder) (s : State) : (encodeOp enc s).pace = s.pace := rfl
@[simp] theorem encodeOp_events (enc : Encoder) (s : State) : (encodeOp enc s).events = s.events := rfl
@[simp] theorem encodeOp_resp (enc : Encoder) (s : State) : (encodeOp enc s).resp = s.resp := rfl

@[simp] theorem resetBlock_params (s : State) : (resetBlock s).params = s.params := rfl
@[simp] theorem resetBlock_ctrl (s : State) : (resetBlock s).ctrl = s.params.strictReset := rfl
@[simp] theorem resetBlock_frx (s : State) : (resetBlock s).frx = Frx.reset s.frx.free := rfl
@[simp] theorem resetBlock_ftx (s : State) : (resetBlock s).ftx = Ftx.reset s.ftx.free := rfl
@[simp] theorem resetBlock_nvu (s : State) : (resetBlock s).nvu = Nvu.reset s.nvu.free := rfl
@[simp] theorem resetBlock_fsrc (s : State) : (resetBlock s).fsrc = if s.frx.status.busy = true then loseSource s.fsrc else s.fsrc := rfl
@[simp] theorem resetBlock_fsnk (s : State) : (resetBlock s).fsnk = resetFsnk s.ftx s.fsnk := rfl
@[simp] theorem resetBlock_nsrc (s : State) : (resetBlock s).nsrc = resetNsrc s.nvu s.nsrc := rfl
@[simp] theorem resetBlock_nsnk (s : State) : (resetBlock s).nsnk = resetNsnk s.nvu s.nsnk := rfl
@[simp] theorem resetBlock_resetLine (s : State) : (resetBlock s).resetLine = s.resetLine := rfl
@[simp] theorem resetBlock_pace (s : State) : (resetBlock s).pace = s.pace := rfl
@[simp] theorem resetBlock_events (s : State) : (resetBlock s).events = s.events := rfl
@[simp] theorem resetBlock_resp (s : State) : (resetBlock s).resp = s.resp := rfl

/-! ### Reset -/

@[simp] theorem frxReset_fsm (n : Nat) : (Frx.reset n).fsm = .awaitingHeader := rfl
@[simp] theorem frxReset_status (n : Nat) : (Frx.reset n).status = Status.zero := rfl
@[simp] theorem frxReset_eos (n : Nat) : (Frx.reset n).eos = false := rfl
@[simp] theorem frxReset_hwv (n : Nat) : (Frx.reset n).hwv = false := rfl
@[simp] theorem frxReset_flv (n : Nat) : (Frx.reset n).flv = false := rfl
@[simp] theorem frxReset_cnt (n : Nat) : (Frx.reset n).cnt = 0 := rfl
@[simp] theorem frxReset_buf (n : Nat) : (Frx.reset n).buf = [] := rfl
@[simp] theorem frxReset_hw (n : Nat) : (Frx.reset n).hw = Config.freeBits 32 .rxHw n := rfl
@[simp] theorem frxReset_fl (n : Nat) : (Frx.reset n).fl = Config.freeBits 32 .rxFl n := rfl
@[simp] theorem frxReset_f0 (n : Nat) : (Frx.reset n).f0 = Config.freeBits 32 .rxF0 n := rfl
@[simp] theorem frxReset_f1 (n : Nat) : (Frx.reset n).f1 = Config.freeBits 32 .rxF1 n := rfl
@[simp] theorem frxReset_f2 (n : Nat) : (Frx.reset n).f2 = Config.freeBits 32 .rxF2 n := rfl
@[simp] theorem frxReset_tailOff (n : Nat) : (Frx.reset n).tailOff = Config.freeBits 24 .rxTailOff n := rfl
@[simp] theorem frxReset_tailLen (n : Nat) : (Frx.reset n).tailLen = Config.freeBits 24 .rxTailLen n := rfl
@[simp] theorem frxReset_free (n : Nat) : (Frx.reset n).free = n + 1 := rfl

@[simp] theorem ftxReset_tail (n : Nat) : (Ftx.reset n).tail = [] := rfl
@[simp] theorem ftxReset_set (n : Nat) : (Ftx.reset n).set = [] := rfl
@[simp] theorem ftxReset_status (n : Nat) : (Ftx.reset n).status = Status.zero := rfl
@[simp] theorem ftxReset_buf (n : Nat) : (Ftx.reset n).buf = [] := rfl
@[simp] theorem ftxReset_emitting (n : Nat) : (Ftx.reset n).emitting = false := rfl
@[simp] theorem ftxReset_type (n : Nat) : (Ftx.reset n).type = Config.freeBits 16 .txType n := rfl
@[simp] theorem ftxReset_version (n : Nat) : (Ftx.reset n).version = Config.freeBits 15 .txVersion n := rfl
@[simp] theorem ftxReset_flags (n : Nat) : (Ftx.reset n).flags = Config.freeBits 8 .txFlags n := rfl
@[simp] theorem ftxReset_f0 (n : Nat) : (Ftx.reset n).f0 = Config.freeBits 32 .txF0 n := rfl
@[simp] theorem ftxReset_f1 (n : Nat) : (Ftx.reset n).f1 = Config.freeBits 32 .txF1 n := rfl
@[simp] theorem ftxReset_f2 (n : Nat) : (Ftx.reset n).f2 = Config.freeBits 32 .txF2 n := rfl
@[simp] theorem ftxReset_tailLen (n : Nat) : (Ftx.reset n).tailLen = Config.freeBits 32 .txTailLen n := rfl
@[simp] theorem ftxReset_hw (n : Nat) : (Ftx.reset n).hw = Config.freeBits 32 .txHw n := rfl
@[simp] theorem ftxReset_fl (n : Nat) : (Ftx.reset n).fl = Config.freeBits 32 .txFl n := rfl
@[simp] theorem ftxReset_len (n : Nat) : (Ftx.reset n).len = Config.freeBits 36 .txLen n := rfl
@[simp] theorem ftxReset_written (n : Nat) : (Ftx.reset n).written = Config.freeBits 25 .txWritten n := rfl
@[simp] theorem ftxReset_free (n : Nat) : (Ftx.reset n).free = n + 1 := rfl

@[simp] theorem nvuReset_nvt (n : Nat) : (Nvu.reset n).nvt = [] := rfl
@[simp] theorem nvuReset_count (n : Nat) : (Nvu.reset n).count = 0 := rfl
@[simp] theorem nvuReset_bytes (n : Nat) : (Nvu.reset n).bytes = 0 := rfl
@[simp] theorem nvuReset_status (n : Nat) : (Nvu.reset n).status = Status.zero := rfl
@[simp] theorem nvuReset_dir (n : Nat) : (Nvu.reset n).dir = false := rfl
@[simp] theorem nvuReset_phase (n : Nat) : (Nvu.reset n).phase = .idle := rfl
@[simp] theorem nvuReset_total (n : Nat) : (Nvu.reset n).total = 0 := rfl
@[simp] theorem nvuReset_strict (n : Nat) : (Nvu.reset n).strict = false := rfl
@[simp] theorem nvuReset_free (n : Nat) : (Nvu.reset n).free = n + 1 := rfl

/-! ### The read path -/

@[simp] theorem frxRaise_fsm (e : OpError) (x : Frx) : (frxRaise e x).fsm = .awaitingHeader := rfl
@[simp] theorem frxRaise_status (e : OpError) (x : Frx) : (frxRaise e x).status = statusRaised e := rfl
@[simp] theorem frxRaise_eos (e : OpError) (x : Frx) : (frxRaise e x).eos = decide (e = .endOfStream) := rfl
@[simp] theorem frxRaise_hwv (e : OpError) (x : Frx) : (frxRaise e x).hwv = x.hwv := rfl
@[simp] theorem frxRaise_flv (e : OpError) (x : Frx) : (frxRaise e x).flv = x.flv := rfl
@[simp] theorem frxRaise_hw (e : OpError) (x : Frx) : (frxRaise e x).hw = x.hw := rfl
@[simp] theorem frxRaise_fl (e : OpError) (x : Frx) : (frxRaise e x).fl = x.fl := rfl
@[simp] theorem frxRaise_cnt (e : OpError) (x : Frx) : (frxRaise e x).cnt = x.cnt := rfl
@[simp] theorem frxRaise_f0 (e : OpError) (x : Frx) : (frxRaise e x).f0 = x.f0 := rfl
@[simp] theorem frxRaise_f1 (e : OpError) (x : Frx) : (frxRaise e x).f1 = x.f1 := rfl
@[simp] theorem frxRaise_f2 (e : OpError) (x : Frx) : (frxRaise e x).f2 = x.f2 := rfl
@[simp] theorem frxRaise_tailOff (e : OpError) (x : Frx) : (frxRaise e x).tailOff = x.tailOff := rfl
@[simp] theorem frxRaise_tailLen (e : OpError) (x : Frx) : (frxRaise e x).tailLen = x.tailLen := rfl
@[simp] theorem frxRaise_buf (e : OpError) (x : Frx) : (frxRaise e x).buf = x.buf := rfl
@[simp] theorem frxRaise_free (e : OpError) (x : Frx) : (frxRaise e x).free = x.free := rfl

@[simp] theorem frxAccept_fsm (x : Frx) : (frxAccept x).fsm = .awaitingHeader := rfl
@[simp] theorem frxAccept_status (x : Frx) : (frxAccept x).status = statusAccepted := rfl
@[simp] theorem frxAccept_eos (x : Frx) : (frxAccept x).eos = false := rfl
@[simp] theorem frxAccept_hwv (x : Frx) : (frxAccept x).hwv = false := rfl
@[simp] theorem frxAccept_flv (x : Frx) : (frxAccept x).flv = false := rfl
@[simp] theorem frxAccept_hw (x : Frx) : (frxAccept x).hw = Config.freeBits 32 .rxHw x.free := rfl
@[simp] theorem frxAccept_fl (x : Frx) : (frxAccept x).fl = Config.freeBits 32 .rxFl x.free := rfl
@[simp] theorem frxAccept_cnt (x : Frx) : (frxAccept x).cnt = 0 := rfl
@[simp] theorem frxAccept_f0 (x : Frx) : (frxAccept x).f0 = x.f0 := rfl
@[simp] theorem frxAccept_f1 (x : Frx) : (frxAccept x).f1 = x.f1 := rfl
@[simp] theorem frxAccept_f2 (x : Frx) : (frxAccept x).f2 = x.f2 := rfl
@[simp] theorem frxAccept_tailOff (x : Frx) : (frxAccept x).tailOff = x.tailOff := rfl
@[simp] theorem frxAccept_tailLen (x : Frx) : (frxAccept x).tailLen = x.tailLen := rfl
@[simp] theorem frxAccept_buf (x : Frx) : (frxAccept x).buf = [] := rfl
@[simp] theorem frxAccept_free (x : Frx) : (frxAccept x).free = x.free + 1 := rfl

@[simp] theorem frxStore_fsm (b : Bytes) (x : Frx) : (frxStore b x).fsm = x.fsm := rfl
@[simp] theorem frxStore_status (b : Bytes) (x : Frx) : (frxStore b x).status = x.status := rfl
@[simp] theorem frxStore_eos (b : Bytes) (x : Frx) : (frxStore b x).eos = x.eos := rfl
@[simp] theorem frxStore_hwv (b : Bytes) (x : Frx) : (frxStore b x).hwv = x.hwv := rfl
@[simp] theorem frxStore_flv (b : Bytes) (x : Frx) : (frxStore b x).flv = x.flv := rfl
@[simp] theorem frxStore_hw (b : Bytes) (x : Frx) : (frxStore b x).hw = x.hw := rfl
@[simp] theorem frxStore_fl (b : Bytes) (x : Frx) : (frxStore b x).fl = x.fl := rfl
@[simp] theorem frxStore_cnt (b : Bytes) (x : Frx) : (frxStore b x).cnt = BitVec.ofNat 24 b.length := rfl
@[simp] theorem frxStore_f0 (b : Bytes) (x : Frx) : (frxStore b x).f0 = x.f0 := rfl
@[simp] theorem frxStore_f1 (b : Bytes) (x : Frx) : (frxStore b x).f1 = x.f1 := rfl
@[simp] theorem frxStore_f2 (b : Bytes) (x : Frx) : (frxStore b x).f2 = x.f2 := rfl
@[simp] theorem frxStore_tailOff (b : Bytes) (x : Frx) : (frxStore b x).tailOff = x.tailOff := rfl
@[simp] theorem frxStore_tailLen (b : Bytes) (x : Frx) : (frxStore b x).tailLen = x.tailLen := rfl
@[simp] theorem frxStore_buf (b : Bytes) (x : Frx) : (frxStore b x).buf = memWrite x.buf 0 b := rfl
@[simp] theorem frxStore_free (b : Bytes) (x : Frx) : (frxStore b x).free = x.free := rfl

/-! ### The write path -/

@[simp] theorem ftxRaise_type (e : OpError) (x : Ftx) : (ftxRaise e x).type = x.type := rfl
@[simp] theorem ftxRaise_version (e : OpError) (x : Ftx) : (ftxRaise e x).version = x.version := rfl
@[simp] theorem ftxRaise_flags (e : OpError) (x : Ftx) : (ftxRaise e x).flags = x.flags := rfl
@[simp] theorem ftxRaise_f0 (e : OpError) (x : Ftx) : (ftxRaise e x).f0 = x.f0 := rfl
@[simp] theorem ftxRaise_f1 (e : OpError) (x : Ftx) : (ftxRaise e x).f1 = x.f1 := rfl
@[simp] theorem ftxRaise_f2 (e : OpError) (x : Ftx) : (ftxRaise e x).f2 = x.f2 := rfl
@[simp] theorem ftxRaise_tailLen (e : OpError) (x : Ftx) : (ftxRaise e x).tailLen = x.tailLen := rfl
@[simp] theorem ftxRaise_tail (e : OpError) (x : Ftx) : (ftxRaise e x).tail = x.tail := rfl
@[simp] theorem ftxRaise_set (e : OpError) (x : Ftx) : (ftxRaise e x).set = x.set := rfl
@[simp] theorem ftxRaise_hw (e : OpError) (x : Ftx) : (ftxRaise e x).hw = if x.emitting then x.hw else Config.freeBits 32 .txHw x.free := rfl
@[simp] theorem ftxRaise_fl (e : OpError) (x : Ftx) : (ftxRaise e x).fl = if x.emitting then x.fl else Config.freeBits 32 .txFl x.free := rfl
@[simp] theorem ftxRaise_len (e : OpError) (x : Ftx) : (ftxRaise e x).len = x.len := rfl
@[simp] theorem ftxRaise_written (e : OpError) (x : Ftx) : (ftxRaise e x).written = Config.freeBits 25 .txWritten x.free := rfl
@[simp] theorem ftxRaise_status (e : OpError) (x : Ftx) : (ftxRaise e x).status = statusRaised e := rfl
@[simp] theorem ftxRaise_buf (e : OpError) (x : Ftx) : (ftxRaise e x).buf = [] := rfl
@[simp] theorem ftxRaise_emitting (e : OpError) (x : Ftx) : (ftxRaise e x).emitting = false := rfl
@[simp] theorem ftxRaise_free (e : OpError) (x : Ftx) : (ftxRaise e x).free = x.free + 1 := rfl

@[simp] theorem ftxAccept_type (x : Ftx) : (ftxAccept x).type = x.type := rfl
@[simp] theorem ftxAccept_version (x : Ftx) : (ftxAccept x).version = x.version := rfl
@[simp] theorem ftxAccept_flags (x : Ftx) : (ftxAccept x).flags = x.flags := rfl
@[simp] theorem ftxAccept_f0 (x : Ftx) : (ftxAccept x).f0 = x.f0 := rfl
@[simp] theorem ftxAccept_f1 (x : Ftx) : (ftxAccept x).f1 = x.f1 := rfl
@[simp] theorem ftxAccept_f2 (x : Ftx) : (ftxAccept x).f2 = x.f2 := rfl
@[simp] theorem ftxAccept_tailLen (x : Ftx) : (ftxAccept x).tailLen = x.tailLen := rfl
@[simp] theorem ftxAccept_tail (x : Ftx) : (ftxAccept x).tail = x.tail := rfl
@[simp] theorem ftxAccept_set (x : Ftx) : (ftxAccept x).set = x.set := rfl
@[simp] theorem ftxAccept_hw (x : Ftx) : (ftxAccept x).hw = x.hw := rfl
@[simp] theorem ftxAccept_fl (x : Ftx) : (ftxAccept x).fl = x.fl := rfl
@[simp] theorem ftxAccept_len (x : Ftx) : (ftxAccept x).len = x.len := rfl
@[simp] theorem ftxAccept_written (x : Ftx) : (ftxAccept x).written = x.written := rfl
@[simp] theorem ftxAccept_status (x : Ftx) : (ftxAccept x).status = statusAccepted := rfl
@[simp] theorem ftxAccept_buf (x : Ftx) : (ftxAccept x).buf = x.buf := rfl
@[simp] theorem ftxAccept_emitting (x : Ftx) : (ftxAccept x).emitting = false := rfl
@[simp] theorem ftxAccept_free (x : Ftx) : (ftxAccept x).free = x.free := rfl

@[simp] theorem ftxSetLen_type (n : Nat) (x : Ftx) : (ftxSetLen n x).type = x.type := rfl
@[simp] theorem ftxSetLen_version (n : Nat) (x : Ftx) : (ftxSetLen n x).version = x.version := rfl
@[simp] theorem ftxSetLen_flags (n : Nat) (x : Ftx) : (ftxSetLen n x).flags = x.flags := rfl
@[simp] theorem ftxSetLen_f0 (n : Nat) (x : Ftx) : (ftxSetLen n x).f0 = x.f0 := rfl
@[simp] theorem ftxSetLen_f1 (n : Nat) (x : Ftx) : (ftxSetLen n x).f1 = x.f1 := rfl
@[simp] theorem ftxSetLen_f2 (n : Nat) (x : Ftx) : (ftxSetLen n x).f2 = x.f2 := rfl
@[simp] theorem ftxSetLen_tailLen (n : Nat) (x : Ftx) : (ftxSetLen n x).tailLen = x.tailLen := rfl
@[simp] theorem ftxSetLen_tail (n : Nat) (x : Ftx) : (ftxSetLen n x).tail = x.tail := rfl
@[simp] theorem ftxSetLen_set (n : Nat) (x : Ftx) : (ftxSetLen n x).set = x.set := rfl
@[simp] theorem ftxSetLen_hw (n : Nat) (x : Ftx) : (ftxSetLen n x).hw = x.hw := rfl
@[simp] theorem ftxSetLen_fl (n : Nat) (x : Ftx) : (ftxSetLen n x).fl = x.fl := rfl
@[simp] theorem ftxSetLen_len (n : Nat) (x : Ftx) : (ftxSetLen n x).len = BitVec.ofNat 36 n := rfl
@[simp] theorem ftxSetLen_written (n : Nat) (x : Ftx) : (ftxSetLen n x).written = x.written := rfl
@[simp] theorem ftxSetLen_status (n : Nat) (x : Ftx) : (ftxSetLen n x).status = x.status := rfl
@[simp] theorem ftxSetLen_buf (n : Nat) (x : Ftx) : (ftxSetLen n x).buf = x.buf := rfl
@[simp] theorem ftxSetLen_emitting (n : Nat) (x : Ftx) : (ftxSetLen n x).emitting = x.emitting := rfl
@[simp] theorem ftxSetLen_free (n : Nat) (x : Ftx) : (ftxSetLen n x).free = x.free := rfl

@[simp] theorem ftxBuild_type (enc : Encoder) (x : Ftx) : (ftxBuild enc x).type = x.type := rfl
@[simp] theorem ftxBuild_version (enc : Encoder) (x : Ftx) : (ftxBuild enc x).version = x.version := rfl
@[simp] theorem ftxBuild_flags (enc : Encoder) (x : Ftx) : (ftxBuild enc x).flags = x.flags := rfl
@[simp] theorem ftxBuild_f0 (enc : Encoder) (x : Ftx) : (ftxBuild enc x).f0 = x.f0 := rfl
@[simp] theorem ftxBuild_f1 (enc : Encoder) (x : Ftx) : (ftxBuild enc x).f1 = x.f1 := rfl
@[simp] theorem ftxBuild_f2 (enc : Encoder) (x : Ftx) : (ftxBuild enc x).f2 = x.f2 := rfl
@[simp] theorem ftxBuild_tailLen (enc : Encoder) (x : Ftx) : (ftxBuild enc x).tailLen = x.tailLen := rfl
@[simp] theorem ftxBuild_tail (enc : Encoder) (x : Ftx) : (ftxBuild enc x).tail = x.tail := rfl
@[simp] theorem ftxBuild_set (enc : Encoder) (x : Ftx) : (ftxBuild enc x).set = x.set := rfl
@[simp] theorem ftxBuild_hw (enc : Encoder) (x : Ftx) : (ftxBuild enc x).hw = hdrPack 1 (x.version.setWidth 32) (x.type.setWidth 32) := rfl
@[simp] theorem ftxBuild_fl (enc : Encoder) (x : Ftx) : (ftxBuild enc x).fl = flPack (x.flags.setWidth 32) (BitVec.ofNat 32 (enc.len x)) := rfl
@[simp] theorem ftxBuild_len (enc : Encoder) (x : Ftx) : (ftxBuild enc x).len = x.len := rfl
@[simp] theorem ftxBuild_written (enc : Encoder) (x : Ftx) : (ftxBuild enc x).written = x.written := rfl
@[simp] theorem ftxBuild_status (enc : Encoder) (x : Ftx) : (ftxBuild enc x).status = x.status := rfl
@[simp] theorem ftxBuild_buf (enc : Encoder) (x : Ftx) : (ftxBuild enc x).buf = memWrite [] 0 (enc.payload x) := rfl
@[simp] theorem ftxBuild_emitting (enc : Encoder) (x : Ftx) : (ftxBuild enc x).emitting = true := rfl
@[simp] theorem ftxBuild_free (enc : Encoder) (x : Ftx) : (ftxBuild enc x).free = x.free + 1 := rfl

@[simp] theorem ftxSucceed_type (x : Ftx) : (ftxSucceed x).type = x.type := rfl
@[simp] theorem ftxSucceed_version (x : Ftx) : (ftxSucceed x).version = x.version := rfl
@[simp] theorem ftxSucceed_flags (x : Ftx) : (ftxSucceed x).flags = x.flags := rfl
@[simp] theorem ftxSucceed_f0 (x : Ftx) : (ftxSucceed x).f0 = x.f0 := rfl
@[simp] theorem ftxSucceed_f1 (x : Ftx) : (ftxSucceed x).f1 = x.f1 := rfl
@[simp] theorem ftxSucceed_f2 (x : Ftx) : (ftxSucceed x).f2 = x.f2 := rfl
@[simp] theorem ftxSucceed_tailLen (x : Ftx) : (ftxSucceed x).tailLen = x.tailLen := rfl
@[simp] theorem ftxSucceed_tail (x : Ftx) : (ftxSucceed x).tail = x.tail := rfl
@[simp] theorem ftxSucceed_set (x : Ftx) : (ftxSucceed x).set = x.set := rfl
@[simp] theorem ftxSucceed_hw (x : Ftx) : (ftxSucceed x).hw = x.hw := rfl
@[simp] theorem ftxSucceed_fl (x : Ftx) : (ftxSucceed x).fl = x.fl := rfl
@[simp] theorem ftxSucceed_len (x : Ftx) : (ftxSucceed x).len = x.len := rfl
@[simp] theorem ftxSucceed_written (x : Ftx) : (ftxSucceed x).written = BitVec.ofNat 25 (8 + x.len.toNat) := rfl
@[simp] theorem ftxSucceed_status (x : Ftx) : (ftxSucceed x).status = statusSucceeded := rfl
@[simp] theorem ftxSucceed_buf (x : Ftx) : (ftxSucceed x).buf = [] := rfl
@[simp] theorem ftxSucceed_emitting (x : Ftx) : (ftxSucceed x).emitting = false := rfl
@[simp] theorem ftxSucceed_free (x : Ftx) : (ftxSucceed x).free = x.free := rfl

/-! ### The name/value unit -/

@[simp] theorem nvFinishDec_nvt (x : Nvu) : (nvFinishDec x).nvt = x.nvt := rfl
@[simp] theorem nvFinishDec_count (x : Nvu) : (nvFinishDec x).count = BitVec.ofNat 32 x.nvt.length := rfl
@[simp] theorem nvFinishDec_bytes (x : Nvu) : (nvFinishDec x).bytes = BitVec.ofNat 66 x.total := rfl
@[simp] theorem nvFinishDec_status (x : Nvu) : (nvFinishDec x).status = statusSucceeded := rfl
@[simp] theorem nvFinishDec_dir (x : Nvu) : (nvFinishDec x).dir = x.dir := rfl
@[simp] theorem nvFinishDec_phase (x : Nvu) : (nvFinishDec x).phase = .idle := rfl
@[simp] theorem nvFinishDec_total (x : Nvu) : (nvFinishDec x).total = x.total := rfl
@[simp] theorem nvFinishDec_strict (x : Nvu) : (nvFinishDec x).strict = x.strict := rfl
@[simp] theorem nvFinishDec_free (x : Nvu) : (nvFinishDec x).free = x.free := rfl

@[simp] theorem nvFinishEnc_nvt (x : Nvu) : (nvFinishEnc x).nvt = x.nvt := rfl
@[simp] theorem nvFinishEnc_count (x : Nvu) : (nvFinishEnc x).count = x.count := rfl
@[simp] theorem nvFinishEnc_bytes (x : Nvu) : (nvFinishEnc x).bytes = BitVec.ofNat 66 x.total := rfl
@[simp] theorem nvFinishEnc_status (x : Nvu) : (nvFinishEnc x).status = statusSucceeded := rfl
@[simp] theorem nvFinishEnc_dir (x : Nvu) : (nvFinishEnc x).dir = x.dir := rfl
@[simp] theorem nvFinishEnc_phase (x : Nvu) : (nvFinishEnc x).phase = .idle := rfl
@[simp] theorem nvFinishEnc_total (x : Nvu) : (nvFinishEnc x).total = x.total := rfl
@[simp] theorem nvFinishEnc_strict (x : Nvu) : (nvFinishEnc x).strict = x.strict := rfl
@[simp] theorem nvFinishEnc_free (x : Nvu) : (nvFinishEnc x).free = x.free := rfl

@[simp] theorem nvAcceptDec_nvt (b : Bool) (x : Nvu) : (nvAcceptDec b x).nvt = [] := rfl
@[simp] theorem nvAcceptDec_count (b : Bool) (x : Nvu) : (nvAcceptDec b x).count = x.count := rfl
@[simp] theorem nvAcceptDec_bytes (b : Bool) (x : Nvu) : (nvAcceptDec b x).bytes = x.bytes := rfl
@[simp] theorem nvAcceptDec_status (b : Bool) (x : Nvu) : (nvAcceptDec b x).status = statusAccepted := rfl
@[simp] theorem nvAcceptDec_dir (b : Bool) (x : Nvu) : (nvAcceptDec b x).dir = false := rfl
@[simp] theorem nvAcceptDec_phase (b : Bool) (x : Nvu) : (nvAcceptDec b x).phase = .decCount := rfl
@[simp] theorem nvAcceptDec_total (b : Bool) (x : Nvu) : (nvAcceptDec b x).total = 0 := rfl
@[simp] theorem nvAcceptDec_strict (b : Bool) (x : Nvu) : (nvAcceptDec b x).strict = b := rfl
@[simp] theorem nvAcceptDec_free (b : Bool) (x : Nvu) : (nvAcceptDec b x).free = x.free + 1 := rfl

@[simp] theorem nvAcceptEnc_nvt (x : Nvu) : (nvAcceptEnc x).nvt = x.nvt := rfl
@[simp] theorem nvAcceptEnc_count (x : Nvu) : (nvAcceptEnc x).count = x.count := rfl
@[simp] theorem nvAcceptEnc_bytes (x : Nvu) : (nvAcceptEnc x).bytes = x.bytes := rfl
@[simp] theorem nvAcceptEnc_status (x : Nvu) : (nvAcceptEnc x).status = statusAccepted := rfl
@[simp] theorem nvAcceptEnc_dir (x : Nvu) : (nvAcceptEnc x).dir = true := rfl
@[simp] theorem nvAcceptEnc_phase (x : Nvu) : (nvAcceptEnc x).phase = .enc (be32 x.count :: pairPieces (nvOut x)) := rfl
@[simp] theorem nvAcceptEnc_total (x : Nvu) : (nvAcceptEnc x).total = blockSize (nvOut x) := rfl
@[simp] theorem nvAcceptEnc_strict (x : Nvu) : (nvAcceptEnc x).strict = x.strict := rfl
@[simp] theorem nvAcceptEnc_free (x : Nvu) : (nvAcceptEnc x).free = x.free := rfl

@[simp] theorem nvRaiseEnc_nvt (e : OpError) (x : Nvu) : (nvRaiseEnc e x).nvt = x.nvt := rfl
@[simp] theorem nvRaiseEnc_count (e : OpError) (x : Nvu) : (nvRaiseEnc e x).count = x.count := rfl
@[simp] theorem nvRaiseEnc_bytes (e : OpError) (x : Nvu) : (nvRaiseEnc e x).bytes = Config.freeBits 66 .nvBytes x.free := rfl
@[simp] theorem nvRaiseEnc_status (e : OpError) (x : Nvu) : (nvRaiseEnc e x).status = statusRaised e := rfl
@[simp] theorem nvRaiseEnc_dir (e : OpError) (x : Nvu) : (nvRaiseEnc e x).dir = x.dir := rfl
@[simp] theorem nvRaiseEnc_phase (e : OpError) (x : Nvu) : (nvRaiseEnc e x).phase = .idle := rfl
@[simp] theorem nvRaiseEnc_total (e : OpError) (x : Nvu) : (nvRaiseEnc e x).total = x.total := rfl
@[simp] theorem nvRaiseEnc_strict (e : OpError) (x : Nvu) : (nvRaiseEnc e x).strict = x.strict := rfl
@[simp] theorem nvRaiseEnc_free (e : OpError) (x : Nvu) : (nvRaiseEnc e x).free = x.free + 1 := rfl

@[simp] theorem nvRaiseDec_nvt (p : Config.Params) (e : OpError) (x : Nvu) : (nvRaiseDec p e x).nvt = nvAdmit p (Config.freeTable x.free) := rfl
@[simp] theorem nvRaiseDec_count (p : Config.Params) (e : OpError) (x : Nvu) : (nvRaiseDec p e x).count = BitVec.ofNat 32 (nvAdmit p (Config.freeTable x.free)).length := rfl
@[simp] theorem nvRaiseDec_bytes (p : Config.Params) (e : OpError) (x : Nvu) : (nvRaiseDec p e x).bytes = Config.freeBits 66 .nvBytes x.free := rfl
@[simp] theorem nvRaiseDec_status (p : Config.Params) (e : OpError) (x : Nvu) : (nvRaiseDec p e x).status = statusRaised e := rfl
@[simp] theorem nvRaiseDec_dir (p : Config.Params) (e : OpError) (x : Nvu) : (nvRaiseDec p e x).dir = x.dir := rfl
@[simp] theorem nvRaiseDec_phase (p : Config.Params) (e : OpError) (x : Nvu) : (nvRaiseDec p e x).phase = .idle := rfl
@[simp] theorem nvRaiseDec_total (p : Config.Params) (e : OpError) (x : Nvu) : (nvRaiseDec p e x).total = x.total := rfl
@[simp] theorem nvRaiseDec_strict (p : Config.Params) (e : OpError) (x : Nvu) : (nvRaiseDec p e x).strict = x.strict := rfl
@[simp] theorem nvRaiseDec_free (p : Config.Params) (e : OpError) (x : Nvu) : (nvRaiseDec p e x).free = x.free + 1 := rfl

/-! ### Sources and sinks -/

@[simp] theorem loseSource_bytes (src : Source) : (loseSource src).bytes = src.bytes := rfl
@[simp] theorem loseSource_tail (src : Source) : (loseSource src).tail = src.tail := rfl
@[simp] theorem loseSource_skip (src : Source) : (loseSource src).skip = src.skip := rfl
@[simp] theorem loseSource_lost (src : Source) : (loseSource src).lost = true := rfl

@[simp] theorem deliverTo_bytes (b : Bytes) (t : SrcTail) (src : Source) : (deliverTo b t src).bytes = src.bytes ++ b.drop src.skip := rfl
@[simp] theorem deliverTo_tail (b : Bytes) (t : SrcTail) (src : Source) : (deliverTo b t src).tail = t := rfl
@[simp] theorem deliverTo_skip (b : Bytes) (t : SrcTail) (src : Source) : (deliverTo b t src).skip = src.skip - b.length := rfl
@[simp] theorem deliverTo_lost (b : Bytes) (t : SrcTail) (src : Source) : (deliverTo b t src).lost = src.lost := rfl

@[simp] theorem sinkSome_accepted (p : Config.Stream) (snk : Sink) (b : Bytes) (n : Nat) : (sinkSome p snk b n).accepted = snk.accepted ++ b.take (Config.freeTaken p n) := rfl
@[simp] theorem sinkSome_mode (p : Config.Stream) (snk : Sink) (b : Bytes) (n : Nat) : (sinkSome p snk b n).mode = snk.mode := rfl

/-! ### Status -/

@[simp] theorem statusAccepted_busy : statusAccepted.busy = true := rfl
@[simp] theorem statusAccepted_done : statusAccepted.done = false := rfl
@[simp] theorem statusAccepted_ok : statusAccepted.ok = false := rfl
@[simp] theorem statusAccepted_kind : statusAccepted.kind = 0 := rfl
@[simp] theorem statusAccepted_sub : statusAccepted.sub = 0 := rfl
@[simp] theorem statusAccepted_iocode : statusAccepted.iocode = 0 := rfl

@[simp] theorem statusSucceeded_busy : statusSucceeded.busy = false := rfl
@[simp] theorem statusSucceeded_done : statusSucceeded.done = true := rfl
@[simp] theorem statusSucceeded_ok : statusSucceeded.ok = true := rfl
@[simp] theorem statusSucceeded_kind : statusSucceeded.kind = 0 := rfl
@[simp] theorem statusSucceeded_sub : statusSucceeded.sub = 0 := rfl
@[simp] theorem statusSucceeded_iocode : statusSucceeded.iocode = 0 := rfl

@[simp] theorem statusRaised_busy (e : OpError) : (statusRaised e).busy = false := rfl
@[simp] theorem statusRaised_done (e : OpError) : (statusRaised e).done = true := rfl
@[simp] theorem statusRaised_ok (e : OpError) : (statusRaised e).ok = false := rfl
@[simp] theorem statusRaised_kind (e : OpError) : (statusRaised e).kind = kindCode e := rfl
@[simp] theorem statusRaised_sub (e : OpError) : (statusRaised e).sub = subCode e := rfl
@[simp] theorem statusRaised_iocode (e : OpError) : (statusRaised e).iocode = ioCodeOf e := rfl

end Sys2Proof.Machine
end

