-- ==== Sys2Proof/Laws/Store.lean ====
section
/-! SUPPORT. The laws of the buffers: a read after a write gives the value written, a write leaves every
other address alone, and every operation keeps the canonical form. -/

namespace Sys2Proof.Machine

variable {α : Type}

/-- A read of the address written. -/
@[simp] theorem storeGet_storeSet_same (m : Store α) (a : Nat) (v : α) :
    storeGet (storeSet m a v) a = some v := by
  induction m with
  | nil => simp [storeSet, storeGet]
  | cons x m ih =>
    obtain ⟨k, w⟩ := x
    simp only [storeSet]
    split
    · simp [storeGet]
    · split
      · simp [storeGet, *]
      · simp [storeGet, *]

/-- A read of any other address. -/
theorem storeGet_storeSet_other (m : Store α) (a b : Nat) (v : α) (h : b ≠ a) :
    storeGet (storeSet m a v) b = storeGet m b := by
  induction m with
  | nil => simp [storeSet, storeGet, h]
  | cons x m ih =>
    obtain ⟨k, w⟩ := x
    simp only [storeSet]
    split
    · simp only [storeGet]
      rw [if_neg h]
      split
      · rw [if_neg (by omega), if_pos (by omega)]
      · rfl
    · split
      · subst_vars; simp [storeGet, h]
      · simp [storeGet, ih]

/-- The addresses of a written store are the address written and those it had. -/
theorem storeSet_keys (m : Store α) (a : Nat) (v : α) (x : Nat × α) (h : x ∈ storeSet m a v) :
    x.1 = a ∨ x ∈ m := by
  induction m with
  | nil => simp [storeSet] at h; simp [h]
  | cons y m ih =>
    obtain ⟨k, w⟩ := y
    simp only [storeSet] at h
    split at h
    · rcases List.mem_cons.1 h with rfl | h
      · exact .inl rfl
      · exact .inr h
    · split at h
      · rcases List.mem_cons.1 h with rfl | h
        · exact .inl (by subst_vars; rfl)
        · exact .inr (List.mem_cons_of_mem _ h)
      · rcases List.mem_cons.1 h with rfl | h
        · exact .inr (List.mem_cons_self ..)
        · exact (ih h).imp id (List.mem_cons_of_mem _)

/-- A write keeps the canonical form. -/
theorem storeSet_wf (m : Store α) (a : Nat) (v : α) (h : storeWf m) : storeWf (storeSet m a v) := by
  induction m with
  | nil => simp [storeSet, storeWf]
  | cons y m ih =>
    obtain ⟨k, w⟩ := y
    have hm := List.pairwise_cons.1 h
    simp only [storeSet]
    split
    · rename_i hlt
      refine List.pairwise_cons.2 ⟨fun x hx => ?_, h⟩
      rcases List.mem_cons.1 hx with rfl | hx
      · exact hlt
      · exact Nat.lt_trans hlt (hm.1 x hx)
    · split
      · subst_vars; exact List.pairwise_cons.2 hm
      · refine List.pairwise_cons.2 ⟨fun x hx => ?_, ih hm.2⟩
        rcases storeSet_keys m a v x hx with hx | hx
        · simp only [hx]; omega
        · exact hm.1 x hx

/-- A write of a byte string leaves every address before it alone. -/
theorem storeGet_memWrite_before (m : Memory) (a b : Nat) (p : Bytes) (h : b < a) :
    storeGet (memWrite m a p) b = storeGet m b := by
  induction p generalizing m a with
  | nil => rfl
  | cons x p ih =>
    simp only [memWrite]
    rw [ih _ _ (by omega), storeGet_storeSet_other _ _ _ _ (by omega)]

/-- A write of a byte string leaves every address after it alone. -/
theorem storeGet_memWrite_after (m : Memory) (a b : Nat) (p : Bytes) (h : a + p.length ≤ b) :
    storeGet (memWrite m a p) b = storeGet m b := by
  induction p generalizing m a with
  | nil => rfl
  | cons x p ih =>
    simp only [List.length_cons] at h
    simp only [memWrite]
    rw [ih _ _ (by omega), storeGet_storeSet_other _ _ _ _ (by omega)]

/-- A read inside the byte string written. -/
theorem storeGet_memWrite_inside (m : Memory) (a k : Nat) (p : Bytes) (h : k < p.length) :
    storeGet (memWrite m a p) (a + k) = some p[k] := by
  induction p generalizing m a k with
  | nil => simp at h
  | cons x p ih =>
    simp only [memWrite]
    cases k with
    | zero => rw [Nat.add_zero, storeGet_memWrite_before _ _ _ _ (by omega)]; simp
    | succ k =>
      have := ih (storeSet m a x) (a + 1) k (by simpa using h)
      simpa [Nat.add_assoc, Nat.add_comm 1 k] using this

/-- A write of a byte string keeps the canonical form. -/
theorem memWrite_wf (m : Memory) (a : Nat) (p : Bytes) (h : storeWf m) : storeWf (memWrite m a p) := by
  induction p generalizing m a with
  | nil => exact h
  | cons x p ih => exact ih _ _ (storeSet_wf m a x h)

/-- The buffers at reset are in canonical form. -/
theorem State.reset_buffers_wf :
    Memory.wf State.reset.frx.buf ∧ Memory.wf State.reset.ftx.tail ∧ Memory.wf State.reset.ftx.buf ∧
      storeWf State.reset.ftx.set := by decide

/-- The addresses of a written memory. -/
theorem memWrite_keys (m : Memory) (a : Nat) (p : Bytes) (x : Host.Cell) (h : x ∈ memWrite m a p) :
    (a ≤ x.1 ∧ x.1 < a + p.length) ∨ x ∈ m := by
  induction p generalizing m a with
  | nil => exact .inr h
  | cons y p ih =>
    rcases ih _ _ h with h | h
    · left; simp only [List.length_cons]; omega
    · rcases storeSet_keys m a y x h with h | h
      · left; simp only [List.length_cons]; omega
      · exact .inr h

/-- A read is answered exactly when every byte of it holds a value, and then gives those bytes. -/
theorem memRead_eq_some (m : Memory) (a n : Nat) (b : Bytes) :
    memRead m a n = some b ↔ b.length = n ∧ ∀ k (h : k < b.length), storeGet m (a + k) = some b[k] := by
  induction n generalizing a b with
  | zero =>
    simp only [memRead, Option.some.injEq]
    constructor
    · rintro rfl; exact ⟨rfl, fun k h => absurd h (by simp)⟩
    · rintro ⟨h, -⟩; exact (List.length_eq_zero_iff.1 h).symm
  | succ n ih =>
    simp only [memRead]
    constructor
    · intro h
      split at h
      · rename_i x xs hx hxs
        obtain rfl := Option.some.inj h
        obtain ⟨hl, hk⟩ := (ih _ _).1 hxs
        refine ⟨by simp [hl], fun k hk' => ?_⟩
        cases k with
        | zero => simpa using hx
        | succ k =>
          have := hk k (by simpa using hk')
          simpa [Nat.add_assoc, Nat.add_comm 1 k] using this
      · cases h
    · rintro ⟨hl, hk⟩
      cases b with
      | nil => simp at hl
      | cons x xs =>
        have h0 := hk 0 (by simp)
        have h1 : memRead m (a + 1) n = some xs := by
          refine (ih _ _).2 ⟨by simpa using hl, fun k hk' => ?_⟩
          have := hk (k + 1) (by simpa using hk')
          simpa [Nat.add_assoc, Nat.add_comm 1 k] using this
        simp only [Nat.add_zero, List.getElem_cons_zero] at h0
        simp [h0, h1]

/-- A read of exactly the bytes written. -/
@[simp] theorem memRead_memWrite (m : Memory) (a : Nat) (p : Bytes) :
    memRead (memWrite m a p) a p.length = some p :=
  (memRead_eq_some _ _ _ _).2 ⟨rfl, fun k h => storeGet_memWrite_inside m a k p h⟩

/-- A read of part of the bytes written. -/
theorem memRead_memWrite_part (m : Memory) (a k n : Nat) (p : Bytes) (h : k + n ≤ p.length) :
    memRead (memWrite m a p) (a + k) n = some ((p.drop k).take n) := by
  refine (memRead_eq_some _ _ _ _).2 ⟨by simp; omega, fun j hj => ?_⟩
  simp only [List.length_take, List.length_drop] at hj
  rw [Nat.add_assoc, storeGet_memWrite_inside m a (k + j) p (by omega)]
  simp

/-- Where every byte holds a value, the read with free values gives the bytes. -/
theorem memReadFree_of_memRead (m : Memory) (f a n : Nat) (b : Bytes) (h : memRead m a n = some b) :
    memReadFree m f a n = b := by
  induction n generalizing a b with
  | zero => simpa [memRead, memReadFree] using h
  | succ n ih =>
    simp only [memRead] at h
    split at h
    · rename_i x xs hx hxs
      obtain rfl := Option.some.inj h
      simp [memReadFree, hx, ih _ _ hxs]
    · cases h

@[simp] theorem memReadFree_length (m : Memory) (f a n : Nat) : (memReadFree m f a n).length = n := by
  induction n generalizing a with
  | zero => rfl
  | succ n ih => simp [memReadFree, ih]

end Sys2Proof.Machine
end

