-- ==== Sys2Proof/Laws/Streams.lean ====
section
/-! SUPPORT. What the two stream primitives can answer (R61, R62), said once, and how a unit's turns
run. -/

namespace Sys2Proof.Machine

/-! ### SrcRead -/

/-- Everything a `SrcRead` can answer. -/
theorem srcRead_cases (src : Source) (n : Nat) :
    (n ≤ src.bytes.length ∧
      srcRead src n = .ok (src.bytes.take n) { src with bytes := src.bytes.drop n }) ∨
    (src.bytes.length < n ∧ src.tail = .growing ∧ srcRead src n = .silent) ∨
    (src.bytes.length < n ∧ src.tail = .ended ∧
      srcRead src n = .ended src.bytes { src with bytes := [] }) ∨
    (∃ e, src.bytes.length < n ∧ src.tail = .failed e ∧
      srcRead src n = .failed e (loseSource src)) := by
  unfold srcRead
  by_cases h0 : n = 0
  · subst h0; left; simp
  · by_cases hn : n ≤ src.bytes.length
    · left; simp [h0, hn]
    · right
      rw [if_neg h0, if_neg hn]
      have hlt : src.bytes.length < n := by omega
      cases ht : src.tail with
      | growing => exact .inl ⟨hlt, rfl, rfl⟩
      | ended => exact .inr (.inl ⟨hlt, rfl, rfl⟩)
      | failed e => exact .inr (.inr ⟨e, hlt, rfl, rfl⟩)

/-- Enough bytes: they are delivered. -/
theorem srcRead_enough (src : Source) (n : Nat) (h : n ≤ src.bytes.length) :
    srcRead src n = .ok (src.bytes.take n) { src with bytes := src.bytes.drop n } := by
  rcases srcRead_cases src n with ⟨_, e⟩ | ⟨_, _⟩ | ⟨_, _⟩ | ⟨_, _, _⟩ <;> first | exact e | omega

/-- Too few bytes, and the stream has ended. -/
theorem srcRead_ended (src : Source) (n : Nat) (h : src.bytes.length < n) (ht : src.tail = .ended) :
    srcRead src n = .ended src.bytes { src with bytes := [] } := by
  unfold srcRead
  rw [if_neg (by omega), if_neg (by omega), ht]

/-- Too few bytes, and the source fails. -/
theorem srcRead_failed (src : Source) (n : Nat) (e : IoCode) (h : src.bytes.length < n)
    (ht : src.tail = .failed e) : srcRead src n = .failed e (loseSource src) := by
  unfold srcRead
  rw [if_neg (by omega), if_neg (by omega), ht]

/-- Too few bytes, and more may come. -/
theorem srcRead_silent (src : Source) (n : Nat) (h : src.bytes.length < n)
    (ht : src.tail = .growing) : srcRead src n = .silent := by
  unfold srcRead
  rw [if_neg (by omega), if_neg (by omega), ht]

/-- A source whose position is known is found where it stands. -/
@[simp] theorem findSource_known (p : Config.Stream) (src : Source) (n : Nat) (h : src.lost = false) :
    findSource p src n = src := by simp [findSource, h]

/-- A source whose position is undefined is found a free number of bytes further on. -/
theorem findSource_lost (p : Config.Stream) (src : Source) (n : Nat) (h : src.lost = true) :
    findSource p src n =
      { bytes := src.bytes.drop (Config.freeSkip p n), tail := src.tail,
        skip := src.skip + (Config.freeSkip p n - src.bytes.length), lost := false } := by
  simp [findSource, h]

/-- Where a source is found, its tail is what it was and its position is known. -/
theorem findSource_tail (p : Config.Stream) (src : Source) (n : Nat) :
    (findSource p src n).tail = src.tail ∧ (findSource p src n).lost = false := by
  unfold findSource
  split <;> simp_all

/-! ### SinkWrite -/

/-- Everything a `SinkWrite` can answer. -/
theorem sinkWrite_cases (p : Config.Stream) (snk : Sink) (b : Bytes) (n : Nat) :
    (b = [] ∧ sinkWrite p snk b n = .ok snk) ∨
    (b ≠ [] ∧ snk.mode = .accepts ∧
      sinkWrite p snk b n = .ok { snk with accepted := snk.accepted ++ b }) ∨
    (∃ e, b ≠ [] ∧ snk.mode = .fails e ∧ sinkWrite p snk b n = .failed e (sinkSome p snk b n)) ∨
    (b ≠ [] ∧ snk.mode = .silent ∧ sinkWrite p snk b n = .silent) := by
  unfold sinkWrite
  by_cases h : b = []
  · exact .inl ⟨h, by simp [h]⟩
  · right
    rw [if_neg h]
    cases hm : snk.mode with
    | accepts => exact .inl ⟨h, rfl, rfl⟩
    | fails e => exact .inr (.inl ⟨e, h, rfl, rfl⟩)
    | silent => exact .inr (.inr ⟨h, rfl, rfl⟩)

/-- An accepting sink takes every byte, in order, after what it had. -/
theorem sinkWrite_accepts (p : Config.Stream) (snk : Sink) (b : Bytes) (n : Nat) (h : snk.mode = .accepts) :
    sinkWrite p snk b n = .ok { snk with accepted := snk.accepted ++ b } := by
  unfold sinkWrite
  split
  · subst_vars; simp
  · rw [h]

/-! ### Turns -/

variable {σ : Type}

@[simp] theorem runTurns_zero (f : σ → Option σ) (x : σ) : runTurns f 0 x = x := rfl

/-- A unit without a step stays where it is, however many turns it has. -/
theorem runTurns_none (f : σ → Option σ) (n : Nat) (x : σ) (h : f x = none) : runTurns f n x = x := by
  cases n with
  | zero => rfl
  | succ n => simp [runTurns, h]

/-- A unit with a step takes it and goes on. -/
theorem runTurns_some (f : σ → Option σ) (n : Nat) (x y : σ) (h : f x = some y) :
    runTurns f (n + 1) x = runTurns f n y := by simp [runTurns, h]

/-- What every step keeps, a run of turns keeps. -/
theorem runTurns_keeps (f : σ → Option σ) (P : σ → Prop) (hP : ∀ x y, P x → f x = some y → P y)
    (n : Nat) (x : σ) (h : P x) : P (runTurns f n x) := by
  induction n generalizing x with
  | zero => exact h
  | succ n ih =>
    simp only [runTurns]
    split
    · exact h
    · exact ih _ (hP _ _ h ‹_›)

/-- Running m turns and then n is running m + n turns. -/
theorem runTurns_add (f : σ → Option σ) (m n : Nat) (x : σ) :
    runTurns f (m + n) x = runTurns f n (runTurns f m x) := by
  induction m generalizing x with
  | zero => simp
  | succ m ih =>
    rw [Nat.add_right_comm]
    cases h : f x with
    | none => rw [runTurns_none _ _ _ h, runTurns_none _ _ _ h, runTurns_none _ _ _ h]
    | some y => rw [runTurns_some _ _ _ _ h, runTurns_some _ _ _ _ h, ih]

/-- A run of turns taken one at a time. -/
theorem runTurns_succ (f : σ → Option σ) (n : Nat) (x : σ) :
    runTurns f (n + 1) x = runTurns f n ((f x).getD x) := by
  cases h : f x with
  | none => simp only [Option.getD_none]; rw [runTurns_none _ _ _ h, runTurns_none _ _ _ h]
  | some y => rw [runTurns_some _ _ _ _ h]; rfl

end Sys2Proof.Machine
end

