-- ==== Sys2Proof/Laws/Table.lean ====
section
/-! SUPPORT. The laws of the name/value table (R150, R151). -/

namespace Sys2Proof.Machine

/-- A table has a name exactly when some pair carries it. -/
theorem nvHas_iff (t : NvTable) (n : Bytes) : nvHas t n = true ↔ n ∈ t.map Prod.fst := by
  induction t with
  | nil => simp [nvHas]
  | cons x t ih =>
    obtain ⟨k, w⟩ := x
    simp only [nvHas, Bool.or_eq_true, beq_iff_eq, ih, List.map_cons, List.mem_cons]
    exact or_congr_left eq_comm

theorem nvHas_false_iff (t : NvTable) (n : Bytes) : nvHas t n = false ↔ n ∉ t.map Prod.fst := by
  rw [← nvHas_iff]; simp

/-- Inserting a name the table has leaves its names as they are. -/
theorem nvInsert_names_old (t : NvTable) (n v : Bytes) (h : n ∈ t.map Prod.fst) :
    (nvInsert t n v).map Prod.fst = t.map Prod.fst := by
  induction t with
  | nil => simp at h
  | cons x t ih =>
    obtain ⟨k, w⟩ := x
    by_cases hk : k = n
    · simp [nvInsert, hk]
    · have : n ∈ t.map Prod.fst := by
        rw [List.map_cons] at h
        exact (List.mem_cons.1 h).resolve_left (fun e => hk e.symm)
      simp only [nvInsert, if_neg hk, List.map_cons, ih this]

/-- Inserting a new name appends its pair. -/
theorem nvInsert_new (t : NvTable) (n v : Bytes) (h : n ∉ t.map Prod.fst) :
    nvInsert t n v = t ++ [(n, v)] := by
  induction t with
  | nil => rfl
  | cons x t ih =>
    obtain ⟨k, w⟩ := x
    simp only [List.map_cons, List.mem_cons, not_or] at h
    simp [nvInsert, Ne.symm h.1, ih h.2]

/-- Inserting keeps the names pairwise different (R150). -/
theorem nvInsert_unique (t : NvTable) (n v : Bytes) (h : nvUnique t) : nvUnique (nvInsert t n v) := by
  by_cases hn : n ∈ t.map Prod.fst
  · simp only [nvUnique, nvInsert_names_old t n v hn]; exact h
  · rw [nvInsert_new t n v hn]
    simp only [nvUnique, List.map_append, List.map_cons, List.map_nil]
    refine List.nodup_append.2 ⟨h, by simp, fun a ha b hb hab => hn ?_⟩
    rw [List.mem_singleton] at hb
    exact (hab.trans hb) ▸ ha

/-- The pairs of a table after an insertion. -/
theorem nvInsert_mem (t : NvTable) (n v : Bytes) (x : Bytes × Bytes) (h : x ∈ nvInsert t n v) :
    x = (n, v) ∨ x ∈ t := by
  induction t with
  | nil => exact .inl (by simpa [nvInsert] using h)
  | cons y t ih =>
    obtain ⟨k, w⟩ := y
    simp only [nvInsert] at h
    split at h
    · rcases List.mem_cons.1 h with h | h
      · exact .inl (by simp_all)
      · exact .inr (List.mem_cons_of_mem _ h)
    · rcases List.mem_cons.1 h with h | h
      · exact .inr (h ▸ List.mem_cons_self ..)
      · exact (ih h).imp id (List.mem_cons_of_mem _)

/-- The size of a table after an insertion. -/
theorem nvInsert_length (t : NvTable) (n v : Bytes) :
    (nvInsert t n v).length = if nvHas t n = true then t.length else t.length + 1 := by
  split
  · rename_i h
    have := congrArg List.length (nvInsert_names_old t n v ((nvHas_iff t n).1 h))
    simpa using this
  · rename_i h
    rw [nvInsert_new t n v (fun hn => h ((nvHas_iff t n).2 hn))]
    simp

/-- The free table a failed NV.DEC leaves is a table that NVT can hold. -/
theorem nvAdmit_fits (p : Config.Params) (t : NvTable) : nvFits p (nvAdmit p t) := by
  induction t with
  | nil => simp [nvAdmit, nvFits, nvUnique]
  | cons x t ih =>
    obtain ⟨n, v⟩ := x
    simp only [nvAdmit]
    split
    · rename_i h
      obtain ⟨hn, hv, hh, hl⟩ := h
      refine ⟨?_, by simp only [List.length_cons]; omega, ?_⟩
      · simp only [nvUnique, List.map_cons, List.nodup_cons]
        exact ⟨(nvHas_false_iff _ _).1 hh, ih.1⟩
      · intro y hy
        rcases List.mem_cons.1 hy with rfl | hy
        · exact ⟨hn, hv⟩
        · exact ih.2.2 y hy
    · exact ih

end Sys2Proof.Machine
end

