-- ==== Sys2Proof/Laws/Units.lean ====
section
/-! SUPPORT. What each shared operation of the three units can do, said once: a later proof cites these
instead of unfolding the operation. -/

namespace Sys2Proof.Machine

/-! ### FRX -/

/-- The dispatch ends in one of five ways. -/
theorem frxDispatch_cases (d : Option (Bytes → DecResult)) (p : Bytes) (x : Frx) :
    (d = none ∧ frxDispatch d p x = frxRaise (.unsupportedFrameType .unknownType) x) ∨
    ∃ dec, d = some dec ∧
      ((dec p = .unimplemented ∧
          frxDispatch d p x = frxRaise (.unsupportedFrameType .knownUnimplemented) x) ∨
       (dec p = .tooShort ∧
          frxDispatch d p x = frxRaise (.protocolViolation .payloadTooShort) x) ∨
       ∃ body c, dec p = .decoded body c ∧
         ((c < p.length ∧
             frxDispatch d p x = frxRaise (.protocolViolation .payloadTooLong) x) ∨
          (p.length ≤ c ∧ frxDispatch d p x = frxDeliver body p.length x))) := by
  cases d with
  | none => exact .inl ⟨rfl, rfl⟩
  | some dec =>
    refine .inr ⟨dec, rfl, ?_⟩
    cases h : dec p with
    | unimplemented => exact .inl ⟨rfl, by simp [frxDispatch, h]⟩
    | tooShort => exact .inr (.inl ⟨rfl, by simp [frxDispatch, h]⟩)
    | decoded body c =>
      refine .inr (.inr ⟨body, c, rfl, ?_⟩)
      by_cases hc : c < p.length
      · exact .inl ⟨hc, by simp [frxDispatch, h, hc]⟩
      · exact .inr ⟨by omega, by simp [frxDispatch, h, hc]⟩

/-- READ from its third stream access on. -/
theorem frxReceive_cases (d : Option (Bytes → DecResult)) (l : Nat) (r : Frx × Source) :
    (l ≤ r.2.bytes.length ∧
      frxReceive d l r =
        some (frxDispatch d (r.2.bytes.take l) (frxStore (r.2.bytes.take l) r.1),
          { r.2 with bytes := r.2.bytes.drop l })) ∨
    (r.2.bytes.length < l ∧ r.2.tail = .growing ∧ frxReceive d l r = none) ∨
    (r.2.bytes.length < l ∧ r.2.tail = .ended ∧
      frxReceive d l r =
        some (frxRaise (.truncation .inPayload) (frxStore r.2.bytes r.1),
          loseSource { r.2 with bytes := [] })) ∨
    (∃ e, r.2.bytes.length < l ∧ r.2.tail = .failed e ∧
      frxReceive d l r = some (frxRaise (.ioError e) r.1, loseSource r.2)) := by
  rcases srcRead_cases r.2 l with ⟨h, e⟩ | ⟨h, t, e⟩ | ⟨h, t, e⟩ | ⟨c, h, t, e⟩
  · exact .inl ⟨h, by simp [frxReceive, e]⟩
  · exact .inr (.inl ⟨h, t, by simp [frxReceive, e]⟩)
  · exact .inr (.inr (.inl ⟨h, t, by simp [frxReceive, e]⟩))
  · exact .inr (.inr (.inr ⟨c, h, t, by simp [frxReceive, e]⟩))

/-- FRX once it has accepted a HeaderWord. -/
def frxGotHeader (w : Word) (x : Frx) : Frx :=
  { x with hw := w, hwv := true,
           fsm := if hdrControl w = 1#1 then .awaitingPayload else .awaitingHeader }

/-- FRX once it has read a FlagLengthWord. -/
def frxGotLength (w : Word) (x : Frx) : Frx := { x with fl := w, flv := true }

/-- READ step 1. -/
theorem frxHeaderWord_cases (r : Frx × Source) :
    (4 ≤ r.2.bytes.length ∧
      frxHeaderWord r =
        some (frxGotHeader (be32At (r.2.bytes.take 4) 0) r.1,
          { r.2 with bytes := r.2.bytes.drop 4 })) ∨
    (r.2.bytes.length < 4 ∧ r.2.tail = .growing ∧ frxHeaderWord r = none) ∨
    (r.2.bytes = [] ∧ r.2.tail = .ended ∧
      frxHeaderWord r = some (frxRaise .endOfStream r.1, { r.2 with bytes := [] })) ∨
    (r.2.bytes ≠ [] ∧ r.2.bytes.length < 4 ∧ r.2.tail = .ended ∧
      frxHeaderWord r =
        some (frxRaise (.truncation .inHeaderWord) r.1, loseSource { r.2 with bytes := [] })) ∨
    (∃ e, r.2.bytes.length < 4 ∧ r.2.tail = .failed e ∧
      frxHeaderWord r = some (frxRaise (.ioError e) r.1, loseSource r.2)) := by
  rcases srcRead_cases r.2 4 with ⟨h, e⟩ | ⟨h, t, e⟩ | ⟨h, t, e⟩ | ⟨c, h, t, e⟩
  · exact .inl ⟨h, by simp [frxHeaderWord, e, frxGotHeader]⟩
  · exact .inr (.inl ⟨h, t, by simp [frxHeaderWord, e]⟩)
  · cases hb : r.2.bytes with
    | nil => exact .inr (.inr (.inl ⟨rfl, t, by simp [frxHeaderWord, e, hb]⟩))
    | cons a s =>
      exact .inr (.inr (.inr (.inl ⟨by simp, hb ▸ h, t, by simp [frxHeaderWord, e, hb]⟩)))
  · exact .inr (.inr (.inr (.inr ⟨c, h, t, by simp [frxHeaderWord, e]⟩)))

/-- The first half of READ step 3. -/
theorem frxFlagLength_cases (p : Config.Params) (r : Frx × Source) :
    (4 ≤ r.2.bytes.length ∧ (flLength (be32At (r.2.bytes.take 4) 0)).toNat ≤ p.payloadMax ∧
      frxFlagLength p r =
        some (frxGotLength (be32At (r.2.bytes.take 4) 0) r.1,
          { r.2 with bytes := r.2.bytes.drop 4 })) ∨
    (4 ≤ r.2.bytes.length ∧ p.payloadMax < (flLength (be32At (r.2.bytes.take 4) 0)).toNat ∧
      frxFlagLength p r =
        some (frxRaise (.protocolViolation .limitExceeded)
            (frxGotLength (be32At (r.2.bytes.take 4) 0) r.1),
          loseSource { r.2 with bytes := r.2.bytes.drop 4 })) ∨
    (r.2.bytes.length < 4 ∧ r.2.tail = .growing ∧ frxFlagLength p r = none) ∨
    (r.2.bytes.length < 4 ∧ r.2.tail = .ended ∧
      frxFlagLength p r =
        some (frxRaise (.truncation .inFlagLengthWord) r.1, loseSource { r.2 with bytes := [] })) ∨
    (∃ e, r.2.bytes.length < 4 ∧ r.2.tail = .failed e ∧
      frxFlagLength p r = some (frxRaise (.ioError e) r.1, loseSource r.2)) := by
  rcases srcRead_cases r.2 4 with ⟨h, e⟩ | ⟨h, t, e⟩ | ⟨h, t, e⟩ | ⟨c, h, t, e⟩
  · by_cases hl : p.payloadMax < (flLength (be32At (r.2.bytes.take 4) 0)).toNat
    · exact .inr (.inl ⟨h, hl, by simp [frxFlagLength, e, hl, frxGotLength]⟩)
    · exact .inl ⟨h, by omega, by simp [frxFlagLength, e, hl, frxGotLength]⟩
  · exact .inr (.inr (.inl ⟨h, t, by simp [frxFlagLength, e]⟩))
  · exact .inr (.inr (.inr (.inl ⟨h, t, by simp [frxFlagLength, e]⟩)))
  · exact .inr (.inr (.inr (.inr ⟨c, h, t, by simp [frxFlagLength, e]⟩)))

/-- The turn of FRX is the one its registers call for. -/
theorem frxTurn_cases (p : Config.Params) (r : Frx × Source) :
    (r.1.status.busy = false ∧ frxTurn p r = none) ∨
    (r.1.status.busy = true ∧ r.1.hwv = false ∧ frxTurn p r = frxHeaderWord r) ∨
    (r.1.status.busy = true ∧ r.1.hwv = true ∧ hdrControl r.1.hw = 0#1 ∧
      frxTurn p r = some (frxDataFrame r)) ∨
    (r.1.status.busy = true ∧ r.1.hwv = true ∧ hdrControl r.1.hw = 1#1 ∧ r.1.flv = false ∧
      frxTurn p r = frxFlagLength p r) ∨
    (r.1.status.busy = true ∧ r.1.hwv = true ∧ hdrControl r.1.hw = 1#1 ∧ r.1.flv = true ∧
      frxTurn p r = frxReceive (dispatch (hdrType r.1.hw)) (flLength r.1.fl).toNat r) := by
  unfold frxTurn
  cases hb : r.1.status.busy with
  | false => exact .inl ⟨rfl, by simp⟩
  | true =>
    right
    cases hh : r.1.hwv with
    | false => exact .inl ⟨rfl, rfl, by simp⟩
    | true =>
      right
      by_cases hc : hdrControl r.1.hw = 0#1
      · exact .inl ⟨rfl, rfl, hc, by simp [hc]⟩
      · right
        have hc1 : hdrControl r.1.hw = 1#1 := by
          rcases BitVec.eq_zero_or_eq_one (hdrControl r.1.hw) with h | h
          · exact absurd h hc
          · exact h
        cases hf : r.1.flv with
        | false => exact .inl ⟨rfl, rfl, hc1, rfl, by simp [hc1]⟩
        | true => exact .inr ⟨rfl, rfl, hc1, rfl, by simp [hc1]⟩

/-! ### FTX -/

/-- WRITE steps 2 to 4. -/
theorem ftxEncode_cases (p : Config.Params) (enc : Encoder) (x : Ftx) :
    (16777215 < enc.len x ∧
      ftxEncode p enc x = ftxRaise .lengthOverflow (ftxSetLen (enc.len x) x)) ∨
    (enc.len x ≤ 16777215 ∧ p.payloadMax < enc.len x ∧
      ftxEncode p enc x =
        ftxRaise (.protocolViolation .limitExceeded) (ftxSetLen (enc.len x) x)) ∨
    (enc.len x ≤ 16777215 ∧ enc.len x ≤ p.payloadMax ∧
      ftxEncode p enc x = ftxSetLen (enc.len x) (ftxBuild enc x)) := by
  unfold ftxEncode
  by_cases h : 16777215 < enc.len x
  · exact .inl ⟨h, by simp [h]⟩
  · by_cases h' : p.payloadMax < enc.len x
    · exact .inr (.inl ⟨by omega, h', by simp [h, h']⟩)
    · exact .inr (.inr ⟨by omega, by omega, by simp [h, h']⟩)

theorem txFrameBytes_ne_nil (x : Ftx) : txFrameBytes x ≠ [] := by simp [txFrameBytes, be32]

/-- WRITE steps 5 and 6. -/
theorem ftxEmit_cases (r : Ftx × Sink) :
    (r.2.mode = .accepts ∧
      ftxEmit r =
        some (ftxSucceed r.1, { r.2 with accepted := r.2.accepted ++ txFrameBytes r.1 })) ∨
    (∃ e, r.2.mode = .fails e ∧
      ftxEmit r = some (ftxRaise (.ioError e) r.1, sinkSome .fsnk r.2 (txFrameBytes r.1) r.1.free)) ∨
    (r.2.mode = .silent ∧ ftxEmit r = none) := by
  rcases sinkWrite_cases .fsnk r.2 (txFrameBytes r.1) r.1.free with
    ⟨h, _⟩ | ⟨_, m, e⟩ | ⟨c, _, m, e⟩ | ⟨_, m, e⟩
  · exact absurd h (txFrameBytes_ne_nil _)
  · exact .inl ⟨m, by simp [ftxEmit, e]⟩
  · exact .inr (.inl ⟨c, m, by simp [ftxEmit, e]⟩)
  · exact .inr (.inr ⟨m, by simp [ftxEmit, e]⟩)

/-- WRITE steps 1 to 4: the type code is refused, or its encoder runs. -/
theorem ftxPrepare_cases (p : Config.Params) (x : Ftx) :
    (kindOfCode x.type = none ∧
      ftxPrepare p x = ftxRaise (.unsupportedFrameType (txTypeProblem x.type)) x) ∨
    ∃ k, kindOfCode x.type = some k ∧ ftxPrepare p x = ftxEncode p (encoderOf k) x := by
  unfold ftxPrepare
  cases h : kindOfCode x.type with
  | none => exact .inl ⟨rfl, rfl⟩
  | some k => exact .inr ⟨k, rfl, rfl⟩

/-- The turn of FTX. -/
theorem ftxTurn_cases (p : Config.Params) (r : Ftx × Sink) :
    (r.1.status.busy = false ∧ ftxTurn p r = none) ∨
    (r.1.status.busy = true ∧ r.1.emitting = false ∧
      ftxTurn p r = some (ftxPrepare p r.1, r.2)) ∨
    (r.1.status.busy = true ∧ r.1.emitting = true ∧ ftxTurn p r = ftxEmit r) := by
  unfold ftxTurn
  cases hb : r.1.status.busy with
  | false => exact .inl ⟨rfl, by simp⟩
  | true =>
    cases he : r.1.emitting with
    | false => exact .inr (.inl ⟨rfl, rfl, by simp⟩)
    | true => exact .inr (.inr ⟨rfl, rfl, by simp⟩)

/-! ### NVU -/

/-- `rd(n, phase)` and what is then done. -/
theorem nvRead_cases (p : Config.Params) (n : Nat) (point : TruncPoint)
    (f : Bytes → Nvu → Except OpError Nvu) (r : Nvu × Source) :
    (∃ x, n ≤ r.2.bytes.length ∧ f (r.2.bytes.take n) r.1 = .ok x ∧
      nvRead p n point f r = some (x, { r.2 with bytes := r.2.bytes.drop n })) ∨
    (∃ e, n ≤ r.2.bytes.length ∧ f (r.2.bytes.take n) r.1 = .error e ∧
      nvRead p n point f r =
        some (nvRaiseDec p e r.1, loseSource { r.2 with bytes := r.2.bytes.drop n })) ∨
    (r.2.bytes.length < n ∧ r.2.tail = .growing ∧ nvRead p n point f r = none) ∨
    (r.2.bytes.length < n ∧ r.2.tail = .ended ∧
      nvRead p n point f r =
        some (nvRaiseDec p (.truncation point) r.1, loseSource { r.2 with bytes := [] })) ∨
    (∃ e, r.2.bytes.length < n ∧ r.2.tail = .failed e ∧
      nvRead p n point f r = some (nvRaiseDec p (.ioError e) r.1, loseSource (loseSource r.2))) := by
  rcases srcRead_cases r.2 n with ⟨h, e⟩ | ⟨h, t, e⟩ | ⟨h, t, e⟩ | ⟨c, h, t, e⟩
  · cases hf : f (r.2.bytes.take n) r.1 with
    | ok x => exact .inl ⟨x, h, rfl, by simp [nvRead, e, hf]⟩
    | error c => exact .inr (.inl ⟨c, h, rfl, by simp [nvRead, e, hf]⟩)
  · exact .inr (.inr (.inl ⟨h, t, by simp [nvRead, e]⟩))
  · exact .inr (.inr (.inr (.inl ⟨h, t, by simp [nvRead, e]⟩)))
  · exact .inr (.inr (.inr (.inr ⟨c, h, t, by simp [nvRead, e]⟩)))

/-- The checks on a pair in the unit are those of the function `decode` (R151, R153). -/
theorem nvEndPair_eq (p : Config.Params) (more : Nat) (name value : Bytes) (x : Nvu) :
    nvEndPair p more name value x =
      match pairProblem p x.strict x.nvt name with
      | some e => .error e
      | none =>
        .ok (nvNextPair more
          { x with nvt := nvInsert x.nvt name value,
                   total := x.total + 8 + name.length + value.length }) := by
  unfold nvEndPair pairProblem
  split
  · rfl
  · split
    · rfl
    · split <;> rfl

/-- A length word within the capacity lets the unit go on; a longer one does not. -/
theorem nvCheckLength_eq (p : Config.Params) (len : Nat) (next : NvPhase) (x : Nvu) :
    nvCheckLength p len next x =
      if p.nvStrCap < len then .error (.protocolViolation .limitExceeded)
      else .ok { x with phase := next } := rfl

/-- The turn of an NV.ENC. -/
theorem nvEncTurn_enc (x : Nvu) (snk : Sink) (b : Bytes) (bs : List Bytes)
    (h : x.phase = .enc (b :: bs)) :
    nvEncTurn (x, snk) =
      match sinkWrite .nsnk snk b x.free with
      | .silent => none
      | .failed e k => some (nvRaiseEnc (.ioError e) x, k)
      | .ok k => some (nvNextPiece bs x, k) := by
  cases hw : sinkWrite .nsnk snk b x.free <;> simp [nvEncTurn, h, hw]

/-! ### The host's port -/

/-- A buffer read. -/
theorem readBuffer_cases (m : Memory) (cap off n : Nat) (s : State) :
    (cap < off + n ∧ readBuffer m cap off n s = .fault .noSuchAddress) ∨
    (off + n ≤ cap ∧ memRead m off n = none ∧ readBuffer m cap off n s = .refused .noValue) ∨
    (∃ b, off + n ≤ cap ∧ memRead m off n = some b ∧
      readBuffer m cap off n s = .next (respond (.bytes b) s)) := by
  unfold readBuffer
  by_cases h : cap < off + n
  · exact .inl ⟨h, by simp [h]⟩
  · cases hm : memRead m off n with
    | none => exact .inr (.inl ⟨by omega, rfl, by simp [h]⟩)
    | some b => exact .inr (.inr ⟨b, by omega, rfl, by simp [h]⟩)

end Sys2Proof.Machine
end

