-- ==== Sys2Proof/Laws/HostPort.lean ====
section
/-! SUPPORT. What an access of the host can do, said once for all of them. -/

namespace Sys2Proof.Machine

/-- An access that gives the host an answer and does nothing else, or is refused. -/
def answersOnly (s : State) (o : HostOutcome) : Prop :=
  (∃ a, o = .next (respond a s)) ∨ (∃ r, o = .refused r) ∨ (∃ f, o = .fault f)

theorem answersOnly_next (s : State) (a : HostResp) : answersOnly s (.next (respond a s)) :=
  .inl ⟨a, rfl⟩

theorem answersOnly_refused (s : State) (r : Refusal) : answersOnly s (.refused r) :=
  .inr (.inl ⟨r, rfl⟩)

theorem answersOnly_fault (s : State) (f : Fault) : answersOnly s (.fault f) := .inr (.inr ⟨f, rfl⟩)

theorem answersOnly_ite (s : State) (c : Prop) [Decidable c] (x y : HostOutcome)
    (hx : answersOnly s x) (hy : answersOnly s y) : answersOnly s (if c then x else y) := by
  split
  · exact hx
  · exact hy

theorem answerReg_answersOnly (s : State) (reg : BitVec 8) {w : Nat} (v : BitVec w) :
    answersOnly s (answerReg reg v s) := answersOnly_next _ _

/-- A register read gives an answer or is refused. -/
theorem regRead_answersOnly (s : State) (reg : BitVec 8) : answersOnly s (regRead reg s) := by
  unfold regRead
  repeat' apply answersOnly_ite
  all_goals first
    | exact answersOnly_refused _ _
    | exact answerReg_answersOnly _ _ _

/-- A buffer read gives an answer, is refused or faults. -/
theorem readBuffer_answersOnly (m : Memory) (cap off n : Nat) (s : State) :
    answersOnly s (readBuffer m cap off n s) := by
  rcases readBuffer_cases m cap off n s with ⟨_, e⟩ | ⟨_, _, e⟩ | ⟨b, _, _, e⟩ <;> rw [e]
  · exact answersOnly_fault _ _
  · exact answersOnly_refused _ _
  · exact answersOnly_next _ _

/-- A descriptor write leaves everything of FTX but the descriptor registers as it was. -/
def descriptorOnly (x y : Ftx) : Prop :=
  y.status = x.status ∧ y.hw = x.hw ∧ y.fl = x.fl ∧ y.len = x.len ∧ y.written = x.written ∧
    y.buf = x.buf ∧ y.emitting = x.emitting ∧ y.tail = x.tail ∧ y.set = x.set ∧
    y.free = x.free

/-- A register write that goes on with a descriptor register of an idle FTX or with CTRL changed, that is
ignored, or that is refused. -/
def writesOnly (s : State) (o : HostOutcome) : Prop :=
  (∃ r, o = .refused r) ∨ (∃ c, s.nvu.status.busy = false ∧ o = .next { s with ctrl := c }) ∨
    o = .next s ∨ ∃ x, s.ftx.status.busy = false ∧ o = .next { s with ftx := x } ∧ descriptorOnly s.ftx x

theorem writesOnly_ite (s : State) (c : Prop) [Decidable c] (x y : HostOutcome)
    (hx : writesOnly s x) (hy : writesOnly s y) : writesOnly s (if c then x else y) := by
  split
  · exact hx
  · exact hy

theorem writeTx_writesOnly (s : State) (f : Ftx → Ftx) (h : descriptorOnly s.ftx (f s.ftx)) :
    writesOnly s (writeTx s f) := by
  unfold writeTx
  cases hb : s.ftx.status.busy with
  | true => exact .inl ⟨_, by simp only [if_true]; rfl⟩
  | false => exact .inr (.inr (.inr ⟨_, hb, by simp, h⟩))

/-- What a register write can do. -/
theorem regWrite_writesOnly (s : State) (reg : BitVec 8) (d : PortData) :
    writesOnly s (regWrite reg d s) := by
  unfold regWrite
  refine writesOnly_ite _ _ _ _ (writeTx_writesOnly _ _ (by simp [descriptorOnly])) ?_
  refine writesOnly_ite _ _ _ _ (writeTx_writesOnly _ _ (by simp [descriptorOnly])) ?_
  refine writesOnly_ite _ _ _ _ (writeTx_writesOnly _ _ (by simp [descriptorOnly])) ?_
  refine writesOnly_ite _ _ _ _ (writeTx_writesOnly _ _ (by simp [descriptorOnly])) ?_
  refine writesOnly_ite _ _ _ _ (writeTx_writesOnly _ _ (by simp [descriptorOnly])) ?_
  refine writesOnly_ite _ _ _ _ (writeTx_writesOnly _ _ (by simp [descriptorOnly])) ?_
  refine writesOnly_ite _ _ _ _ (writeTx_writesOnly _ _ (by simp [descriptorOnly])) ?_
  refine writesOnly_ite _ _ _ _ ?_
    (writesOnly_ite _ _ _ _ (.inl ⟨_, rfl⟩) (.inr (.inr (.inl rfl))))
  cases hb : s.nvu.status.busy with
  | true => exact .inl ⟨_, by simp only [if_true]; rfl⟩
  | false => exact .inr (.inl ⟨_, hb, by simp; rfl⟩)

/-- The next state of an access that gives an answer only. -/
theorem answersOnly_inv {s t : State} {o : HostOutcome} (h : answersOnly s o) (ho : o = .next t) :
    ∃ a, t = respond a s := by
  rcases h with ⟨a, e⟩ | ⟨_, e⟩ | ⟨_, e⟩ <;> rw [e] at ho <;> cases ho
  exact ⟨a, rfl⟩

/-- Everything an access that goes on can have done: an answer; CTRL, a descriptor register, TXTAIL, TXSET
or NVT written; or nothing. -/
theorem hostAccess_cases (r : HostReq) (s t : State) (h : hostAccess r s = .next t) :
    (∃ a, t = respond a s) ∨
    (∃ c, s.nvu.status.busy = false ∧ t = { s with ctrl := c }) ∨
    t = s ∨
    (∃ x, s.ftx.status.busy = false ∧ t = { s with ftx := x } ∧ descriptorOnly s.ftx x) ∨
    (∃ off b, s.ftx.status.busy = false ∧ off + b.length ≤ txtailCap s.params ∧
      t = { s with ftx := { s.ftx with tail := memWrite s.ftx.tail off b } }) ∨
    (∃ i e, s.ftx.status.busy = false ∧ i < txsetCap s.params ∧
      t = { s with ftx := { s.ftx with set := storeSet s.ftx.set i e } }) ∨
    (∃ tb, s.nvu.status.busy = false ∧ nvFits s.params tb ∧
      t = { s with nvu := { s.nvu with nvt := tb, count := BitVec.ofNat 32 tb.length } }) := by
  have hbuf : ∀ (c : Prop) [Decidable c] m cap off n,
      (if c then Host.Outcome.refused .busyUnit else readBuffer m cap off n s) = .next t →
      ∃ a, t = respond a s := fun c _ m cap off n h =>
    answersOnly_inv (answersOnly_ite s c _ _ (answersOnly_refused _ _)
      (readBuffer_answersOnly m cap off n s)) h
  cases r with
  | regRead reg => exact .inl (answersOnly_inv (regRead_answersOnly s reg) h)
  | regWrite reg d =>
    rcases regWrite_writesOnly s reg d with ⟨_, e⟩ | ⟨c, hb, e⟩ | e | ⟨x, hb, e, hx⟩ <;>
      simp only [hostAccess, e] at h <;> cases h
    · exact .inr (.inl ⟨c, hb, rfl⟩)
    · exact .inr (.inr (.inl rfl))
    · exact .inr (.inr (.inr (.inl ⟨x, hb, rfl, hx⟩)))
  | wordOp f a b c => cases h; exact .inr (.inr (.inl rfl))
  | rxbufRead o n => exact .inl (hbuf _ _ _ _ _ h)
  | txtailRead o n => exact .inl (hbuf _ _ _ _ _ h)
  | rxsetRead i =>
    simp only [hostAccess, rxsetRead] at h
    repeat' split at h
    all_goals cases h
    exact .inl ⟨_, rfl⟩
  | txsetRead i =>
    simp only [hostAccess, txsetRead] at h
    repeat' split at h
    all_goals cases h
    exact .inl ⟨_, rfl⟩
  | nvtLength i hh =>
    simp only [hostAccess, nvtLength] at h
    repeat' split at h
    all_goals cases h
    exact .inl ⟨_, rfl⟩
  | nvtRead i hh o n =>
    simp only [hostAccess, nvtRead] at h
    repeat' split at h
    all_goals cases h
    exact .inl ⟨_, rfl⟩
  | txtailWrite off b =>
    simp only [hostAccess, txtailWrite] at h
    repeat' split at h
    all_goals cases h
    exact .inr (.inr (.inr (.inr (.inl ⟨off, b, by simp_all, by omega, rfl⟩))))
  | txsetWrite i f n v =>
    simp only [hostAccess, txsetWrite] at h
    repeat' split at h
    all_goals cases h
    exact .inr (.inr (.inr (.inr (.inr (.inl ⟨i, _, by simp_all, by omega, rfl⟩)))))
  | nvtLoad tb =>
    simp only [hostAccess, nvtLoad] at h
    repeat' split at h
    all_goals cases h
    exact .inr (.inr (.inr (.inr (.inr (.inr ⟨tb, by simp_all, by assumption, rfl⟩)))))

end Sys2Proof.Machine
end

