-- ==== Sys2Proof/Laws/Read.lean ====
section
/-! SUPPORT. READ over a finite input, run to its end once and for all. -/

namespace Sys2Proof.Machine

/-- A FRX that is not busy has no turn. -/
theorem frxTurn_idle (p : Config.Params) (n : Nat) (r : Frx × Source) (h : r.1.status.busy = false) :
    runTurns (frxTurn p) n r = r :=
  runTurns_none _ _ _ (by simp [frxTurn, h])

/-- The control bit is 0 or 1. -/
theorem hdrControl_one (w : Word) (h : hdrControl w ≠ 0#1) : hdrControl w = 1#1 := by
  rcases BitVec.eq_zero_or_eq_one (hdrControl w) with h' | h'
  · exact absurd h' h
  · exact h'

/-- The first turn of an accepted READ. -/
theorem frxTurn_accepted (p : Config.Params) (x : Frx) (src : Source) :
    frxTurn p (frxAccept x, src) = frxHeaderWord (frxAccept x, src) := by
  simp [frxTurn, statusAccepted]

/-- The turn after a HeaderWord. -/
theorem frxTurn_gotHeader (p : Config.Params) (w : Word) (x : Frx) (src : Source) :
    frxTurn p (frxGotHeader w (frxAccept x), src) =
      if hdrControl w = 0#1 then some (frxDataFrame (frxGotHeader w (frxAccept x), src))
      else frxFlagLength p (frxGotHeader w (frxAccept x), src) := by
  simp [frxTurn, frxGotHeader, statusAccepted]

/-- The turn after a FlagLengthWord. -/
theorem frxTurn_gotLength (p : Config.Params) (w0 w1 : Word) (x : Frx) (src : Source)
    (h : hdrControl w0 ≠ 0#1) :
    frxTurn p (frxGotLength w1 (frxGotHeader w0 (frxAccept x)), src) =
      frxReceive (dispatch (hdrType w0)) (flLength w1).toNat
        (frxGotLength w1 (frxGotHeader w0 (frxAccept x)), src) := by
  simp [frxTurn, frxGotHeader, frxGotLength, statusAccepted, h]

/-- A READ over a finite input, from its acceptance to its end: the ten ways it can go, in the order of
R271, each with what FRX and FSRC then are. -/
theorem readRun_cases (p : Config.Params) (x : Frx) (b : Bytes) (t : Terminator) (k : Nat) (y : Frx)
    (src : Source)
    (h : runTurns (frxTurn p) readSteps (frxAccept x, ⟨b, tailOf t, k, false⟩) = (y, src)) :
    let w0 := be32At b 0
    let w1 := be32At b 4
    let l := (flLength w1).toNat
    let x0 := frxAccept x
    let xh := frxGotHeader w0 x0
    let xl := frxGotLength w1 xh
    (b = [] ∧ t = .ended ∧ y = frxRaise .endOfStream x0 ∧ src = ⟨[], tailOf t, k, false⟩) ∨
    (b ≠ [] ∧ b.length < 4 ∧ t = .ended ∧ y = frxRaise (.truncation .inHeaderWord) x0 ∧
      src = ⟨[], tailOf t, k, true⟩) ∨
    (∃ e, b.length < 4 ∧ t = .failed e ∧ y = frxRaise (.ioError e) x0 ∧
      src = ⟨b, tailOf t, k, true⟩) ∨
    (4 ≤ b.length ∧ hdrControl w0 = 0#1 ∧ y = frxRaise .unsupportedDataFrame xh ∧
      src = ⟨b.drop 4, tailOf t, k, true⟩) ∨
    (4 ≤ b.length ∧ b.length < 8 ∧ hdrControl w0 = 1#1 ∧ t = .ended ∧
      y = frxRaise (.truncation .inFlagLengthWord) xh ∧ src = ⟨[], tailOf t, k, true⟩) ∨
    (∃ e, 4 ≤ b.length ∧ b.length < 8 ∧ hdrControl w0 = 1#1 ∧ t = .failed e ∧
      y = frxRaise (.ioError e) xh ∧ src = ⟨b.drop 4, tailOf t, k, true⟩) ∨
    (8 ≤ b.length ∧ hdrControl w0 = 1#1 ∧ p.payloadMax < l ∧
      y = frxRaise (.protocolViolation .limitExceeded) xl ∧ src = ⟨b.drop 8, tailOf t, k, true⟩) ∨
    (8 ≤ b.length ∧ hdrControl w0 = 1#1 ∧ l ≤ p.payloadMax ∧ b.length < 8 + l ∧ t = .ended ∧
      y = frxRaise (.truncation .inPayload) (frxStore (b.drop 8) xl) ∧
      src = ⟨[], tailOf t, k, true⟩) ∨
    (∃ e, 8 ≤ b.length ∧ hdrControl w0 = 1#1 ∧ l ≤ p.payloadMax ∧ b.length < 8 + l ∧
      t = .failed e ∧ y = frxRaise (.ioError e) xl ∧ src = ⟨b.drop 8, tailOf t, k, true⟩) ∨
    (hdrControl w0 = 1#1 ∧ l ≤ p.payloadMax ∧ 8 + l ≤ b.length ∧
      y = frxDispatch (dispatch (hdrType w0)) ((b.drop 8).take l) (frxStore ((b.drop 8).take l) xl) ∧
      src = ⟨b.drop (8 + l), tailOf t, k, false⟩) := by
  intro w0 w1 l x0 xh xl
  change runTurns (frxTurn p) 3 _ = _ at h
  have t1 := frxTurn_accepted p x ⟨b, tailOf t, k, false⟩
  have hended : ∀ e, tailOf t = .ended → tailOf t ≠ .failed e ∧ t = .ended := by
    intro e ht; cases t <;> simp_all [tailOf]
  have hfailed : ∀ e, tailOf t = .failed e → t = .failed e := by
    intro e ht; cases t <;> simp_all [tailOf]
  have hsilent : tailOf t ≠ .growing := by cases t <;> simp [tailOf]
  rcases frxHeaderWord_cases (frxAccept x, ⟨b, tailOf t, k, false⟩) with
    ⟨h1, e⟩ | ⟨_, h2, _⟩ | ⟨h1, h2, e⟩ | ⟨h1, h2, h3, e⟩ | ⟨c, h1, h2, e⟩
  · rw [runTurns_some _ _ _ _ (t1.trans e)] at h
    simp only [be32At_take _ _ _ (show 0 + 4 ≤ 4 by omega)] at h h1
    have t2 := frxTurn_gotHeader p w0 x ⟨b.drop 4, tailOf t, k, false⟩
    by_cases hc : hdrControl w0 = 0#1
    · rw [if_pos hc] at t2
      rw [runTurns_some _ _ _ _ t2, frxTurn_idle _ _ _ rfl] at h
      cases h
      exact .inr (.inr (.inr (.inl ⟨h1, hc, rfl, rfl⟩)))
    · have hc1 := hdrControl_one w0 hc
      rw [if_neg hc] at t2
      have hw1 : 8 ≤ b.length → be32At ((b.drop 4).take 4) 0 = w1 := by
        intro _; rw [be32At_take _ _ _ (by omega), be32At_drop]
      rcases frxFlagLength_cases p (frxGotHeader w0 (frxAccept x), ⟨b.drop 4, tailOf t, k, false⟩) with
        ⟨g1, g2, e⟩ | ⟨g1, g2, e⟩ | ⟨g1, g2, _⟩ | ⟨g1, g2, e⟩ | ⟨c, g1, g2, e⟩ <;>
        simp only [List.length_drop] at g1
      · have h8 : 8 ≤ b.length := by omega
        rw [runTurns_some _ _ _ _ (t2.trans e)] at h
        simp only [hw1 h8, List.drop_drop] at h g2
        have t3 := frxTurn_gotLength p w0 w1 x ⟨b.drop 8, tailOf t, k, false⟩ hc
        rcases frxReceive_cases (dispatch (hdrType w0)) l
            (frxGotLength w1 (frxGotHeader w0 (frxAccept x)), ⟨b.drop 8, tailOf t, k, false⟩) with
          ⟨k1, e⟩ | ⟨k1, k2, _⟩ | ⟨k1, k2, e⟩ | ⟨c, k1, k2, e⟩ <;> simp only [List.length_drop] at k1
        · rw [runTurns_some _ _ _ _ (t3.trans e)] at h
          simp only [runTurns_zero, Prod.mk.injEq, List.drop_drop] at h
          iterate 9 right
          exact ⟨hc1, g2, by omega, h.1.symm, h.2.symm⟩
        · exact absurd k2 hsilent
        · rw [runTurns_some _ _ _ _ (t3.trans e)] at h
          simp only [runTurns_zero, Prod.mk.injEq] at h
          iterate 7 right
          exact .inl ⟨h8, hc1, g2, by omega, (hended 0 k2).2, h.1.symm, h.2.symm⟩
        · rw [runTurns_some _ _ _ _ (t3.trans e)] at h
          simp only [runTurns_zero, Prod.mk.injEq] at h
          iterate 8 right
          exact .inl ⟨c, h8, hc1, g2, by omega, hfailed c k2, h.1.symm, h.2.symm⟩
      · have h8 : 8 ≤ b.length := by omega
        rw [runTurns_some _ _ _ _ (t2.trans e), frxTurn_idle _ _ _ rfl] at h
        simp only [hw1 h8, List.drop_drop, Prod.mk.injEq] at h g2
        iterate 6 right
        exact .inl ⟨h8, hc1, g2, h.1.symm, h.2.symm⟩
      · exact absurd g2 hsilent
      · rw [runTurns_some _ _ _ _ (t2.trans e), frxTurn_idle _ _ _ rfl] at h
        cases h
        iterate 4 right
        exact .inl ⟨h1, by omega, hc1, (hended 0 g2).2, rfl, rfl⟩
      · rw [runTurns_some _ _ _ _ (t2.trans e), frxTurn_idle _ _ _ rfl] at h
        cases h
        iterate 5 right
        exact .inl ⟨c, h1, by omega, hc1, hfailed c g2, rfl, rfl⟩
  · exact absurd h2 hsilent
  · rw [runTurns_some _ _ _ _ (t1.trans e), frxTurn_idle _ _ _ rfl] at h
    cases h
    exact .inl ⟨h1, (hended 0 h2).2, rfl, rfl⟩
  · rw [runTurns_some _ _ _ _ (t1.trans e), frxTurn_idle _ _ _ rfl] at h
    cases h
    exact .inr (.inl ⟨h1, h2, (hended 0 h3).2, rfl, rfl⟩)
  · rw [runTurns_some _ _ _ _ (t1.trans e), frxTurn_idle _ _ _ rfl] at h
    cases h
    exact .inr (.inr (.inl ⟨c, h1, hfailed c h2, rfl, rfl⟩))

end Sys2Proof.Machine
end

