-- ==== Sys2Proof/Tests/Slice0.lean ====
section
/-! SUPPORT. Tests: ill-formed terms; the decoding of words written out from the spec's encodings; one or
two cases of each operation from the vectors of spec/95_test_vectors.md; and, for each statement with
hypotheses, a state and operands that meet them. -/

namespace Sys2Proof.Tests

open Sys2Proof Sys2Proof.Machine

/-! ### Ill-formed terms (R97, R111) -/

theorem test_unknownType_refuses_known_codes :
    wellFormed (.unknownType 3 1 0 0) = false ∧ wellFormed (.unknownType 3 2 0 0) = false ∧
      wellFormed (.unknownType 3 3 0 0) = false ∧ wellFormed (.unknownType 3 4 0 0) = false ∧
      wellFormed (.unknownType 3 6 0 0) = false ∧ wellFormed (.unknownType 3 7 0 0) = false ∧
      wellFormed (.unknownType 3 8 0 0) = false ∧ wellFormed (.unknownType 3 9 0 0) = false ∧
      wellFormed (.unknownType 3 10 0 0) = false := by decide

theorem test_unknownType_takes_the_other_codes :
    wellFormed (.unknownType 3 0 0 0) = true ∧ wellFormed (.unknownType 3 5 0 0) = true ∧
      wellFormed (.unknownType 3 11 0 0) = true ∧ wellFormed (.unknownType 3 65535 0 0) = true := by decide

/-! ### Decoding: words written out from R42, R91, R93, R97, R113, R138, R240 -/

/-- RX_CMD is register 0x00; 1 requests READ (R35, R42). -/
theorem test_decode_read : decode (.command 0b00000000 0b1) = .ok .read := by decide

/-- TX_CMD is register 0x10; 1 requests WRITE (R35, R42). -/
theorem test_decode_write : decode (.command 0b00010000 0b1) = .ok .write := by decide

/-- NV_CMD is register 0x20; 2'b01 requests NV.DEC (R37, R151). -/
theorem test_decode_nvDec : decode (.command 0b00100000 0b01) = .ok .nvDec := by decide

/-- NV_CMD; 2'b10 requests NV.ENC (R37, R152). -/
theorem test_decode_nvEnc : decode (.command 0b00100000 0b10) = .ok .nvEnc := by decide

/-- The other values written to a command register are ignored (R35, R37). -/
theorem test_decode_ignored :
    decode (.command 0x00 0) = .error .ignoredCommandValue ∧
      decode (.command 0x20 0) = .error .ignoredCommandValue ∧
      decode (.command 0x20 3) = .error .ignoredCommandValue ∧
      decode (.command 0x12 1) = .error .notACommandRegister := by decide

/-- control 1, version 3, type 1; flags 0xA5, length 196 (R91, R93, R97). -/
theorem test_decode_decSynStream :
    decode (.header 0b10000000000000110000000000000001
      0b10100101000000000000000011000100) = .ok (.decSynStream 3 0xA5 196) := by decide

/-- control 1, version 3, type 2; flags 0xA5, length 197 (R91, R93, R97). -/
theorem test_decode_decSynReply :
    decode (.header 0b10000000000000110000000000000010
      0b10100101000000000000000011000101) = .ok (.decSynReply 3 0xA5 197) := by decide

/-- control 1, version 3, type 3; flags 0xA5, length 198 (R91, R93, R97). -/
theorem test_decode_decRstStream :
    decode (.header 0b10000000000000110000000000000011
      0b10100101000000000000000011000110) = .ok (.decRstStream 3 0xA5 198) := by decide

/-- control 1, version 3, type 4; flags 0xA5, length 199 (R91, R93, R97). -/
theorem test_decode_decSettings :
    decode (.header 0b10000000000000110000000000000100
      0b10100101000000000000000011000111) = .ok (.decSettings 3 0xA5 199) := by decide

/-- control 1, version 3, type 6; flags 0xA5, length 201 (R91, R93, R97). -/
theorem test_decode_decPing :
    decode (.header 0b10000000000000110000000000000110
      0b10100101000000000000000011001001) = .ok (.decPing 3 0xA5 201) := by decide

/-- control 1, version 3, type 7; flags 0xA5, length 202 (R91, R93, R97). -/
theorem test_decode_decGoaway :
    decode (.header 0b10000000000000110000000000000111
      0b10100101000000000000000011001010) = .ok (.decGoaway 3 0xA5 202) := by decide

/-- control 1, version 3, type 8; flags 0xA5, length 203 (R91, R93, R97). -/
theorem test_decode_decHeaders :
    decode (.header 0b10000000000000110000000000001000
      0b10100101000000000000000011001011) = .ok (.decHeaders 3 0xA5 203) := by decide

/-- control 1, version 3, type 9; flags 0xA5, length 204 (R91, R93, R97). -/
theorem test_decode_decWindowUpdate :
    decode (.header 0b10000000000000110000000000001001
      0b10100101000000000000000011001100) = .ok (.decWindowUpdate 3 0xA5 204) := by decide

/-- control 1, version 3, type 10; flags 0xA5, length 205 (R91, R93, R97). -/
theorem test_decode_decCredential :
    decode (.header 0b10000000000000110000000000001010
      0b10100101000000000000000011001101) = .ok (.decCredential 3 0xA5 205) := by decide

/-- control 1, version 32767, type 5, reserved; all flags, the largest length (R111). -/
theorem test_decode_unknownType :
    decode (.header 0b11111111111111110000000000000101
      0b11111111111111111111111111111111) = .ok (.unknownType 32767 5 255 16777215) := by decide

/-- control 0: a data frame whose stream id is all the other bits (R92, R113). -/
theorem test_decode_dataFrame :
    decode (.dataHeader 0b01111111111111110000000000000010) = .ok (.dataFrame 0x7FFF0002) ∧
      decode (.header 0b00000000000000110000000000000001 0b00000000000000000000000000010000) = .ok (.dataFrame 0x00030001) := by decide

theorem test_decode_encSynStream : decode (.txType 0b0000000000000001) = .ok .encSynStream := by decide

theorem test_decode_encSynReply : decode (.txType 0b0000000000000010) = .ok .encSynReply := by decide

theorem test_decode_encRstStream : decode (.txType 0b0000000000000011) = .ok .encRstStream := by decide

theorem test_decode_encSettings : decode (.txType 0b0000000000000100) = .ok .encSettings := by decide

theorem test_decode_encPing : decode (.txType 0b0000000000000110) = .ok .encPing := by decide

theorem test_decode_encGoaway : decode (.txType 0b0000000000000111) = .ok .encGoaway := by decide

theorem test_decode_encHeaders : decode (.txType 0b0000000000001000) = .ok .encHeaders := by decide

theorem test_decode_encWindowUpdate : decode (.txType 0b0000000000001001) = .ok .encWindowUpdate := by decide

/-- No encoder for Credential, for 5, or for a code outside 1 to 9 (R209, R240). -/
theorem test_decode_txType_refused :
    decode (.txType 10) = .error .knownUnimplemented ∧ decode (.txType 5) = .error .unknownTxType ∧
      decode (.txType 0) = .error .unknownTxType ∧ decode (.txType 11) = .error .unknownTxType := by decide

/-- The ports of the word unit (R138). -/
theorem test_decode_ports :
    decode (.port .hdrPack 1 3 2) = .ok (.hdrPack 1 3 2) ∧
      decode (.port .hdrUnpack 0x80030002 0 0) = .ok (.hdrUnpack 0x80030002) ∧
      decode (.port .flPack 1 16 0) = .ok (.flPack 1 16) ∧
      decode (.port .flUnpack 0x01000010 0 0) = .ok (.flUnpack 0x01000010) ∧
      decode (.port .sidPack 666 0 0) = .ok (.sidPack 666) ∧
      decode (.port .sidUnpack 0x499602D2 0 0) = .ok (.sidUnpack 0x499602D2) ∧
      decode (.port .priPack 5 0 0) = .ok (.priPack 5) ∧
      decode (.port .priUnpack 0xA0000000 0 0) = .ok (.priUnpack 0xA0000000) := by decide

/-- The bytes of V5 and of RD20: a control header takes eight bytes of the stream, a data frame's four. -/
theorem test_decodeBytes :
    decodeBytes [0x80, 0x03, 0x00, 0x0A, 0, 0, 0, 0, 0x77] = .ok (.decCredential 3 0 0, [0x77]) ∧
      decodeBytes [0, 0, 0, 1, 0, 0, 0, 3] = .ok (.dataFrame 1, [0, 0, 0, 3]) ∧
      decodeBytes [0x80, 0x03, 0x00, 0x0A, 0] = .error .tooFewBytes := by decide

/-- The host's numbering: a row of 64 bits is W0 above W1 (R113). -/
theorem test_decodeTableWord :
    decodeTableWord 64 0x8003000100000010 = some (.decSynStream 3 0 16) ∧
      decodeTableWord 16 6 = some .encPing ∧ decodeTableWord 8 1 = some .read ∧
      decodeTableWord 64 0 = some (.dataFrame 0) := by decide

/-! ### Operations: the vectors of spec/95_test_vectors.md -/

/-- The next state, if there is one. -/
def nextOf (o : HostOutcome) : Option State :=
  match o with
  | .next s => some s
  | .fault _ | .refused _ => none

/-- What the host is given by an operation. -/
def answered (i : Instr) : Option (List HostResp) := (nextOf (exec i State.reset)).map State.resp

theorem test_hdrPack :
    answered (.hdrPack 1 3 2) = some [.word 0x80030002] ∧
      answered (.hdrPack 1 0x8003 0x10002) = some [.word 0x80030002] := by decide

/-- V1. -/
theorem test_hdrUnpack :
    answered (.hdrUnpack 0x80030002) = some [.header 1 3 2] ∧
      answered (.hdrUnpack 0x7FFFFFFF) = some [.header 0 32767 65535] := by decide

theorem test_flPack :
    answered (.flPack 1 16) = some [.word 0x01000010] ∧
      answered (.flPack 0x1FF 5) = some [.word 0xFF000005] ∧
      answered (.flPack 2 16777216) = some [.word 0x02000000] := by decide

theorem test_flUnpack : answered (.flUnpack 0x02FFFFFF) = some [.flagLength 2 16777215] := by decide

theorem test_sidPack : answered (.sidPack 0x80000001) = some [.word 1] := by decide

theorem test_sidUnpack :
    answered (.sidUnpack 0x499602D2) = some [.streamId 1234567890] ∧
      answered (.sidUnpack 0xFFFFFFFF) = some [.streamId 2147483647] := by decide

theorem test_priPack :
    answered (.priPack 5) = some [.word 0xA0000000] ∧ answered (.priPack 8) = some [.word 0] := by decide

theorem test_priUnpack :
    answered (.priUnpack 0xBFFFFFFF) = some [.priority 5] ∧
      answered (.priUnpack 0x1FFFFFFF) = some [.priority 0] := by decide

/-- A stream that holds the bytes given and then ends. -/
def streamOf (b : Bytes) : Source := { bytes := b, tail := .ended, skip := 0, lost := false }

/-- The reset state with bytes on FSRC. -/
def withFsrc (b : Bytes) : State := { State.reset with fsrc := streamOf b }

/-- RX_STATUS, the frame shown and what is left of FSRC after an operation. -/
def rxAfter (i : Instr) (s : State) : Option (BitVec 24 × Option Frame × Bytes) :=
  (nextOf (exec i s)).map fun t => (rxStatusWord t.frx, rxFrame t.frx, t.fsrc.bytes)

/-- The bytes of vector RD1. -/
def rd1 : Bytes :=
  [0x80, 3, 0, 1, 0, 0, 0, 0x10, 0, 0, 2, 0x9A, 0x49, 0x96, 2, 0xD2, 0xA0, 0, 0, 0, 0, 1, 2, 3]

/-- RD1. -/
theorem test_read_frame :
    rxAfter .read (withFsrc rd1) =
      some (0x0066, some ⟨3, 0, .synStream 666 1234567890 5 [0, 1, 2, 3]⟩, []) := by decide

/-- RD12 (V4), RD13, RD15, RD21. -/
theorem test_read_ends :
    rxAfter .read (withFsrc []) = some (0x010A, none, []) ∧
      rxAfter .read (withFsrc [0x80]) = some (0x1202, none, []) ∧
      rxAfter .read (withFsrc [0x80, 3, 0, 6]) = some (0x2222, none, []) ∧
      rxAfter .read (withFsrc [0, 3, 0, 2]) = some (0x0422, none, []) := by decide

/-- FRX in the middle of a READ that has the header given. -/
def withHeaderRead (w0 w1 : Word) (payload : Bytes) : State :=
  { withFsrc payload with frx := withHeader w0 w1 (Frx.reset 0) }

/-- RD2: reserved bits are ignored, flags delivered.  RD28: a SynStream of 11 bytes. -/
theorem test_decSynStream :
    rxAfter (.decSynStream 3 1 16) (withHeaderRead 0x80030001 0x01000010
      [0x80, 0, 2, 0x9A, 0xC9, 0x96, 2, 0xD2, 0xBF, 0xFF, 0xFF, 0xFF, 0, 1, 2, 3]) =
        some (0x0066, some ⟨3, 1, .synStream 666 1234567890 5 [0, 1, 2, 3]⟩, []) ∧
      rxAfter (.decSynStream 3 0 11) (withHeaderRead 0x80030001 11 [0, 0, 0, 1, 0, 0, 0, 0, 0, 0, 0]) =
        some (0x1662, none, []) := by decide

theorem test_decSynReply :
    rxAfter (.decSynReply 3 0 6) (withHeaderRead 0x80030002 6 [0x80, 0, 0, 7, 0xAA, 0xBB, 0xCC]) =
        some (0x0066, some ⟨3, 0, .synReply 7 [0xAA, 0xBB]⟩, [0xCC]) ∧
      rxAfter (.decSynReply 3 0 3) (withHeaderRead 0x80030002 3 [0, 0, 0]) =
        some (0x1662, none, []) := by decide

/-- RD4, RD29. -/
theorem test_decRstStream :
    rxAfter (.decRstStream 3 0 8) (withHeaderRead 0x80030003 8 [0, 0, 0, 1, 0xFF, 0xFF, 0xFF, 0xFF]) =
        some (0x0066, some ⟨3, 0, .rstStream 1 0xFFFFFFFF⟩, []) ∧
      rxAfter (.decRstStream 3 0 9) (withHeaderRead 0x80030003 9 [0, 0, 0, 1, 0, 0, 0, 5, 0]) =
        some (0x2662, none, []) := by decide

/-- RD5, and the count of 2^29 that exact arithmetic refuses. -/
theorem test_decSettings :
    rxAfter (.decSettings 3 0 12) (withHeaderRead 0x80030004 12 [0, 0, 0, 1, 1, 0, 0, 4, 0, 0, 0, 0x64]) =
        some (0x0066, some ⟨3, 0, .settings [⟨1, 4, 100⟩]⟩, []) ∧
      rxAfter (.decSettings 3 0 4) (withHeaderRead 0x80030004 4 [0x20, 0, 0, 0]) =
        some (0x1662, none, []) := by decide

/-- RD6, RD33. -/
theorem test_decPing :
    rxAfter (.decPing 3 0 4) (withHeaderRead 0x80030006 4 [0xFF, 0xFF, 0xFF, 0xFF]) =
        some (0x0066, some ⟨3, 0, .ping 4294967295⟩, []) ∧
      rxAfter (.decPing 3 0 8) (withHeaderRead 0x80030006 8 [0, 0, 0, 0x2A, 0, 0, 0, 0]) =
        some (0x2662, none, []) := by decide

theorem test_decGoaway :
    rxAfter (.decGoaway 3 0 8) (withHeaderRead 0x80030007 8 [0xFF, 0xFF, 0xFF, 0xFF, 0, 0, 0, 2]) =
      some (0x0066, some ⟨3, 0, .goAway 2147483647 2⟩, []) := by decide

/-- RD8. -/
theorem test_decHeaders :
    rxAfter (.decHeaders 3 0 7) (withHeaderRead 0x80030008 7 [0, 0, 0, 3, 1, 2, 3]) =
      some (0x0066, some ⟨3, 0, .headers 3 [1, 2, 3]⟩, []) := by decide

theorem test_decWindowUpdate :
    rxAfter (.decWindowUpdate 3 0 8)
      (withHeaderRead 0x80030009 8 [0x80, 0, 0, 1, 0xFF, 0xFF, 0xFF, 0xFF]) =
      some (0x0066, some ⟨3, 0, .windowUpdate 1 2147483647⟩, []) := by decide

/-- RD23: the payload is consumed.  RD19: truncation wins over Credential. -/
theorem test_decCredential :
    rxAfter (.decCredential 3 0 3) (withHeaderRead 0x8003000A 3 [1, 2, 3]) = some (0x2362, none, []) ∧
      rxAfter (.decCredential 3 0 2) (withHeaderRead 0x8003000A 2 [0]) = some (0x3262, none, []) := by
  decide

/-- RD24: the payload is in RXBUF. -/
theorem test_unknownType :
    rxAfter (.unknownType 3 5 0 2) (withHeaderRead 0x80030005 2 [0xAA, 0xBB]) =
        some (0x1362, none, []) ∧
      (nextOf (exec (.unknownType 3 5 0 2) (withHeaderRead 0x80030005 2 [0xAA, 0xBB]))).map
        (fun t => t.frx.buf) = some [(0, 0xAA), (1, 0xBB)] := by decide

/-- RD20: four bytes of the stream are gone before, none after. -/
theorem test_dataFrame :
    rxAfter (.dataFrame 1) (withHeaderRead 1 0 [0, 0, 0, 3, 0x61]) =
      some (0x0422, none, [0, 0, 0, 3, 0x61]) := by decide

/-- The reset state with a descriptor: type, flags, the three fields, the blob. -/
def withDescriptor (type : BitVec 16) (flags : BitVec 8) (f0 f1 f2 : Word) (blob : Bytes) : State :=
  { State.reset with
    ftx := { Ftx.reset 0 with
      type := type, version := 3, flags := flags, f0 := f0, f1 := f1, f2 := f2
      tailLen := BitVec.ofNat 32 blob.length, tail := memWrite [] 0 blob
      set := [(0, ⟨1, 4, 100⟩), (1, ⟨0, 7, 0xFFFFFFFF⟩)] } }

/-- TXBUF, TX_LEN, TX_HW and TX_FL after an encoder. -/
def txAfter (i : Instr) (s : State) : Option (Option Bytes × Nat × Word × Word) :=
  (nextOf (exec i s)).map fun t =>
    (memRead t.ftx.buf 0 t.ftx.len.toNat, t.ftx.len.toNat, t.ftx.hw, t.ftx.fl)

/-- The second vector of ENC.SYN_STREAM: every field is masked. -/
theorem test_encSynStream :
    txAfter .encSynStream (withDescriptor 1 1 0x80000001 0xFFFFFFFF 13 []) =
      some (some [0, 0, 0, 1, 0x7F, 0xFF, 0xFF, 0xFF, 0xA0, 0, 0, 0], 12, 0x80030001, 0x0100000C) := by
  decide

theorem test_encSynReply :
    txAfter .encSynReply (withDescriptor 2 0 7 0 0 [0xAA, 0xBB]) =
      some (some [0, 0, 0, 7, 0xAA, 0xBB], 6, 0x80030002, 6) := by decide

theorem test_encRstStream :
    txAfter .encRstStream (withDescriptor 3 0 1 0xFFFFFFFF 0 []) =
      some (some [0, 0, 0, 1, 0xFF, 0xFF, 0xFF, 0xFF], 8, 0x80030003, 8) := by decide

/-- The payload of P3 step 2. -/
theorem test_encSettings :
    txAfter .encSettings (withDescriptor 4 1 2 0 0 []) =
      some (some [0, 0, 0, 2, 1, 0, 0, 4, 0, 0, 0, 0x64, 0, 0, 0, 7, 0xFF, 0xFF, 0xFF, 0xFF], 20,
        0x80030004, 0x01000014) := by decide

/-- WR17: no wrap to a small length. -/
theorem test_encSettings_overflow :
    (nextOf (exec .encSettings (withDescriptor 4 0 0xFFFFFFFF 0 0 []))).map
      (fun t => (txStatusWord t.ftx, t.ftx.len)) = some (0x0502, 34359738364) := by decide

theorem test_encPing :
    txAfter .encPing (withDescriptor 6 0xFF 0xFFFFFFFF 0 0 []) =
      some (some [0xFF, 0xFF, 0xFF, 0xFF], 4, 0x80030006, 0xFF000004) := by decide

theorem test_encGoaway :
    txAfter .encGoaway (withDescriptor 7 0 0x80000007 0 0 []) =
      some (some [0, 0, 0, 7, 0, 0, 0, 0], 8, 0x80030007, 8) := by decide

theorem test_encHeaders :
    txAfter .encHeaders (withDescriptor 8 0 3 0 0 []) = some (some [0, 0, 0, 3], 4, 0x80030008, 4) := by
  decide

theorem test_encWindowUpdate :
    txAfter .encWindowUpdate (withDescriptor 9 0 1 0xFFFFFFFF 0 []) =
      some (some [0, 0, 0, 1, 0x7F, 0xFF, 0xFF, 0xFF], 8, 0x80030009, 8) := by decide

/-- TX_STATUS, TX_WRITTEN and what FSNK holds after a WRITE. -/
def written (s : State) : Option (BitVec 24 × Nat × Bytes) :=
  (nextOf (exec .write s)).map fun t => (txStatusWord t.ftx, t.ftx.written.toNat, t.fsnk.accepted)

/-- WR3. -/
theorem test_write :
    written (withDescriptor 2 0 7 0 0 [0xAA, 0xBB]) =
      some (0x0006, 14, [0x80, 3, 0, 2, 0, 0, 0, 6, 0, 0, 0, 7, 0xAA, 0xBB]) := by decide

/-- WR12, WR13: nothing is emitted. -/
theorem test_write_refused :
    (nextOf (exec .write (withDescriptor 10 0 0 0 0 []))).map
        (fun t => (txStatusWord t.ftx, t.fsnk.accepted)) = some (0x2302, []) ∧
      (nextOf (exec .write (withDescriptor 5 0 0 0 0 []))).map
        (fun t => (txStatusWord t.ftx, t.fsnk.accepted)) = some (0x1302, []) := by decide

/-- The bytes of vector ND9: a=1, b=2, a=3. -/
def nd9 : Bytes :=
  [0, 0, 0, 3, 0, 0, 0, 1, 0x61, 0, 0, 0, 1, 0x31, 0, 0, 0, 1, 0x62, 0, 0, 0, 1, 0x32,
   0, 0, 0, 1, 0x61, 0, 0, 0, 1, 0x33]

/-- The reset state with bytes on NSRC and a value in CTRL. -/
def withNsrc (b : Bytes) (strict : BitVec 1) : State :=
  { State.reset with nsrc := streamOf b, ctrl := strict }

/-- ND9: last value, first position. -/
theorem test_nvDec :
    (nextOf (exec .nvDec (withNsrc nd9 0))).map
      (fun t => (nvStatusWord t.nvu, t.nvu.nvt, t.nvu.count, t.nvu.bytes)) =
      some (0x0006, [([0x61], [0x33]), ([0x62], [0x32])], 2, 34) := by decide

/-- ND10, ND12: the strict checks. -/
theorem test_nvDec_strict :
    (nextOf (exec .nvDec (withNsrc nd9 1))).map (fun t => nvStatusWord t.nvu) = some 0x4602 ∧
      (nextOf (exec .nvDec (withNsrc [0, 0, 0, 1, 0, 0, 0, 0, 0, 0, 0, 1, 0x78] 1))).map
        (fun t => nvStatusWord t.nvu) = some 0x3602 := by decide

/-- NE6. -/
theorem test_nvEnc :
    (nextOf (exec .nvEnc
      { State.reset with
        nvu := { Nvu.reset 0 with nvt := [([0x61], [0x33]), ([0x62], [0x32])], count := 2 } })).map
      (fun t => (nvStatusWord t.nvu, t.nvu.bytes, t.nsnk.accepted)) =
      some (0x000E, 24, [0, 0, 0, 2, 0, 0, 0, 1, 0x61, 0, 0, 0, 1, 0x33, 0, 0, 0, 1, 0x62, 0, 0, 0, 1,
        0x32]) := by decide

/-- A write of a read-only register: ignored by an idle unit, refused by a busy one (R44, R295). -/
theorem test_regWrite_readOnly :
    hostAccess (.regWrite 0x04 1) State.reset = .next State.reset ∧
      hostAccess (.regWrite 0x04 1) (withHeaderRead 1 0 []) = .refused .busyUnit :=
  ⟨rfl, rfl⟩

/-- A step runs what the host placed: READ and an unknown type after reset. -/
theorem test_withFetchWord :
    (nextOf (step (State.reset.withFetchWord 8 1))).map (fun t => t.frx.status.busy) = some true ∧
      (nextOf (step (State.reset.withFetchWord 64 0x8003000500000000))).map
        (fun t => rxStatusWord t.frx) = some 0x1362 ∧
      (nextOf (step (State.reset.withFetchWord 16 6))).map (fun t => t.ftx.len) = some 4 := by decide

/-! ### Witnesses: states and operands that meet the hypotheses of the statements -/

theorem witness_DecodeAfterEncode :
    wellFormed (.unknownType 0 0 0 0) = true ∧ wellFormed (.unknownType 0 11 0 0) = true ∧
      wellFormed .read = true := by decide

theorem witness_EncodeAfterDecodeHeader :
    hdrControl 0x80030006 = 1#1 ∧ decode (.header 0x80030006 4) = .ok (.decPing 3 0 4) ∧
      decode (.dataHeader 0x7FFFFFFF) = .ok (.dataFrame 0x7FFFFFFF) := by decide

/-- The headers at the ends of each clause's range; no header is in two of them. -/
theorem witness_HeaderSelectsOperation :
    ((0x7FFFFFFF#32 ++ 0xFFFFFFFF#32 : BitVec 64) &&& 0x8000000000000000#64 = 0) ∧
      rowMatches (frameCode .synStream) 0x80000001 0 ∧
      rowMatches (frameCode .windowUpdate) 0xFFFF0009 0xFFFFFFFF ∧
      rowMatches 10 0x8003000A 0 ∧
      unknownCode 0 = true ∧ rowMatches 0 0x80030000 0 ∧
      unknownCode 5 = true ∧ rowMatches 5 0x80030005 0 ∧
      unknownCode 11 = true ∧ rowMatches 11 0x8003000B 0 ∧
      unknownCode 65535 = true ∧ rowMatches 65535 0xFFFFFFFF 0 := by decide

theorem witness_HeaderBytesRoundTrip :
    wellFormed (.decPing 3 0 4) = true ∧ (onPayload (.decPing 3 0 4)).isSome = true ∧
      wellFormed (.dataFrame 7) = true ∧ ∃ n, Instr.dataFrame 7 = .dataFrame n :=
  ⟨by decide, by decide, by decide, 7, rfl⟩

/-- The state the host runs a row of the opcode table in. -/
theorem witness_StepRunsDecodedOperation :
    let s := State.reset.withFetchWord 64 0x8003000600000004
    ∃ e es w i, s.events = e :: es ∧ fetch e { s with events := es } = some w ∧ decode w = .ok i :=
  ⟨.turn .frx, [], .header 0x80030006 4, .decPing 3 0 4, by decide, by decide, by decide⟩

/-- FTX with a WRITE in progress and nothing built. -/
def writing (type : BitVec 16) : State :=
  { withDescriptor type 0 1 2 3 [] with ftx := ftxAccept (withDescriptor type 0 1 2 3 []).ftx }

theorem witness_WhereOperationsAreFetched :
    (let d := withHeaderRead 0x00000001 0 []
     d.frx.status.busy = true ∧ d.frx.hwv = true ∧ hdrControl d.frx.hw = 0#1) ∧
    (let c := withHeaderRead 0x80030006 4 []
     c.frx.status.busy = true ∧ c.frx.hwv = true ∧ hdrControl c.frx.hw = 1#1 ∧ c.frx.flv = true) ∧
    ((writing 6).ftx.status.busy = true ∧ (writing 6).ftx.emitting = false) ∧
    fetchDecoded (.turn .nvu) State.reset = none ∧ fetchDecoded (.turn .frx) State.reset = none ∧
    fetchDecoded (.host (.regWrite 0x12 6)) State.reset = none ∧
    fetchDecoded (.host (.regWrite 0x20 3)) State.reset = none ∧
    fetchDecoded (.host (.regRead 0x01)) State.reset = none := by decide

theorem witness_TurnsAreDecodedOperations :
    fetch (.turn .frx) (withHeaderRead 0x80030006 4 []) = some (.header 0x80030006 4) ∧
      fetch (.turn .frx) (withHeaderRead 1 0 []) = some (.dataHeader 1) ∧
      fetch (.turn .ftx) (writing 9) = some (.txType 9) ∧
      fetch (.turn .ftx) (writing 10) = some (.txType 10) := by decide

/-- ReadIsTheReadFunction, ReadLeavesReadable, StreamPositionAfterRead. -/
theorem witness_Read :
    let s := withFsrc rd1
    readAccepted s ∧ s.pace = .atOnce ∧ finiteInput s.fsrc .ended ∧ ∃ u, exec .read s = .next u :=
  ⟨by decide, by decide, by decide, _, rfl⟩

/-- The same for inputs on which READ fails, and a source that fails: the error each gives. -/
theorem witness_Read_errors :
    let p := Config.defaults
    finiteInput (withFsrc []).fsrc .ended ∧ (readFrame p [] .ended).1 = .error .endOfStream ∧
      (readFrame p [0x80] .ended).1 = .error (.truncation .inHeaderWord) ∧
      (readFrame p [0x80, 3, 0, 6] .ended).1 = .error (.truncation .inFlagLengthWord) ∧
      (readFrame p [0x80, 3, 0, 6, 0, 0, 0, 4, 1] .ended).1 = .error (.truncation .inPayload) ∧
      (readFrame p [0, 0, 0, 1] .ended).1 = .error .unsupportedDataFrame ∧
      (readFrame p [0x80, 3, 0, 5, 0, 0, 0, 0] .ended).1 =
        .error (.unsupportedFrameType .unknownType) ∧
      (readFrame p [0x80, 3, 0, 6, 0, 0, 0, 3, 1, 2, 3] .ended).1 =
        .error (.protocolViolation .payloadTooShort) ∧
      (readFrame { p with payloadMax := 3 } [0x80, 3, 0, 6, 0, 0, 0, 4, 1, 2, 3, 4] .ended).1 =
        .error (.protocolViolation .limitExceeded) ∧
      finiteInput { bytes := [0x80], tail := .failed 7, skip := 0, lost := false } (.failed 7) ∧
      (readFrame p [0x80] (.failed 7)).1 = .error (.ioError 7) := by decide

/-- FSRC with the bytes given, after which the source does not answer. -/
def waitingFor (b : Bytes) (x : Frx) : State :=
  { State.reset with fsrc := { bytes := b, tail := .growing, skip := 0, lost := false }, frx := x }

/-- Each unit at a step that is not answered; a payload of one byte is the shortest that is waited for. -/
theorem witness_SilentStreamsAreWaitedFor :
    (let s := waitingFor [1, 2, 3] (Frx.reset 0)
     readAccepted s ∧ s.fsrc.tail = .growing ∧ s.fsrc.bytes.length < 4 ∧ s.fsrc.lost = false) ∧
    (let s := waitingFor [1, 2, 3] (frxAccept (Frx.reset 0))
     s.frx.status.busy = true ∧ s.frx.hwv = false ∧ s.fsrc.bytes.length < 4) ∧
    (let s := waitingFor [] { withHeader 0x80030006 0 (Frx.reset 0) with flv := false }
     s.frx.status.busy = true ∧ s.frx.hwv = true ∧ hdrControl s.frx.hw = 1#1 ∧ s.frx.flv = false) ∧
    (let s := waitingFor [] (withHeader 0x80030006 1 (Frx.reset 0))
     s.frx.status.busy = true ∧ s.frx.hwv = true ∧ hdrControl s.frx.hw = 1#1 ∧ s.frx.flv = true ∧
      s.fsrc.bytes.length < (flLength s.frx.fl).toNat) ∧
    (let s := { writing 6 with
        ftx := { (writing 6).ftx with emitting := true }, fsnk := { accepted := [], mode := .silent } }
     s.ftx.status.busy = true ∧ s.ftx.emitting = true ∧ s.fsnk.mode = .silent) ∧
    (let s := { State.reset with nvu := nvAcceptDec false (Nvu.reset 0) }
     s.nvu.dir = false ∧ nvNeeds s.nvu.phase = some 4 ∧ s.nsrc.tail = .growing ∧
      s.nsrc.bytes.length < 4) ∧
    (let s := { State.reset with
        nvu := nvAcceptEnc (Nvu.reset 0), nsnk := { accepted := [], mode := .silent } }
     s.nvu.dir = true ∧ s.nvu.phase = .enc [be32 0] ∧ be32 0 ≠ [] ∧ s.nsnk.mode = .silent) := by
  decide

theorem witness_StepwiseCommandsAgree :
    readAccepted (withFsrc rd1) ∧ (∃ u, exec .read { withFsrc rd1 with pace := .stepwise } = .next u) ∧
      (∃ v, exec .read { withFsrc rd1 with pace := .atOnce } = .next v) ∧
    (let w := withDescriptor 6 0 1 0 0 []
     writeAccepted w ∧ (∃ u, exec .write { w with pace := .stepwise } = .next u) ∧
      ∃ v, exec .write { w with pace := .atOnce } = .next v) :=
  ⟨by decide, ⟨_, rfl⟩, ⟨_, rfl⟩, by decide, ⟨_, rfl⟩, ⟨_, rfl⟩⟩

theorem witness_BusyUnitDropsCommands :
    { State.reset with resetLine := true }.resetLine = true ∧
      (withHeaderRead 1 0 []).frx.status.busy = true ∧ (writing 6).ftx.status.busy = true ∧
      (nvAcceptDec false (Nvu.reset 0)).status.busy = true := by decide

/-- DecSynStreamResult, DecBlobAfterStreamIdResult, DecFixedSizeResult, DecSettingsResult,
UnsupportedTypesFail, PayloadLandsInRxbuf: the source holds exactly the payload, and more than it. -/
theorem witness_payload_held :
    (12#24).toNat ≤ (withFsrc (List.replicate 12 0)).fsrc.bytes.length ∧
      (11#24).toNat ≤ (withFsrc (List.replicate 12 0)).fsrc.bytes.length ∧
      (0#24).toNat ≤ (withFsrc []).fsrc.bytes.length ∧
      onPayload (.decSynStream 3 0 12) = some 12 ∧ onPayload (.unknownType 3 5 0 0) = some 0 := by
  decide

/-- The first entry, the last one and the number after it of a Settings frame of one entry. -/
theorem witness_SettingsEntriesInRxset :
    let s := withHeaderRead 0x80030004 12 [0, 0, 0, 1, 1, 0, 0, 4, 0, 0, 0, 0x64]
    (12#24).toNat ≤ s.fsrc.bytes.length ∧ hdrType s.frx.hw = 4 ∧
      ∃ u, exec (.decSettings 3 0 12) s = .next u ∧ u.frx.status.ok = true ∧
        0 < u.frx.f0.toNat ∧ u.frx.f0.toNat ≤ 1 :=
  ⟨by decide, by decide, _, rfl, by decide, by decide, by decide⟩

/-- One byte missing, for each of the three answers. -/
theorem witness_ShortPayloadIsReported :
    onPayload (.decPing 3 0 4) = some 4 ∧ (withFsrc [1, 2, 3]).fsrc.bytes.length < (4#24).toNat ∧
      (withFsrc [1, 2, 3]).fsrc.tail = .ended ∧
      (waitingFor [1, 2, 3] (Frx.reset 0)).fsrc.bytes.length < (4#24).toNat ∧
      (waitingFor [1, 2, 3] (Frx.reset 0)).fsrc.tail = .growing ∧
      { State.reset with fsrc := { bytes := [], tail := .failed 7, skip := 0, lost := false } }.fsrc.tail =
        .failed 7 := by decide

/-- One byte below, at, and (for a fixed size) above the size. -/
theorem witness_DecodersConsume :
    [1, 2, 3].length < consumedBytes .ping [1, 2, 3] ∧
      consumedBytes .ping [1, 2, 3, 4] ≤ [1, 2, 3, 4].length ∧
      consumedBytes .ping [1, 2, 3, 4, 5] ≤ [1, 2, 3, 4, 5].length ∧
      [0, 0, 0, 1].length < consumedBytes .settings [0, 0, 0, 1] ∧
      [0, 0, 0].length < consumedBytes .settings [0, 0, 0] := by decide

/-- A capacity one below the payload of a Ping, and one that just holds it. -/
theorem witness_EncFixedSizeResult :
    { Config.defaults with payloadMax := 3 }.payloadMax < (be32 0).length ∧
      ¬ { Config.defaults with payloadMax := 4 }.payloadMax < (be32 0).length := by decide

/-- A descriptor whose blob has the length given and is read from the bytes given. -/
def withTailLen (payloadMax : Nat) (n : Word) (blob : Bytes) : State :=
  { withDescriptor 2 0 7 0 0 blob with
    params := { Config.defaults with payloadMax := payloadMax }
    ftx := { (withDescriptor 2 0 7 0 0 blob).ftx with tailLen := n } }

/-- Each of the three outcomes at the boundary of its range: above 2^24 - 1, above PAYLOAD_MAX, within. -/
theorem witness_EncBlobResult :
    (let s := withTailLen 16777215 16777212 []
     16777215 < 4 + s.ftx.tailLen.toNat ∧ 16777215 < 12 + s.ftx.tailLen.toNat) ∧
    (let s := withTailLen 16777214 16777211 []
     4 + s.ftx.tailLen.toNat ≤ 16777215 ∧
      s.params.payloadMax < 4 + s.ftx.tailLen.toNat) ∧
    (let s := withTailLen 16777214 16777203 []
     12 + s.ftx.tailLen.toNat ≤ 16777215 ∧ s.params.payloadMax < 12 + s.ftx.tailLen.toNat) ∧
    (let s := withTailLen 14 2 [0xAA, 0xBB]
     4 + s.ftx.tailLen.toNat ≤ s.params.payloadMax ∧ 12 + s.ftx.tailLen.toNat ≤ s.params.payloadMax ∧
      memRead s.ftx.tail 0 s.ftx.tailLen.toNat = some [0xAA, 0xBB]) := by decide

/-- A Settings descriptor with an entry count, at a capacity. -/
def withCount (payloadMax : Nat) (n : Word) : State :=
  { withDescriptor 4 0 n 0 0 [] with params := { Config.defaults with payloadMax := payloadMax } }

/-- The least count that overflows, one above the capacity, and one that fits exactly. -/
theorem witness_EncSettingsResult :
    (let s := withCount 16777215 2097152
     16777215 < 4 + 8 * s.ftx.f0.toNat) ∧
    (let s := withCount 12 2
     4 + 8 * s.ftx.f0.toNat ≤ 16777215 ∧ s.params.payloadMax < 4 + 8 * s.ftx.f0.toNat) ∧
    (let s := withCount 20 2
     let es : List SetEntry := [⟨1, 4, 100⟩, ⟨0, 7, 0xFFFFFFFF⟩]
     4 + 8 * s.ftx.f0.toNat ≤ s.params.payloadMax ∧ es.length = s.ftx.f0.toNat ∧
      ∀ i, i < es.length → storeGet s.ftx.set i = es[i]?) := by decide

theorem witness_PayloadCodecsAreInverse :
    (∀ es, Body.settings [⟨1, 4, 100⟩] = .settings es → es.length < 2 ^ 32) ∧
      decoderOf .synReply [0x80, 0, 0, 7, 1] =
        .decoded (.synReply 7 [1]) [0x80, 0, 0, 7, (1 : Byte)].length :=
  ⟨fun es h => by cases h; decide, by decide⟩

/-- A type with an encoder, one without, and each kind of sink. -/
theorem witness_WriteIsTheWriteFunction :
    let s := withDescriptor 6 0 1 0 0 []
    writeAccepted s ∧ s.pace = .atOnce ∧ s.fsnk.mode = .accepts ∧
      writeAccepted { s with fsnk := { accepted := [], mode := .fails 9 } } ∧
      writeAccepted { s with fsnk := { accepted := [], mode := .silent } } := by decide

theorem witness_ReadInvertsWrite :
    Config.defaults.legal ∧ (bodyPayload (.ping 1)).length ≤ Config.defaults.payloadMax ∧
      { Config.defaults with payloadMax := 4 }.legal ∧
      (bodyPayload (.ping 1)).length ≤ { Config.defaults with payloadMax := 4 }.payloadMax := by decide

theorem witness_WrittenFramesReadBack :
    let s := withDescriptor 6 0 1 0 0 []
    let r := withFsrc [0x80, 3, 0, 6, 0, 0, 0, 4, 0, 0, 0, 1, 0x77]
    writeAccepted s ∧ s.pace = .atOnce ∧ s.fsnk.mode = .accepts ∧
      kindOfCode s.ftx.type = some .ping ∧ (encoderOf .ping).len s.ftx ≤ 16777215 ∧
      (encoderOf .ping).len s.ftx ≤ s.params.payloadMax ∧ readAccepted r ∧ r.pace = .atOnce ∧
      r.params = s.params ∧ finiteInput r.fsrc .ended ∧
      ∃ u, exec .write s = .next u ∧
        r.fsrc.bytes = u.fsnk.accepted.drop s.fsnk.accepted.length ++ [0x77] :=
  ⟨by decide, by decide, by decide, by decide, by decide, by decide, by decide, by decide, by decide,
    by decide, _, rfl, by decide⟩

theorem witness_NvDecIsTheDecodeFunction :
    let s := withNsrc nd9 0
    nvAccepted s ∧ s.pace = .atOnce ∧ finiteInput s.nsrc .ended ∧ s.params.legal := by decide

/-- The reset state with a table of two pairs. -/
def withTable : State :=
  { State.reset with nvu := { Nvu.reset 0 with nvt := [([0x61], [0x33]), ([], [0x32])], count := 2 } }

/-- A sink of each kind. -/
theorem witness_NvEncIsTheEncodeFunction :
    nvAccepted withTable ∧ withTable.pace = .atOnce ∧ withTable.params.legal ∧
      nvFits withTable.params withTable.nvu.nvt ∧
      withTable.nvu.count.toNat = withTable.nvu.nvt.length ∧ withTable.nsnk.mode = .accepts ∧
      (let s := { withTable with nsnk := { accepted := [], mode := .fails 9 } }
       nvAccepted s ∧ s.pace = .atOnce ∧ s.params.legal ∧ nvFits s.params s.nvu.nvt ∧
        s.nvu.count.toNat = s.nvu.nvt.length) ∧
      (let s := { withTable with nsnk := { accepted := [], mode := .silent } }
       nvAccepted s ∧ s.pace = .atOnce ∧ s.params.legal ∧ nvFits s.params s.nvu.nvt ∧
        s.nvu.count.toNat = s.nvu.nvt.length) := by decide

/-- NV.ENC on a sink that fails, and on one that does not answer. -/
theorem test_nvEnc_sinks :
    (nextOf (exec .nvEnc { withTable with nsnk := { accepted := [], mode := .fails 9 } })).map
        (fun t => nvStatusWord t.nvu) = some 0x09070A ∧
      (nextOf (exec .nvEnc { withTable with nsnk := { accepted := [], mode := .silent } })).map
        (fun t => (nvStatusWord t.nvu, t.nsnk.accepted)) = some (0x000009, []) := by decide

theorem witness_NameValueRoundTrip :
    let t : NvTable := [([0x61], []), ([0x62], [1, 2])]
    Config.defaults.legal ∧ nvFits Config.defaults t ∧ (true = true → ∀ x ∈ t, x.1 ≠ []) := by decide

theorem witness_LastWriteWins :
    ([0x62] : Bytes) ≠ [0x61] ∧ nvUnique [([0x61], [1]), ([0x62], [2])] ∧
      ([0x61] : Bytes) ∈ [([0x61], [1]), (([0x62] : Bytes), ([2] : Bytes))].map Prod.fst := by decide

theorem witness_DecodedTableFits :
    nvDecode Config.defaults false (nd9 ++ [0x77]) .ended =
      .ok ([([0x61], [0x33]), ([0x62], [0x32])], 34, [0x77]) := by decide

theorem witness_StrictDecodingRefinesPlain :
    nvDecode Config.defaults true [0, 0, 0, 1, 0, 0, 0, 1, 0x61, 0, 0, 0, 0] .ended =
      .ok ([([0x61], [])], 13, []) := by decide

theorem witness_NvCommandsEndWithinTheirAccesses :
    (let s := withNsrc nd9 0
     nvAccepted s ∧ finiteInput s.nsrc .ended ∧ s.params.legal ∧ 4 ≤ s.nsrc.bytes.length ∧
      (∃ u, exec .nvDec { s with pace := .stepwise } = .next u) ∧
      ∃ v, exec .nvDec { s with pace := .atOnce } = .next v) ∧
    nvAccepted withTable ∧ (∃ u, exec .nvEnc { withTable with pace := .stepwise } = .next u) ∧
      ∃ v, exec .nvEnc { withTable with pace := .atOnce } = .next v :=
  ⟨⟨by decide, by decide, by decide, by decide, ⟨_, rfl⟩, ⟨_, rfl⟩⟩, by decide, ⟨_, rfl⟩, ⟨_, rfl⟩⟩

/-- One read of each kind that goes on. -/
theorem witness_ReadsHaveNoSideEffects :
    (∃ t, hostAccess (.regRead 0x01) State.reset = .next t) ∧
      (∃ t, hostAccess (.rxbufRead 0 0) State.reset = .next t) ∧
      (∃ t, hostAccess (.txtailRead 0 0) State.reset = .next t) ∧
      (∃ t, hostAccess (.txsetRead 0) (withDescriptor 4 0 0 0 0 []) = .next t) ∧
      (∃ t, hostAccess (.nvtLength 0 .name) withTable = .next t) ∧
      (∃ t, hostAccess (.nvtRead 1 .value 0 1) withTable = .next t) ∧
      ∃ t, hostAccess (.rxsetRead 0)
        { State.reset with
          frx := { frxHolds [0, 0, 0, 1, 1, 0, 0, 4, 0, 0, 0, 0x64] 4 (Frx.reset 0) with
            hw := 0x80030004, f0 := 1 } } = .next t :=
  ⟨⟨_, rfl⟩, ⟨_, rfl⟩, ⟨_, rfl⟩, ⟨_, rfl⟩, ⟨_, rfl⟩, ⟨_, rfl⟩, ⟨_, rfl⟩⟩

/-- The last bytes of a buffer, one byte beyond, a byte with a value and one without; the last entry of
TXSET and the one beyond. -/
theorem witness_ReadsHaveNoSideEffects_values :
    let s := withDescriptor 2 0 7 0 0 [0xAA, 0xBB]
    s.frx.status.busy = false ∧ s.ftx.status.busy = false ∧
      16777214 + 1 ≤ txtailCap s.params ∧ txtailCap s.params < 16777215 + 1 ∧
      (∀ i, i < 2 → storeGet s.ftx.tail (0 + i) = ([0xAA, 0xBB] : Bytes)[i]?) ∧
      storeGet s.ftx.tail (1 + 1) = none ∧ 2097150 < txsetCap s.params ∧
      txsetCap s.params ≤ 2097151 ∧ storeGet s.ftx.set 1 = some ⟨0, 7, 0xFFFFFFFF⟩ ∧
      storeGet s.ftx.set 2 = none ∧ s.params.payloadMax < 16777215 + 1 ∧
      storeGet s.frx.buf 0 = none := by decide

theorem witness_WrittenRegistersReadBack :
    State.reset.ftx.status.busy = false ∧ State.reset.nvu.status.busy = false := by decide

/-- The last byte of TXTAIL, an empty write at its end, and the last entry of TXSET. -/
theorem witness_TxBuffersTakeWrites :
    State.reset.ftx.status.busy = false ∧
      16777214 + [(1 : Byte)].length ≤ txtailCap State.reset.params ∧
      16777215 + ([] : Bytes).length ≤ txtailCap State.reset.params ∧
      2097150 < txsetCap State.reset.params := by decide

/-- A busy unit of each kind; the first and the last register of each range. -/
theorem witness_BusyUnitsAreClosed :
    (withHeaderRead 1 0 []).frx.status.busy = true ∧ (writing 6).ftx.status.busy = true ∧
      (nvAcceptDec false (Nvu.reset 0)).status.busy = true ∧
      0x01 ≤ (0x01#8).toNat ∧ 0x02 ≤ (0x02#8).toNat ∧ (0x09#8).toNat ≤ 0x09 ∧
      0x11 ≤ (0x11#8).toNat ∧ 0x12 ≤ (0x12#8).toNat ∧ (0x1C#8).toNat ≤ 0x1C ∧
      0x21 ≤ (0x21#8).toNat ∧ (0x23#8).toNat ≤ 0x23 := by decide

/-- No frame shown; a Ping frame, of which RX_F0 is named and RX_F1 is not; FTX and NVU idle. -/
theorem witness_RegisterReadsGiveTheirValues :
    State.reset.frx.status.busy = false ∧ State.reset.frx.status.ok = false ∧
    (let x := { frxHolds [0, 0, 0, 1] 4 (Frx.reset 0) with hw := 0x80030006 }
     x.status.busy = false ∧ x.status.ok = true ∧ hdrType x.hw = frameCode .ping ∧
      0 < namedFields .ping ∧ ¬ 1 < namedFields .ping) ∧
    State.reset.ftx.status.busy = false ∧ State.reset.nvu.status.busy = false ∧
    0x05 ≤ (0x05#8).toNat ∧ (0x09#8).toNat ≤ 0x09 := by decide

/-- RegistersAfterReset: the ends of the range of registers that have no value. -/
theorem witness_RegistersAfterReset :
    0x05 ≤ (0x05#8).toNat ∧ (0x09#8).toNat ≤ 0x09 ∧
      (0x1C#8) ∈ ([0x02, 0x1C] : List (BitVec 8)) := by decide

/-- The ends of each range. -/
theorem witness_UnassignedRegistersReadZero :
    0x0A ≤ (0x0A#8).toNat ∧ (0x0F#8).toNat ≤ 0x0F ∧ 0x1D ≤ (0x1D#8).toNat ∧ (0x1F#8).toNat ≤ 0x1F ∧
      0x24 ≤ (0x24#8).toNat ∧ (0x2F#8).toNat ≤ 0x2F ∧ 0x31 ≤ (0x31#8).toNat ∧
      0x31 ≤ (0xFF#8).toNat := by decide

/-- A table that fits, and one with a repeated name. -/
theorem witness_NvtLoadKeepsTheContract :
    State.reset.nvu.status.busy = false ∧ State.reset.params.legal ∧
      nvFits State.reset.params [([0x61], [])] ∧
      ¬ nvFits State.reset.params [([0x61], []), ([0x61], [1])] := by decide

/-- The last pair, all of its value and one byte more; and the index after it. -/
theorem witness_NvtIsReadByIndex :
    withTable.nvu.status.busy = false ∧ withTable.nvu.count.toNat = withTable.nvu.nvt.length ∧
      withTable.nvu.nvt[1]? = some ([], [0x32]) ∧ 0 + 1 ≤ ([0x32] : Bytes).length ∧
      ¬ 0 + 2 ≤ ([0x32] : Bytes).length ∧ withTable.nvu.count.toNat ≤ 2 := by decide

/-- Nothing in progress; a WRITE whose frame waits for the sink; an NV.ENC at its first string; an NV.DEC. -/
theorem witness_ResetAbandonsOperations :
    { State.reset with events := [.resetLine true] }.events = .resetLine true :: [] ∧
      (let s := { writing 6 with
        ftx := { (writing 6).ftx with emitting := true }, events := [.resetLine false] }
       s.events = .resetLine false :: [] ∧ s.ftx.status.busy = true ∧ s.ftx.emitting = true) ∧
      (nvAcceptEnc (Nvu.reset 0)).phase = .enc (be32 0 :: []) ∧
      (nvAcceptDec false (Nvu.reset 0)).status.busy = true ∧
      (nvAcceptDec false (Nvu.reset 0)).dir = false := by decide

/-- The four statements StepKeeps…: the reset state meets each invariant and steps, and so does a state
whose next event starts a READ. -/
theorem witness_StepKeepsInvariants :
    let s := { State.reset with events := [.host (.regWrite 0x00 1)] }
    blockInv s ∧ frxInv s.params s.frx ∧ ftxInv s.params s.ftx ∧ s.params.legal ∧
      nvuInv s.params s.nvu ∧ ∃ t, step s = .next t :=
  ⟨by decide, by decide, by decide, by decide,
    ⟨by decide, by decide, by decide, by decide, trivial, by decide⟩, _, rfl⟩

end Sys2Proof.Tests
end

