-- ==== Sys2Proof/Proofs/Header.lean ====
section
/-! Frame headers: what the decoder reads from the words and the bytes of one (R112, R113), and which
operations it can answer. -/

namespace Sys2Proof.Machine

/-! ### Type codes -/

@[simp] theorem kindOfCode_frameCode (k : FrameKind) : kindOfCode (frameCode k) = some k := by
  cases k <;> decide

/-- The type codes of the default row are those that name neither an implemented type nor Credential. -/
theorem unknownCode_iff (t : BitVec 16) :
    unknownCode t = true ↔ kindOfCode t = none ∧ t ≠ credentialCode := by
  simp only [unknownCode, kindOfCode, credentialCode, Bool.or_eq_true, beq_iff_eq, decide_eq_true_eq,
    BitVec.toNat_eq, ne_eq, BitVec.ofNat_eq_ofNat, BitVec.toNat_ofNat]
  split_ifs <;> simp <;> omega

/-! ### The words of a control header -/

@[simp] theorem hdrControl_controlWord (v : BitVec 15) (t : BitVec 16) :
    hdrControl (controlWord v t) = 1#1 := by simp [controlWord]

@[simp] theorem hdrVersion_controlWord (v : BitVec 15) (t : BitVec 16) :
    hdrVersion (controlWord v t) = v := by simp [controlWord]

@[simp] theorem hdrType_controlWord (v : BitVec 15) (t : BitVec 16) :
    hdrType (controlWord v t) = t := by simp [controlWord]

@[simp] theorem flFlags_flagLengthWord (f : BitVec 8) (l : BitVec 24) :
    flFlags (flagLengthWord f l) = f := by simp [flagLengthWord]

@[simp] theorem flLength_flagLengthWord (f : BitVec 8) (l : BitVec 24) :
    flLength (flagLengthWord f l) = l := by simp [flagLengthWord]

/-! ### Decoding a header -/

/-- A header whose control bit is clear is a data frame's, whatever follows the HeaderWord. -/
theorem decodeHeader_data (w0 w1 : Word) (h : hdrControl w0 = 0#1) :
    decodeHeader w0 w1 = .dataFrame (w0.extractLsb' 0 31) := by simp [decodeHeader, h]

theorem decodeHeader_kind (w0 w1 : Word) (k : FrameKind) (hc : hdrControl w0 = 1#1)
    (hk : kindOfCode (hdrType w0) = some k) :
    decodeHeader w0 w1 = decOperation k (hdrVersion w0) (flFlags w1) (flLength w1) := by
  cases k <;> simp [decodeHeader, hc, hk, decOperation]

theorem decodeHeader_credential (w0 w1 : Word) (hc : hdrControl w0 = 1#1)
    (ht : hdrType w0 = credentialCode) :
    decodeHeader w0 w1 = .decCredential (hdrVersion w0) (flFlags w1) (flLength w1) := by
  have hk : kindOfCode credentialCode = none := by decide
  simp [decodeHeader, hc, ht, hk]

theorem decodeHeader_unknown (w0 w1 : Word) (hc : hdrControl w0 = 1#1)
    (hu : unknownCode (hdrType w0) = true) :
    decodeHeader w0 w1 =
      .unknownType (hdrVersion w0) (hdrType w0) (flFlags w1) (flLength w1) := by
  obtain ⟨hk, ht⟩ := (unknownCode_iff _).1 hu
  simp [decodeHeader, hc, hk, ht]

/-- Every header falls under one of the four lemmas above. -/
theorem header_cases (w0 : Word) :
    hdrControl w0 = 0#1 ∨
    hdrControl w0 = 1#1 ∧
      ((∃ k, kindOfCode (hdrType w0) = some k) ∨ hdrType w0 = credentialCode ∨
        unknownCode (hdrType w0) = true) := by
  rcases BitVec.eq_zero_or_eq_one (hdrControl w0) with hc | hc
  · exact .inl hc
  · refine .inr ⟨hc, ?_⟩
    cases hk : kindOfCode (hdrType w0) with
    | some k => exact .inl ⟨k, rfl⟩
    | none =>
      by_cases ht : hdrType w0 = credentialCode
      · exact .inr (.inl ht)
      · exact .inr (.inr ((unknownCode_iff _).2 ⟨hk, ht⟩))

/-! ### Header operations and their words -/

@[simp] theorem encode_decOperation (k : FrameKind) (v : BitVec 15) (f : BitVec 8) (l : BitVec 24) :
    encode (decOperation k v f l) = controlHeader (frameCode k) v f l := by cases k <;> rfl

/-- The operations on a payload: those of an implemented type, Credential, and the default row. -/
theorem onPayload_cases (i : Instr) (h : (onPayload i).isSome = true) :
    (∃ k v f l, i = decOperation k v f l) ∨ (∃ v f l, i = .decCredential v f l) ∨
      ∃ v t f l, i = .unknownType v t f l := by
  cases i with
  | decSynStream v f l => exact .inl ⟨.synStream, v, f, l, rfl⟩
  | decSynReply v f l => exact .inl ⟨.synReply, v, f, l, rfl⟩
  | decRstStream v f l => exact .inl ⟨.rstStream, v, f, l, rfl⟩
  | decSettings v f l => exact .inl ⟨.settings, v, f, l, rfl⟩
  | decPing v f l => exact .inl ⟨.ping, v, f, l, rfl⟩
  | decGoaway v f l => exact .inl ⟨.goAway, v, f, l, rfl⟩
  | decHeaders v f l => exact .inl ⟨.headers, v, f, l, rfl⟩
  | decWindowUpdate v f l => exact .inl ⟨.windowUpdate, v, f, l, rfl⟩
  | decCredential v f l => exact .inr (.inl ⟨v, f, l, rfl⟩)
  | unknownType v t f l => exact .inr (.inr ⟨v, t, f, l, rfl⟩)
  | _ => cases h

/-- A well-formed operation on a payload is encoded as a control header, which decodes to it. -/
theorem encode_onPayload (i : Instr) (hwf : wellFormed i = true) (h : (onPayload i).isSome = true) :
    ∃ w0 w1, encode i = .header w0 w1 ∧ hdrControl w0 = 1#1 ∧ decodeHeader w0 w1 = i := by
  rcases onPayload_cases i h with ⟨k, v, f, l, rfl⟩ | ⟨v, f, l, rfl⟩ | ⟨v, t, f, l, rfl⟩
  · refine ⟨_, _, encode_decOperation k v f l, hdrControl_controlWord _ _, ?_⟩
    simpa using decodeHeader_kind (controlWord v (frameCode k)) (flagLengthWord f l) k (by simp) (by simp)
  · refine ⟨_, _, rfl, hdrControl_controlWord _ _, ?_⟩
    simpa using decodeHeader_credential (controlWord v 10) (flagLengthWord f l) (by simp)
      (hdrType_controlWord v 10)
  · refine ⟨_, _, rfl, hdrControl_controlWord _ _, ?_⟩
    have hu : unknownCode (hdrType (controlWord v t)) = true := by rw [hdrType_controlWord]; exact hwf
    simpa using decodeHeader_unknown (controlWord v t) (flagLengthWord f l) (by simp) hu

/-- The word of a data frame's header has its control bit clear and the stream id below it. -/
theorem dataWord_fields (n : BitVec 31) :
    hdrControl (n.setWidth 32) = 0#1 ∧ (n.setWidth 32).extractLsb' 0 31 = n := by
  constructor
  · apply BitVec.eq_of_getLsbD_eq
    simp [hdrControl, BitVec.getLsbD_setWidth]
  · apply BitVec.eq_of_getLsbD_eq
    intro i hi
    simp [hi, show i < 32 by omega]

/-! ### Headers at the start of a byte string -/

/-- Of a data frame only the HeaderWord is taken (R233). -/
theorem decodeBytes_dataHeader (w0 : Word) (rest : Bytes) (hc : hdrControl w0 = 0#1) :
    decodeBytes (headerBytes (.dataHeader w0) ++ rest) =
      .ok (.dataFrame (w0.extractLsb' 0 31), rest) := by
  have hlen : ¬ (be32 w0 ++ rest).length < 4 := by simp
  have hdrop : (be32 w0 ++ rest).drop 4 = rest := rfl
  simp only [headerBytes, decodeBytes, hlen, be32At_be32_append, hc, hdrop, decodeHeader_data, if_false,
    if_true]

/-- Of a control frame both words are taken (R112). -/
theorem decodeBytes_controlHeader (w0 w1 : Word) (rest : Bytes) (hc : hdrControl w0 = 1#1) :
    decodeBytes (headerBytes (.header w0 w1) ++ rest) = .ok (decodeHeader w0 w1, rest) := by
  have h4 : ¬ (be32 w0 ++ (be32 w1 ++ rest)).length < 4 := by simp
  have h8 : ¬ (be32 w0 ++ (be32 w1 ++ rest)).length < 8 := by
    simp only [List.length_append, be32_length]; omega
  have hw1 : be32At (be32 w0 ++ (be32 w1 ++ rest)) 4 = w1 := by
    rw [be32At_be32_skip w0 _ 0, be32At_be32_append]
  have hdrop : (be32 w0 ++ (be32 w1 ++ rest)).drop 8 = rest := rfl
  have hne : hdrControl w0 ≠ 0#1 := by rw [hc]; decide
  simp only [headerBytes, List.append_assoc, decodeBytes, h4, h8, be32At_be32_append, hw1, hne, hdrop,
    if_false]

/-- Settles O7: an operation on a payload by its two words, a data frame by its HeaderWord alone. -/
theorem headerBytesRoundTrip : Obligations.HeaderBytesRoundTrip := by
  unfold Obligations.HeaderBytesRoundTrip
  intro i rest hwf h
  rcases h with hp | ⟨n, rfl⟩
  · obtain ⟨w0, w1, henc, hc, hdec⟩ := encode_onPayload i hwf hp
    rw [henc, decodeBytes_controlHeader w0 w1 rest hc, hdec]
  · obtain ⟨hc, hsid⟩ := dataWord_fields n
    rw [encode, decodeBytes_dataHeader _ rest hc, hsid]

end Sys2Proof.Machine
end

