-- ==== Sys2Proof/Proofs/StepRuns.lean ====
section
/-! What a step is: the event alone, or the operation of the words it makes the block fetch; and the
decoder answers well-formed operations only. -/

namespace Sys2Proof.Machine

/-! ### The step, an equation per case -/

theorem step_noEvent (s : State) (h : s.events = []) : step s = .next s := by simp [step, h]

theorem step_event (s : State) (e : Event) (es : List Event) (h : s.events = e :: es) :
    step s = stepEvent e { s with events := es } := by simp [step, h]

theorem stepEvent_operation (e : Event) (s : State) (i : Instr) (h : fetchDecoded e s = some i) :
    stepEvent e s = exec i s := by simp [stepEvent, h]

theorem stepEvent_noOperation (e : Event) (s : State) (h : fetchDecoded e s = none) :
    stepEvent e s = happen e s := by simp [stepEvent, h]

theorem fetchDecoded_of_decode (e : Event) (s : State) (w : InstrWord) (i : Instr)
    (hf : fetch e s = some w) (hd : decode w = .ok i) : fetchDecoded e s = some i := by
  simp [fetchDecoded, hf, hd]

/-! ### The decoder's answers are well formed -/

theorem decodeCommand_wellFormed (reg : BitVec 8) (d : PortData) (i : Instr)
    (h : decodeCommand reg d = .ok i) : wellFormed i = true := by
  unfold decodeCommand at h
  split_ifs at h <;> cases h <;> rfl

theorem decodeTxType_wellFormed (t : BitVec 16) (i : Instr) (h : decodeTxType t = .ok i) :
    wellFormed i = true := by
  unfold decodeTxType at h
  split at h
  case h_9 => split_ifs at h
  all_goals cases h; rfl

@[simp] theorem decOperation_wellFormed (k : FrameKind) (v : BitVec 15) (f : BitVec 8)
    (l : BitVec 24) : wellFormed (decOperation k v f l) = true := by cases k <;> rfl

/-- The one operand that is checked, the type code of the default row, is read only where it passes. -/
theorem decodeHeader_wellFormed (w0 w1 : Word) : wellFormed (decodeHeader w0 w1) = true := by
  rcases header_cases w0 with hc | ⟨hc, ⟨k, hk⟩ | ht | hu⟩
  · rw [decodeHeader_data w0 w1 hc]; rfl
  · rw [decodeHeader_kind w0 w1 k hc hk, decOperation_wellFormed]
  · rw [decodeHeader_credential w0 w1 hc ht]; rfl
  · rw [decodeHeader_unknown w0 w1 hc hu]; exact hu

theorem decodePort_wellFormed (fn : WordFn) (a b c : Word) : wellFormed (decodePort fn a b c) = true := by
  cases fn <;> rfl

theorem decode_wellFormed (w : InstrWord) (i : Instr) (h : decode w = .ok i) : wellFormed i = true := by
  cases w with
  | command reg d => exact decodeCommand_wellFormed reg d i h
  | dataHeader w0 =>
    rw [decode] at h
    split_ifs at h
    cases h; rfl
  | header w0 w1 => cases h; exact decodeHeader_wellFormed w0 w1
  | txType t => exact decodeTxType_wellFormed t i h
  | port fn a b c => cases h; exact decodePort_wellFormed fn a b c

/-- Settles O9. -/
theorem stepRunsDecodedOperation : Obligations.StepRunsDecodedOperation := by
  unfold Obligations.StepRunsDecodedOperation
  intro s e es w i hev hf hd
  refine ⟨?_, decode_wellFormed w i hd⟩
  rw [step_event s e es hev, stepEvent_operation _ _ _ (fetchDecoded_of_decode _ _ _ _ hf hd)]

end Sys2Proof.Machine
end

