-- ==== Sys2Proof/Proofs/ResetInvariant.lean ====
section
/-! No step leaves a unit busy under reset.  Only the four commands make a unit busy, and a block held in
reset drops them (R290); everything else lets an idle unit stay idle. -/

namespace Sys2Proof.Machine

/-! ### Idle units stay idle -/

@[simp] theorem frxDeliver_status (body : Body) (l : Nat) (x : Frx) :
    (frxDeliver body l x).status = statusSucceeded := rfl

theorem frxDispatch_idle (d : Option (Bytes → DecResult)) (p : Bytes) (x : Frx) :
    (frxDispatch d p x).status.busy = false := by
  rcases frxDispatch_cases d p x with
    ⟨_, e⟩ | ⟨_, _, ⟨_, e⟩ | ⟨_, e⟩ | ⟨_, _, _, ⟨_, e⟩ | ⟨_, e⟩⟩⟩ <;> simp [e]

/-- Once the source has answered the payload read, the READ is over. -/
theorem frxReceive_idle (d : Option (Bytes → DecResult)) (l : Nat) (r r' : Frx × Source)
    (h : frxReceive d l r = some r') : r'.1.status.busy = false := by
  rcases frxReceive_cases d l r with ⟨_, e⟩ | ⟨_, _, e⟩ | ⟨_, _, e⟩ | ⟨_, _, _, e⟩ <;>
    rw [e] at h <;> cases h
  · exact frxDispatch_idle _ _ _
  · rfl
  · rfl

theorem frxTurn_of_idle (p : Config.Params) (r : Frx × Source) (h : r.1.status.busy = false) :
    frxTurn p r = none := by simp [frxTurn, h]

theorem ftxTurn_of_idle (p : Config.Params) (r : Ftx × Sink) (h : r.1.status.busy = false) :
    ftxTurn p r = none := by simp [ftxTurn, h]

theorem ftxEncode_idle (p : Config.Params) (enc : Encoder) (x : Ftx) (h : x.status.busy = false) :
    (ftxEncode p enc x).status.busy = false := by
  rcases ftxEncode_cases p enc x with ⟨_, e⟩ | ⟨_, _, e⟩ | ⟨_, _, e⟩ <;> simp [e, h]

theorem nvNextPair_idle (n : Nat) (x : Nvu) (h : x.status.busy = false) :
    (nvNextPair n x).status.busy = false := by
  cases n with
  | zero => rfl
  | succ more => exact h

theorem nvCheckLength_idle (p : Config.Params) (len : Nat) (next : NvPhase) (x y : Nvu)
    (h : x.status.busy = false) (hy : nvCheckLength p len next x = .ok y) : y.status.busy = false := by
  rw [nvCheckLength_eq] at hy
  split_ifs at hy
  cases hy; exact h

theorem nvEndPair_idle (p : Config.Params) (more : Nat) (name value : Bytes) (x y : Nvu)
    (h : x.status.busy = false) (hy : nvEndPair p more name value x = .ok y) :
    y.status.busy = false := by
  rw [nvEndPair_eq] at hy
  split at hy <;> cases hy
  exact nvNextPair_idle _ _ h

/-- A read of NV.DEC leaves an idle unit idle when what is done with the bytes does. -/
theorem nvRead_idle (p : Config.Params) (n : Nat) (point : TruncPoint)
    (f : Bytes → Nvu → Except OpError Nvu) (r r' : Nvu × Source) (h : r.1.status.busy = false)
    (hf : ∀ b x y, x.status.busy = false → f b x = .ok y → y.status.busy = false)
    (hr : nvRead p n point f r = some r') : r'.1.status.busy = false := by
  rcases nvRead_cases p n point f r with
    ⟨x, _, hx, e⟩ | ⟨_, _, _, e⟩ | ⟨_, _, e⟩ | ⟨_, _, e⟩ | ⟨_, _, _, e⟩ <;> rw [e] at hr <;> cases hr
  · exact hf _ _ _ h hx
  · rfl
  · rfl
  · rfl

theorem nvDecTurn_idle (p : Config.Params) (r r' : Nvu × Source) (h : r.1.status.busy = false)
    (hr : nvDecTurn p r = some r') : r'.1.status.busy = false := by
  unfold nvDecTurn at hr
  split at hr
  · cases hr
  · cases hr
  · refine nvRead_idle _ _ _ _ _ _ h (fun b x y hx hy => ?_) hr
    cases hy; exact nvNextPair_idle _ _ hx
  · exact nvRead_idle _ _ _ _ _ _ h (fun b x y hx hy => nvCheckLength_idle _ _ _ _ _ hx hy) hr
  · refine nvRead_idle _ _ _ _ _ _ h (fun b x y hx hy => ?_) hr
    cases hy; exact hx
  · exact nvRead_idle _ _ _ _ _ _ h (fun b x y hx hy => nvCheckLength_idle _ _ _ _ _ hx hy) hr
  · exact nvRead_idle _ _ _ _ _ _ h (fun b x y hx hy => nvEndPair_idle _ _ _ _ _ _ hx hy) hr

theorem nvNextPiece_idle (bs : List Bytes) (x : Nvu) (h : x.status.busy = false) :
    (nvNextPiece bs x).status.busy = false := by
  cases bs with
  | nil => rfl
  | cons b bs => exact h

theorem nvEncTurn_idle (r r' : Nvu × Sink) (h : r.1.status.busy = false) (hr : nvEncTurn r = some r') :
    r'.1.status.busy = false := by
  unfold nvEncTurn at hr
  split at hr
  · split at hr <;> cases hr
    · rfl
    · exact nvNextPiece_idle _ _ h
  all_goals cases hr
  rfl

/-! ### Steps that make no unit busy under reset -/

/-- From `s` to `t` the parameters and the reset input stay, and a unit that is idle under reset stays
idle (R7, R290). -/
structure QuietInReset (s t : State) : Prop where
  params : t.params = s.params
  resetLine : t.resetLine = s.resetLine
  frx : s.resetLine = true → s.frx.status.busy = false → t.frx.status.busy = false
  ftx : s.resetLine = true → s.ftx.status.busy = false → t.ftx.status.busy = false
  nvu : s.resetLine = true → s.nvu.status.busy = false → t.nvu.status.busy = false

/-- A quiet step keeps the invariant of the block. -/
theorem QuietInReset.blockInv {s t : State} (h : QuietInReset s t) (hs : blockInv s) :
    Machine.blockInv t := by
  obtain ⟨hlegal, hidle⟩ := hs
  refine ⟨h.params.symm ▸ hlegal, fun ht => ?_⟩
  have hr : s.resetLine = true := h.resetLine.symm.trans ht
  obtain ⟨hfrx, hftx, hnvu⟩ := hidle hr
  exact ⟨h.frx hr hfrx, h.ftx hr hftx, h.nvu hr hnvu⟩

theorem QuietInReset.of_status {s t : State} (hp : t.params = s.params)
    (hr : t.resetLine = s.resetLine) (hfrx : t.frx.status = s.frx.status)
    (hftx : t.ftx.status = s.ftx.status) (hnvu : t.nvu.status = s.nvu.status) : QuietInReset s t :=
  ⟨hp, hr, fun _ h => hfrx ▸ h, fun _ h => hftx ▸ h, fun _ h => hnvu ▸ h⟩

theorem QuietInReset.refl (s : State) : QuietInReset s s := .of_status rfl rfl rfl rfl rfl

theorem respond_quiet (a : HostResp) (s : State) : QuietInReset s (respond a s) :=
  .of_status rfl rfl rfl rfl rfl

theorem onRx_quiet (s : State) (f : Frx × Source → Frx × Source)
    (h : s.resetLine = true → s.frx.status.busy = false →
      (f (s.frx, s.fsrc)).1.status.busy = false) : QuietInReset s (onRx s f) :=
  ⟨rfl, rfl, h, fun _ => id, fun _ => id⟩

theorem onTx_quiet (s : State) (f : Ftx × Sink → Ftx × Sink)
    (h : s.resetLine = true → s.ftx.status.busy = false →
      (f (s.ftx, s.fsnk)).1.status.busy = false) : QuietInReset s (onTx s f) :=
  ⟨rfl, rfl, fun _ => id, h, fun _ => id⟩

theorem onNvIn_quiet (s : State) (f : Nvu × Source → Nvu × Source)
    (h : s.resetLine = true → s.nvu.status.busy = false →
      (f (s.nvu, s.nsrc)).1.status.busy = false) : QuietInReset s (onNvIn s f) :=
  ⟨rfl, rfl, fun _ => id, fun _ => id, h⟩

theorem onNvOut_quiet (s : State) (f : Nvu × Sink → Nvu × Sink)
    (h : s.resetLine = true → s.nvu.status.busy = false →
      (f (s.nvu, s.nsnk)).1.status.busy = false) : QuietInReset s (onNvOut s f) :=
  ⟨rfl, rfl, fun _ => id, fun _ => id, h⟩

/-! ### Operations -/

/-- What an operation can be, whatever it is: one of the four commands, what is done with a frame whose
header is read, what is done with a descriptor, or an answer of the word unit. -/
inductive OperationForm (s : State) : HostOutcome → Prop where
  | read : OperationForm s (execRead s)
  | write : OperationForm s (execWrite s)
  | nvDec : OperationForm s (execNvDec s)
  | nvEnc : OperationForm s (execNvEnc s)
  | payload (d : Option (Bytes → DecResult)) (l : Nat) : OperationForm s (.next (frameOp d l s))
  | dataFrame : OperationForm s (.next (onRx s frxDataFrame))
  | encoder (enc : Encoder) : OperationForm s (.next (encodeOp enc s))
  | word (a : HostResp) : OperationForm s (.next (respond a s))

theorem exec_form (i : Instr) (s : State) : OperationForm s (exec i s) := by
  cases i with
  | read => exact .read
  | write => exact .write
  | nvDec => exact .nvDec
  | nvEnc => exact .nvEnc
  | decSynStream | decSynReply | decRstStream | decSettings | decPing | decGoaway | decHeaders
  | decWindowUpdate | decCredential | unknownType => exact .payload _ _
  | dataFrame => exact .dataFrame
  | encSynStream | encSynReply | encRstStream | encSettings | encPing | encGoaway | encHeaders
  | encWindowUpdate => exact .encoder _
  | hdrPack | hdrUnpack | flPack | flUnpack | sidPack | sidUnpack | priPack | priUnpack =>
    exact .word _

/-- A command that a block in reset or a busy unit drops is quiet, for it makes a unit busy only outside
reset. -/
theorem command_quiet {s t u : State} {busy : Bool}
    (hu : s.resetLine = false → QuietInReset s u)
    (h : (if s.resetLine = true ∨ busy = true then Host.Outcome.next s else .next u)
      = (.next t : HostOutcome)) : QuietInReset s t := by
  split_ifs at h with hc <;> cases h
  · exact .refl s
  · exact hu (by simpa using fun hr => hc (.inl hr))

theorem frameOp_quiet (d : Option (Bytes → DecResult)) (l : Nat) (s : State) :
    QuietInReset s (frameOp d l s) := by
  refine onRx_quiet s _ fun _ hidle => ?_
  cases hr : frxReceive d l (s.frx, s.fsrc) with
  | none => exact hidle
  | some r' => exact frxReceive_idle _ _ _ _ hr

theorem encodeOp_quiet (enc : Encoder) (s : State) : QuietInReset s (encodeOp enc s) :=
  ⟨rfl, rfl, fun _ => id, fun _ => ftxEncode_idle _ _ _, fun _ => id⟩

theorem OperationForm.quiet {s t : State} {o : HostOutcome} (hform : OperationForm s o)
    (h : o = .next t) : QuietInReset s t := by
  cases hform with
  | read => exact command_quiet (fun hr => onRx_quiet s _ (by simp [hr])) h
  | write => exact command_quiet (fun hr => onTx_quiet s _ (by simp [hr])) h
  | nvDec => exact command_quiet (fun hr => onNvIn_quiet s _ (by simp [hr])) h
  | nvEnc => exact command_quiet (fun hr => onNvOut_quiet s _ (by simp [hr])) h
  | payload d l => cases h; exact frameOp_quiet d l s
  | dataFrame => cases h; exact onRx_quiet s _ fun _ _ => rfl
  | encoder enc => cases h; exact encodeOp_quiet enc s
  | word a => cases h; exact respond_quiet a s

theorem exec_quiet (i : Instr) (s t : State) (h : exec i s = .next t) : QuietInReset s t :=
  (exec_form i s).quiet h

/-! ### Events -/

theorem hostAccess_quiet (r : HostReq) (s t : State) (h : hostAccess r s = .next t) :
    QuietInReset s t := by
  rcases hostAccess_cases r s t h with
    ⟨a, rfl⟩ | ⟨c, _, rfl⟩ | rfl | ⟨x, _, rfl, hstatus, _⟩ | ⟨off, b, _, _, rfl⟩ |
    ⟨j, e, _, _, rfl⟩ | ⟨tb, _, _, rfl⟩
  · exact respond_quiet a s
  · exact .of_status rfl rfl rfl rfl rfl
  · exact .refl _
  · exact .of_status rfl rfl rfl hstatus rfl
  · exact .of_status rfl rfl rfl rfl rfl
  · exact .of_status rfl rfl rfl rfl rfl
  · exact .of_status rfl rfl rfl rfl rfl

theorem nvTurn_quiet (s : State) : QuietInReset s (nvTurn s) := by
  unfold nvTurn
  split
  · refine onNvOut_quiet s _ fun _ hidle => ?_
    cases hr : nvEncTurn (s.nvu, s.nsnk) with
    | none => exact hidle
    | some r' => exact nvEncTurn_idle _ _ hidle hr
  · refine onNvIn_quiet s _ fun _ hidle => ?_
    cases hr : nvDecTurn s.params (s.nvu, s.nsrc) with
    | none => exact hidle
    | some r' => exact nvDecTurn_idle _ _ _ hidle hr

theorem unitTurn_quiet (u : UnitId) (s : State) : QuietInReset s (unitTurn u s) := by
  cases u with
  | frx =>
    refine onRx_quiet s _ fun _ hidle => ?_
    rw [frxTurn_of_idle _ _ hidle]; exact hidle
  | ftx =>
    refine onTx_quiet s _ fun _ hidle => ?_
    rw [ftxTurn_of_idle _ _ hidle]; exact hidle
  | nvu => exact nvTurn_quiet s

theorem onSource_quiet (p : SrcPort) (f : Source → Source) (s : State) :
    QuietInReset s (onSource p f s) := by
  cases p <;> exact .of_status rfl rfl rfl rfl rfl

theorem setSink_quiet (p : SnkPort) (m : SinkMode) (s : State) : QuietInReset s (setSink p m s) := by
  cases p <;> exact .of_status rfl rfl rfl rfl rfl

/-- After a reset event no unit is busy. -/
theorem resetBlock_blockInv (a : Bool) (s : State) (h : blockInv s) :
    blockInv { resetBlock s with resetLine := a } :=
  ⟨h.1, fun _ => ⟨rfl, rfl, rfl⟩⟩

theorem happen_blockInv (e : Event) (s t : State) (hs : blockInv s) (h : happen e s = .next t) :
    blockInv t ∧ t.params = s.params := by
  have hquiet : QuietInReset s t → blockInv t ∧ t.params = s.params := fun q => ⟨q.blockInv hs, q.params⟩
  cases e with
  | host r => exact hquiet (hostAccess_quiet r s t h)
  | turn u => cases h; exact hquiet (unitTurn_quiet u s)
  | deliver p b tail => cases h; exact hquiet (onSource_quiet p _ s)
  | connect p src => cases h; exact hquiet (onSource_quiet p _ s)
  | sink p m => cases h; exact hquiet (setSink_quiet p m s)
  | resetLine a => cases h; exact ⟨resetBlock_blockInv a s hs, rfl⟩
  | pace p => cases h; exact hquiet (.of_status rfl rfl rfl rfl rfl)

theorem stepEvent_blockInv (e : Event) (s t : State) (hs : blockInv s) (h : stepEvent e s = .next t) :
    blockInv t ∧ t.params = s.params := by
  cases hf : fetchDecoded e s with
  | some i =>
    rw [stepEvent_operation e s i hf] at h
    have q := exec_quiet i s t h
    exact ⟨q.blockInv hs, q.params⟩
  | none => exact happen_blockInv e s t hs (stepEvent_noOperation e s hf ▸ h)

/-- Settles O59: every step but a reset event is quiet, and a reset event leaves every unit idle. -/
theorem stepKeepsResetInvariant : Obligations.StepKeepsResetInvariant := by
  unfold Obligations.StepKeepsResetInvariant
  intro s t hs h
  cases hev : s.events with
  | nil =>
    rw [step_noEvent s hev] at h
    cases h; exact ⟨hs, rfl⟩
  | cons e es =>
    rw [step_event s e es hev] at h
    exact stepEvent_blockInv e { s with events := es } t hs h

end Sys2Proof.Machine
end

