-- ==== Sys2Proof/Proofs/DecodeEncode.lean ====
section
/-! The decoder reads back what the encoder writes: header words by Proofs/Header.lean, every other word
from its own table. -/

namespace Sys2Proof.Machine

/-- The type code of an implemented type selects its encoder (R240). -/
theorem decodeTxType_frameCode (k : FrameKind) : decodeTxType (frameCode k) = .ok (encOperation k) := by
  cases k <;> decide

/-- A command, an encoder or a port call is read back from its word: none of them has an operand that the
encoding narrows. -/
theorem decode_encode_of_noHeader (i : Instr) (hp : (onPayload i).isSome = false)
    (hd : ∀ n, i ≠ .dataFrame n) : decode (encode i) = .ok i := by
  cases i with
  | read | write | nvDec | nvEnc => decide
  | encSynStream => exact decodeTxType_frameCode .synStream
  | encSynReply => exact decodeTxType_frameCode .synReply
  | encRstStream => exact decodeTxType_frameCode .rstStream
  | encSettings => exact decodeTxType_frameCode .settings
  | encPing => exact decodeTxType_frameCode .ping
  | encGoaway => exact decodeTxType_frameCode .goAway
  | encHeaders => exact decodeTxType_frameCode .headers
  | encWindowUpdate => exact decodeTxType_frameCode .windowUpdate
  | hdrPack | hdrUnpack | flPack | flUnpack | sidPack | sidUnpack | priPack | priUnpack => rfl
  | dataFrame n => exact absurd rfl (hd n)
  | decSynStream | decSynReply | decRstStream | decSettings | decPing | decGoaway | decHeaders
  | decWindowUpdate | decCredential | unknownType => cases hp

theorem decode_encode_dataFrame (n : BitVec 31) :
    decode (encode (.dataFrame n)) = .ok (.dataFrame n) := by
  obtain ⟨hc, hsid⟩ := dataWord_fields n
  rw [encode, decode, if_pos hc, hsid]

/-- Settles O4: operations on a payload by their two header words, a data frame by its HeaderWord, the
rest by their own word. -/
theorem decodeAfterEncode : Obligations.DecodeAfterEncode := by
  unfold Obligations.DecodeAfterEncode
  intro i hwf
  cases hp : (onPayload i).isSome with
  | true =>
    obtain ⟨w0, w1, henc, -, hdec⟩ := encode_onPayload i hwf hp
    rw [henc, decode, hdec]
  | false =>
    by_cases hd : ∃ n, i = .dataFrame n
    · obtain ⟨n, rfl⟩ := hd
      exact decode_encode_dataFrame n
    · exact decode_encode_of_noHeader i hp fun n hn => hd ⟨n, hn⟩

/-- Settles O8: the decoder, evaluated on the twelve words. -/
theorem wordsOfTheSpecDecode : Obligations.WordsOfTheSpecDecode := by
  unfold Obligations.WordsOfTheSpecDecode
  decide

end Sys2Proof.Machine
end

