-- ==== Sys2Proof/Proofs/StepTo.lean ====
section
/-! Where the block finds its operations, and what a step can therefore be.  An operation that the turn of
a unit dispatches is that very turn, so a step is a command, an answer of the word unit, an access of the
host, a turn, or an event of the environment. -/

namespace Sys2Proof.Machine

/-! ### The words that are fetched -/

/-- The header that FRX has: both words of a control frame, of a data frame the HeaderWord alone. -/
theorem fetchHeader_cases (x : Frx) (w : InstrWord) (h : fetchHeader x = some w) :
    x.status.busy = true ∧ x.hwv = true ∧
      ((hdrControl x.hw = 0#1 ∧ w = .dataHeader x.hw) ∨
        (hdrControl x.hw = 1#1 ∧ x.flv = true ∧ w = .header x.hw x.fl)) := by
  unfold fetchHeader at h
  split_ifs at h with hb hc hf <;> cases h
  · exact ⟨hb.1, hb.2, .inl ⟨hc, rfl⟩⟩
  · exact ⟨hb.1, hb.2, .inr ⟨hdrControl_one _ hc, hf, rfl⟩⟩

theorem fetchTxType_cases (x : Ftx) (w : InstrWord) (h : fetchTxType x = some w) :
    x.status.busy = true ∧ x.emitting = false ∧ w = .txType x.type := by
  unfold fetchTxType at h
  split_ifs at h with hb
  cases h
  exact ⟨hb.1, hb.2, rfl⟩

/-- An event that gives an operation is a register write, a port call or the turn of a framer path. -/
theorem fetchDecoded_cases (e : Event) (s : State) (i : Instr) (h : fetchDecoded e s = some i) :
    (∃ reg d, e = .host (.regWrite reg d) ∧ decodeCommand reg d = .ok i) ∨
    (∃ fn a b c, e = .host (.wordOp fn a b c) ∧ i = decodePort fn a b c) ∨
    (∃ w, e = .turn .frx ∧ fetchHeader s.frx = some w ∧ decode w = .ok i) ∨
    (∃ w, e = .turn .ftx ∧ fetchTxType s.ftx = some w ∧ decode w = .ok i) := by
  have hw : ∃ w, fetch e s = some w ∧ decode w = .ok i := by
    unfold fetchDecoded at h
    split at h
    · cases h
    next w hf =>
      split at h <;> cases h
      exact ⟨w, hf, by assumption⟩
  obtain ⟨w, hf, hd⟩ := hw
  cases e with
  | host r =>
    cases r with
    | regWrite reg d => cases hf; exact .inl ⟨reg, d, rfl, hd⟩
    | wordOp fn a b c => cases hf; cases hd; exact .inr (.inl ⟨fn, a, b, c, rfl, rfl⟩)
    | _ => cases hf
  | turn u =>
    cases u with
    | frx => exact .inr (.inr (.inl ⟨w, rfl, hf, hd⟩))
    | ftx => exact .inr (.inr (.inr ⟨w, rfl, hf, hd⟩))
    | nvu => cases hf
  | _ => cases hf

/-- The four commands are all that a register write can request. -/
theorem decodeCommand_cases (reg : BitVec 8) (d : PortData) (i : Instr)
    (h : decodeCommand reg d = .ok i) : i = .read ∨ i = .write ∨ i = .nvDec ∨ i = .nvEnc := by
  unfold decodeCommand at h
  split_ifs at h <;> cases h <;> simp

theorem decodeTxType_cases (t : BitVec 16) (i : Instr) (h : decodeTxType t = .ok i) :
    ∃ k, kindOfCode t = some k ∧ i = encOperation k := by
  unfold decodeTxType at h
  split at h
  case h_9 => split_ifs at h
  all_goals cases h; exact ⟨_, by assumption, rfl⟩

/-! ### The operations that turns dispatch -/

theorem exec_decOperation (k : FrameKind) (v : BitVec 15) (f : BitVec 8) (l : BitVec 24) (s : State) :
    exec (decOperation k v f l) s = .next (frameOp (some (decoderOf k)) l.toNat s) := by
  cases k <;> rfl

theorem exec_encOperation (k : FrameKind) (s : State) :
    exec (encOperation k) s = .next (encodeOp (encoderOf k) s) := by
  cases k <;> rfl

theorem exec_decodePort (fn : WordFn) (a b c : Word) (s : State) :
    ∃ r, exec (decodePort fn a b c) s = .next (respond r s) := by
  cases fn <;> exact ⟨_, rfl⟩

/-- The operation of a control header is the dispatch on its type code, on as many bytes as its length
says (R113, R235). -/
theorem exec_decodeHeader (w0 w1 : Word) (s : State) (hc : hdrControl w0 = 1#1) :
    exec (decodeHeader w0 w1) s =
      .next (frameOp (dispatch (hdrType w0)) (flLength w1).toNat s) := by
  rcases header_cases w0 with hc0 | ⟨-, ⟨k, hk⟩ | ht | hu⟩
  · rw [hc0] at hc; cases hc
  · have hd : dispatch (hdrType w0) = some (decoderOf k) := by simp [dispatch, hk]
    rw [decodeHeader_kind w0 w1 k hc hk, exec_decOperation, hd]
  · have hd : dispatch (hdrType w0) = some decCredential := by rw [ht]; rfl
    rw [decodeHeader_credential w0 w1 hc ht, hd]; rfl
  · obtain ⟨hk, ht⟩ := (unknownCode_iff _).1 hu
    have hd : dispatch (hdrType w0) = none := by simp [dispatch, hk, ht]
    rw [decodeHeader_unknown w0 w1 hc hu, hd]; rfl

/-- Two ways for the read path to act that agree on the FRX and FSRC of the state. -/
theorem onRx_congr (s : State) (f g : Frx × Source → Frx × Source)
    (h : f (s.frx, s.fsrc) = g (s.frx, s.fsrc)) : onRx s f = onRx s g := by
  simp only [onRx, h]

/-- What the turn of FRX dispatches is that turn (R233, R235). -/
theorem exec_fetchHeader (s : State) (w : InstrWord) (i : Instr) (hf : fetchHeader s.frx = some w)
    (hd : decode w = .ok i) : exec i s = .next (unitTurn .frx s) := by
  obtain ⟨hb, hv, ⟨hc, rfl⟩ | ⟨hc, hl, rfl⟩⟩ := fetchHeader_cases _ _ hf
  · rw [decode, if_pos hc] at hd
    cases hd
    refine congrArg _ (onRx_congr s _ _ ?_)
    simp [frxTurn, hb, hv, hc]
  · cases hd
    rw [exec_decodeHeader _ _ s hc]
    refine congrArg _ (onRx_congr s _ _ ?_)
    simp [frxTurn, hb, hv, hc, hl]

/-- What the turn of FTX dispatches is that turn (R240). -/
theorem exec_fetchTxType (s : State) (w : InstrWord) (i : Instr) (hf : fetchTxType s.ftx = some w)
    (hd : decode w = .ok i) : exec i s = .next (unitTurn .ftx s) := by
  obtain ⟨hb, he, rfl⟩ := fetchTxType_cases _ _ hf
  obtain ⟨k, hk, rfl⟩ := decodeTxType_cases _ _ hd
  rw [exec_encOperation]
  simp [unitTurn, onTx, encodeOp, ftxTurn, ftxPrepare, hb, he, hk]

/-! ### What a step can do -/

/-- A step from `s` that goes on: a command that is accepted, a turn of a unit, a write of the host to a
buffer, a descriptor or the table, the reset, or what touches none of the three units. -/
inductive StepTo (s : State) : State → Prop where
  | read : s.frx.status.busy = false → StepTo s (onRx s (frxRead s.params s.pace))
  | write : s.ftx.status.busy = false → StepTo s (onTx s (ftxWrite s.params s.pace))
  | nvDec : s.nvu.status.busy = false →
      StepTo s (onNvIn s (nvDec s.params (s.ctrl == 1) s.pace))
  | nvEnc : s.nvu.status.busy = false → StepTo s (onNvOut s (nvEnc s.pace))
  | rxTurn : StepTo s (onRx s fun r => (frxTurn s.params r).getD r)
  | txTurn : StepTo s (onTx s fun r => (ftxTurn s.params r).getD r)
  | decTurn : StepTo s (onNvIn s fun r => (nvDecTurn s.params r).getD r)
  | encTurn : StepTo s (onNvOut s fun r => (nvEncTurn r).getD r)
  | descriptor (x : Ftx) : descriptorOnly s.ftx x → StepTo s { s with ftx := x }
  | tail (off : Nat) (b : Bytes) : off + b.length ≤ txtailCap s.params →
      StepTo s { s with ftx := { s.ftx with tail := memWrite s.ftx.tail off b } }
  | set (i : Nat) (e : SetEntry) : i < txsetCap s.params →
      StepTo s { s with ftx := { s.ftx with set := storeSet s.ftx.set i e } }
  | load (tb : NvTable) : nvFits s.params tb →
      StepTo s { s with nvu := { s.nvu with nvt := tb, count := BitVec.ofNat 32 tb.length } }
  | reset (a : Bool) : StepTo s { resetBlock s with resetLine := a }
  | other (t : State) : t.params = s.params → t.frx = s.frx → t.ftx = s.ftx → t.nvu = s.nvu →
      StepTo s t

/-- No step changes the build parameters (R7). -/
theorem StepTo.params {s t : State} (h : StepTo s t) : t.params = s.params := by
  cases h with
  | other _ hp => exact hp
  | _ => rfl

theorem hostAccess_stepTo (r : HostReq) (s t : State) (h : hostAccess r s = .next t) : StepTo s t := by
  rcases hostAccess_cases r s t h with
    ⟨a, rfl⟩ | ⟨c, _, rfl⟩ | rfl | ⟨x, _, rfl, hx⟩ | ⟨off, b, _, hcap, rfl⟩ |
    ⟨i, e, _, hcap, rfl⟩ | ⟨tb, _, hfits, rfl⟩
  · exact .other _ rfl rfl rfl rfl
  · exact .other _ rfl rfl rfl rfl
  · exact .other _ rfl rfl rfl rfl
  · exact .descriptor x hx
  · exact .tail off b hcap
  · exact .set i e hcap
  · exact .load tb hfits

theorem unitTurn_stepTo (u : UnitId) (s : State) : StepTo s (unitTurn u s) := by
  cases u with
  | frx => exact .rxTurn
  | ftx => exact .txTurn
  | nvu =>
    simp only [unitTurn, nvTurn]
    split
    · exact .encTurn
    · exact .decTurn

theorem happen_stepTo (e : Event) (s t : State) (h : happen e s = .next t) : StepTo s t := by
  cases e with
  | host r => exact hostAccess_stepTo r s t h
  | turn u => cases h; exact unitTurn_stepTo u s
  | deliver p b tail => cases h; cases p <;> exact .other _ rfl rfl rfl rfl
  | connect p src => cases h; cases p <;> exact .other _ rfl rfl rfl rfl
  | sink p m => cases h; cases p <;> exact .other _ rfl rfl rfl rfl
  | resetLine a => cases h; exact .reset a
  | pace p => cases h; exact .other _ rfl rfl rfl rfl

/-- A command is accepted by an idle unit out of reset, or dropped (R290, R294). -/
theorem command_stepTo {s t u : State} {busy : Bool} (hu : busy = false → StepTo s u)
    (h : (if s.resetLine = true ∨ busy = true then Host.Outcome.next s else .next u)
      = (.next t : HostOutcome)) : StepTo s t := by
  split_ifs at h with hc <;> cases h
  · exact .other _ rfl rfl rfl rfl
  · exact hu (by simpa using fun hb => hc (.inr hb))

theorem stepEvent_stepTo (e : Event) (s t : State) (h : stepEvent e s = .next t) : StepTo s t := by
  cases hf : fetchDecoded e s with
  | none => exact happen_stepTo e s t (stepEvent_noOperation e s hf ▸ h)
  | some i =>
    rw [stepEvent_operation e s i hf] at h
    rcases fetchDecoded_cases e s i hf with
      ⟨reg, d, -, hd⟩ | ⟨fn, a, b, c, -, rfl⟩ | ⟨w, -, hw, hd⟩ | ⟨w, -, hw, hd⟩
    · rcases decodeCommand_cases reg d i hd with rfl | rfl | rfl | rfl
      · exact command_stepTo .read h
      · exact command_stepTo .write h
      · exact command_stepTo .nvDec h
      · exact command_stepTo .nvEnc h
    · obtain ⟨r, hr⟩ := exec_decodePort fn a b c s
      rw [hr] at h
      cases h; exact .other _ rfl rfl rfl rfl
    · rw [exec_fetchHeader s w i hw hd] at h
      cases h; exact unitTurn_stepTo .frx s
    · rw [exec_fetchTxType s w i hw hd] at h
      cases h; exact unitTurn_stepTo .ftx s

/-- A property of the state that the events to come take no part in is kept by every step, if it is kept by
each of the ways above. -/
theorem step_keeps (P : State → Prop) (hev : ∀ s es, P s → P { s with events := es })
    (hP : ∀ s t, P s → StepTo s t → P t) (s t : State) (hs : P s) (h : step s = .next t) : P t := by
  cases he : s.events with
  | nil => rw [step_noEvent s he] at h; cases h; exact hs
  | cons e es =>
    rw [step_event s e es he] at h
    exact hP _ t (hev s es hs) (stepEvent_stepTo e _ t h)

theorem step_params (s t : State) (h : step s = .next t) : t.params = s.params :=
  step_keeps (fun u => u.params = s.params) (fun _ _ hu => hu) (fun _ _ hu h => h.params.trans hu) s t rfl h

/-- Settles O10. -/
theorem whereOperationsAreFetched : Obligations.WhereOperationsAreFetched := by
  unfold Obligations.WhereOperationsAreFetched
  intro s es
  have hstep : ∀ e, fetchDecoded e s = none →
      step { s with events := e :: es } = happen e { s with events := es } := fun e h =>
    stepEvent_noOperation e { s with events := es } (by cases e <;> exact h)
  refine ⟨fun _ _ => rfl, fun _ _ _ _ => rfl, fun hb hv hc => ?_, fun hb hv hc hl => ?_,
    fun hb he => ?_, hstep, fun r h => hstep (.host r) h⟩
  · simp [fetch, fetchHeader, hb, hv, hc]
  · simp [fetch, fetchHeader, hb, hv, hc, hl]
  · simp [fetch, fetchTxType, hb, he]

end Sys2Proof.Machine
end

