-- ==== Sys2Proof/Proofs/ReadInvariant.lean ====
section
/-! The read path keeps its invariant.  A READ is accepted, receives words, and ends by an error or a Frame:
each of these gives a FRX that meets the invariant, and a step does nothing else to FRX but reset it. -/

namespace Sys2Proof.Machine

/-! ### Statuses -/

theorem statusInv_accepted : statusInv statusAccepted := by decide

theorem statusInv_succeeded : statusInv statusSucceeded := by decide

/-- The fields of a STATUS register agree after every error (R261, R262, R272). -/
theorem statusInv_raised (e : OpError) : statusInv (statusRaised e) := by
  cases e with
  | truncation point => cases point <;> decide
  | unsupportedFrameType why => cases why <;> decide
  | protocolViolation why => cases why <;> decide
  | ioError c => simp [statusRaised, statusInv, kindCode, subCode]
  | _ => decide

theorem statusInv_zero : statusInv Status.zero := by decide

/-- No outcome is one that READ can have: it stands for no error. -/
theorem readOutcome_of_kind (x : Status) (h : x.kind = 0) : readOutcome x := by
  simp [readOutcome, h]

theorem readOutcome_ioError (c : IoCode) : readOutcome (statusRaised (.ioError c)) := by
  simp [statusRaised, readOutcome, kindCode]

/-- EOS stands for EndOfStream: the KIND code is its alone (R26). -/
theorem kindCode_endOfStream (e : OpError) : kindCode e = 1#4 ↔ e = .endOfStream := by
  cases e <;> simp [kindCode]

/-! ### Buffers -/

theorem holdsExactly_nil : holdsExactly [] 0 := by simp [holdsExactly, storeWf]

/-- A buffer that holds no byte is empty. -/
theorem eq_nil_of_holdsExactly (m : Memory) (h : holdsExactly m 0) : m = [] :=
  List.eq_nil_iff_forall_not_mem.2 fun x hx => absurd (h.2.2 x hx) (Nat.not_lt_zero _)

/-- Bytes written into an empty buffer from offset 0 are all that it holds. -/
theorem holdsExactly_memWrite (b : Bytes) : holdsExactly (memWrite [] 0 b) b.length := by
  refine ⟨memWrite_wf [] 0 b .nil, fun a ha => ?_, fun x hx => ?_⟩
  · have hget := storeGet_memWrite_inside [] 0 a b ha
    rw [Nat.zero_add] at hget
    rw [hget]; rfl
  · rcases memWrite_keys [] 0 b x hx with h | h
    · simpa using h
    · cases h

/-! ### A READ that has ended -/

/-- What FRX holds of a frame, whatever the status says: a FlagLengthWord only after a control HeaderWord,
and as many bytes in RXBUF as RX_CNT counts. -/
structure FrxReceived (x : Frx) : Prop where
  header : x.flv = true → x.hwv = true ∧ hdrControl x.hw = 1#1
  buffer : holdsExactly x.buf x.cnt.toNat

theorem frxInv_received {p : Config.Params} {x : Frx} (h : frxInv p x) : FrxReceived x := by
  obtain ⟨-, -, -, -, hflv, hbuf, -, -, -⟩ := h
  exact ⟨hflv, hbuf⟩

/-- The end of a READ with an outcome that READ can have (R272). -/
theorem frxRaise_inv (p : Config.Params) (e : OpError) (x : Frx) (hx : FrxReceived x)
    (he : readOutcome (statusRaised e)) : frxInv p (frxRaise e x) := by
  refine ⟨statusInv_raised e, he, ?_, ?_, hx.header, hx.buffer, ?_, ?_, ?_⟩ <;>
    simp [frxRaise, kindCode_endOfStream]

/-- Everything but the frame-field registers is as it was, of what the invariant speaks of. -/
theorem placeBody_frame (body : Body) (l : Nat) (x : Frx) :
    (placeBody body l x).hwv = x.hwv ∧ (placeBody body l x).flv = x.flv ∧
      (placeBody body l x).hw = x.hw ∧ (placeBody body l x).fl = x.fl ∧
      (placeBody body l x).cnt = x.cnt ∧ (placeBody body l x).buf = x.buf := by
  cases body <;> simp [placeBody]

/-- The delivery of a Frame (R237): both header words are there, the type is an implemented one, and RXBUF
holds a payload of the length announced. -/
theorem frxDeliver_inv (p : Config.Params) (body : Body) (l : Nat) (x : Frx) (hx : FrxReceived x)
    (hflv : x.flv = true) (hcnt : x.cnt = flLength x.fl)
    (hkind : (kindOfCode (hdrType x.hw)).isSome = true) : frxInv p (frxDeliver body l x) := by
  obtain ⟨ehwv, eflv, ehw, efl, ecnt, ebuf⟩ := placeBody_frame body l x
  obtain ⟨hhwv, hctl⟩ := hx.header hflv
  have hbuf := hx.buffer
  refine ⟨statusInv_succeeded, readOutcome_of_kind _ rfl, ?_, ?_, ?_, ?_, ?_, ?_, ?_⟩ <;>
    simp only [frxDeliver, ehwv, eflv, ehw, efl, ecnt, ebuf]
  · decide
  · simp
  · exact hx.header
  · exact hbuf
  · exact fun h => absurd h (by decide)
  · exact fun h => absurd h (by decide)
  · exact fun _ => ⟨hhwv, hflv, hcnt, hkind⟩

/-- Only an implemented type's decoder accepts a payload. -/
theorem kind_of_decoded (t : BitVec 16) (dec : Bytes → DecResult) (b : Bytes) (body : Body) (c : Nat)
    (hd : dispatch t = some dec) (hb : dec b = .decoded body c) : (kindOfCode t).isSome = true := by
  unfold dispatch at hd
  split at hd
  · simp [*]
  · split_ifs at hd
    cases hd
    cases hb

/-- The dispatch on a payload that is stored whole (R235 to R237). -/
theorem frxDispatch_inv (p : Config.Params) (b : Bytes) (x : Frx) (hx : FrxReceived x)
    (hflv : x.flv = true) (hcnt : x.cnt = flLength x.fl) :
    frxInv p (frxDispatch (dispatch (hdrType x.hw)) b x) := by
  rcases frxDispatch_cases (dispatch (hdrType x.hw)) b x with
    ⟨-, e⟩ | ⟨dec, hd, ⟨-, e⟩ | ⟨-, e⟩ | ⟨body, c, hb, ⟨-, e⟩ | ⟨-, e⟩⟩⟩ <;> rw [e]
  · exact frxRaise_inv p _ x hx (by decide)
  · exact frxRaise_inv p _ x hx (by decide)
  · exact frxRaise_inv p _ x hx (by decide)
  · exact frxRaise_inv p _ x hx (by decide)
  · exact frxDeliver_inv p body _ x hx hflv hcnt (kind_of_decoded _ dec b body c hd hb)

/-! ### A READ in progress -/

theorem frxAccept_inv (p : Config.Params) (x : Frx) : frxInv p (frxAccept x) := by
  refine ⟨statusInv_accepted, readOutcome_of_kind _ rfl, ?_, ?_, ?_, holdsExactly_nil, ?_, ?_, ?_⟩ <;>
    simp [frxAccept]

theorem frxReset_inv (p : Config.Params) (n : Nat) : frxInv p (Frx.reset n) := by
  refine ⟨statusInv_zero, readOutcome_of_kind _ rfl, ?_, ?_, ?_, holdsExactly_nil, ?_, ?_, ?_⟩ <;>
    simp [Frx.reset, Status.zero]

/-- While a READ is in progress nothing of its payload is stored. -/
theorem frxInv_busy_buffer {p : Config.Params} {x : Frx} (h : frxInv p x)
    (hb : x.status.busy = true) : x.buf = [] := by
  obtain ⟨-, -, -, -, -, hbuf, hcnt, -, -⟩ := h
  rw [hcnt hb] at hbuf
  exact eq_nil_of_holdsExactly _ hbuf

/-- A READ that is in progress has no outcome yet. -/
theorem statusInv_busy {x : Status} (h : statusInv x) (hb : x.busy = true) :
    x.done = false ∧ x.ok = false ∧ x.kind = 0 := by
  obtain ⟨hdone, hok, hkind, -⟩ := h
  have hd := hdone hb
  refine ⟨hd, ?_, hkind hd⟩
  rw [Bool.eq_false_iff]
  intro h
  rw [(hok.1 h).1] at hd
  cases hd

/-- The HeaderWord has come (R230, R232). -/
theorem frxGotHeader_inv (p : Config.Params) (w : Word) (x : Frx) (h : frxInv p x)
    (hb : x.status.busy = true) (hv : x.hwv = false) : frxInv p (frxGotHeader w x) := by
  obtain ⟨hst, hout, heos, -, hflv, hbuf, hcnt, -, -⟩ := h
  obtain ⟨-, hok, -⟩ := statusInv_busy hst hb
  have hf : x.flv = false := by
    rw [Bool.eq_false_iff]
    intro hf
    rw [(hflv hf).1] at hv
    cases hv
  refine ⟨hst, hout, heos, ?_, ?_, hbuf, hcnt, ?_, ?_⟩ <;> simp [frxGotHeader, hb, hok, hf]

/-- The FlagLengthWord has come; its length may yet be refused (R234). -/
theorem frxGotLength_received (w : Word) (x : Frx) (hx : FrxReceived x) (hv : x.hwv = true)
    (hc : hdrControl x.hw = 1#1) : FrxReceived (frxGotLength w x) :=
  ⟨fun _ => ⟨hv, hc⟩, hx.buffer⟩

/-- The FlagLengthWord has come, with a length that RXBUF can hold (R234). -/
theorem frxGotLength_inv (p : Config.Params) (w : Word) (x : Frx) (h : frxInv p x)
    (hb : x.status.busy = true) (hv : x.hwv = true) (hc : hdrControl x.hw = 1#1)
    (hl : (flLength w).toNat ≤ p.payloadMax) : frxInv p (frxGotLength w x) := by
  obtain ⟨hst, hout, heos, hfsm, -, hbuf, hcnt, -, -⟩ := h
  obtain ⟨-, hok, -⟩ := statusInv_busy hst hb
  refine ⟨hst, hout, heos, hfsm, fun _ => ⟨hv, hc⟩, hbuf, hcnt, fun _ _ => hl, fun h => ?_⟩
  rw [show (frxGotLength w x).status.ok = x.status.ok from rfl, hok] at h
  cases h

/-- Payload bytes that have come, no more than the length announces, are what RXBUF then holds (R25, R67). -/
theorem frxStore_received (b : Bytes) (x : Frx) (hx : FrxReceived x) (hbuf : x.buf = [])
    (hl : b.length ≤ (flLength x.fl).toNat) : FrxReceived (frxStore b x) := by
  refine ⟨hx.header, ?_⟩
  have hlt := (flLength x.fl).isLt
  have hcnt : (BitVec.ofNat 24 b.length).toNat = b.length := by
    rw [BitVec.toNat_ofNat]; exact Nat.mod_eq_of_lt (by omega)
  simp only [frxStore, hbuf, hcnt]
  exact holdsExactly_memWrite b

/-- RX_CNT of a payload that has come whole (R25). -/
theorem frxStore_cnt_whole (b : Bytes) (x : Frx) (hl : b.length = (flLength x.fl).toNat) :
    (frxStore b x).cnt = flLength x.fl := by
  simp [frxStore, hl]

/-! ### The turns -/

theorem frxHeaderWord_inv (p : Config.Params) (r r' : Frx × Source) (h : frxInv p r.1)
    (hb : r.1.status.busy = true) (hv : r.1.hwv = false) (hr : frxHeaderWord r = some r') :
    frxInv p r'.1 := by
  have hx := frxInv_received h
  rcases frxHeaderWord_cases r with
    ⟨-, e⟩ | ⟨-, -, e⟩ | ⟨-, -, e⟩ | ⟨-, -, -, e⟩ | ⟨c, -, -, e⟩ <;> rw [e] at hr <;> cases hr
  · exact frxGotHeader_inv p _ _ h hb hv
  · exact frxRaise_inv p _ _ hx (by decide)
  · exact frxRaise_inv p _ _ hx (by decide)
  · exact frxRaise_inv p _ _ hx (readOutcome_ioError c)

theorem frxFlagLength_inv (p : Config.Params) (r r' : Frx × Source) (h : frxInv p r.1)
    (hb : r.1.status.busy = true) (hv : r.1.hwv = true) (hc : hdrControl r.1.hw = 1#1)
    (hr : frxFlagLength p r = some r') : frxInv p r'.1 := by
  have hx := frxInv_received h
  rcases frxFlagLength_cases p r with
    ⟨-, hl, e⟩ | ⟨-, -, e⟩ | ⟨-, -, e⟩ | ⟨-, -, e⟩ | ⟨c, -, -, e⟩ <;> rw [e] at hr <;> cases hr
  · exact frxGotLength_inv p _ _ h hb hv hc hl
  · exact frxRaise_inv p _ _ (frxGotLength_received _ _ hx hv hc) (by decide)
  · exact frxRaise_inv p _ _ hx (by decide)
  · exact frxRaise_inv p _ _ hx (readOutcome_ioError c)

theorem frxReceive_inv (p : Config.Params) (r r' : Frx × Source) (h : frxInv p r.1)
    (hb : r.1.status.busy = true) (hf : r.1.flv = true)
    (hr : frxReceive (dispatch (hdrType r.1.hw)) (flLength r.1.fl).toNat r = some r') :
    frxInv p r'.1 := by
  have hx := frxInv_received h
  have hbuf := frxInv_busy_buffer h hb
  rcases frxReceive_cases (dispatch (hdrType r.1.hw)) (flLength r.1.fl).toNat r with
    ⟨hl, e⟩ | ⟨-, -, e⟩ | ⟨hl, -, e⟩ | ⟨c, -, -, e⟩ <;> rw [e] at hr <;> cases hr
  · have hlen : (r.2.bytes.take (flLength r.1.fl).toNat).length = (flLength r.1.fl).toNat :=
      List.length_take_of_le hl
    exact frxDispatch_inv p _ (frxStore _ r.1) (frxStore_received _ _ hx hbuf hlen.le) hf
      (frxStore_cnt_whole _ _ hlen)
  · exact frxRaise_inv p _ _ (frxStore_received _ _ hx hbuf hl.le) (by decide)
  · exact frxRaise_inv p _ _ hx (readOutcome_ioError c)

/-- Every turn of FRX keeps the invariant. -/
theorem frxTurn_inv (p : Config.Params) (r r' : Frx × Source) (h : frxInv p r.1)
    (hr : frxTurn p r = some r') : frxInv p r'.1 := by
  rcases frxTurn_cases p r with
    ⟨-, e⟩ | ⟨hb, hv, e⟩ | ⟨-, -, -, e⟩ | ⟨hb, hv, hc, -, e⟩ | ⟨hb, -, -, hf, e⟩ <;> rw [e] at hr
  · cases hr
  · exact frxHeaderWord_inv p r r' h hb hv hr
  · cases hr
    exact frxRaise_inv p _ _ (frxInv_received h) (by decide)
  · exact frxFlagLength_inv p r r' h hb hv hc hr
  · exact frxReceive_inv p r r' h hb hf hr

theorem frxRead_inv (p : Config.Params) (pace : Pace) (r : Frx × Source) :
    frxInv p (frxRead p pace r).1 := by
  cases pace with
  | stepwise => exact frxAccept_inv p r.1
  | atOnce =>
    exact runTurns_keeps (frxTurn p) (fun r => frxInv p r.1) (frxTurn_inv p) readSteps _
      (frxAccept_inv p r.1)

/-! ### The steps -/

theorem StepTo.keeps_frxInv {s t : State} (h : StepTo s t) (hs : frxInv s.params s.frx) :
    frxInv t.params t.frx := by
  cases h with
  | read => exact frxRead_inv _ _ _
  | rxTurn =>
    cases hr : frxTurn s.params (s.frx, s.fsrc) with
    | none => simpa [hr] using hs
    | some r' => simpa [hr] using frxTurn_inv _ _ _ hs hr
  | reset => exact frxReset_inv _ _
  | other _ hp hfrx => rw [hp, hfrx]; exact hs
  | _ => exact hs

/-- Settles O56. -/
theorem stepKeepsReadPathInvariant : Obligations.StepKeepsReadPathInvariant := by
  unfold Obligations.StepKeepsReadPathInvariant
  intro s t hs h
  exact ⟨step_params s t h, step_keeps (fun s => frxInv s.params s.frx) (fun _ _ hs => hs)
    (fun _ _ hs h => h.keeps_frxInv hs) s t hs h⟩

end Sys2Proof.Machine
end

