-- ==== Sys2Proof/Proofs/WriteInvariant.lean ====
section
/-! The write path keeps its invariant: a built frame is exactly as long as the length that was checked, and
what ends a WRITE empties TXBUF. -/

namespace Sys2Proof.Machine

/-! ### The length of a payload is the length that its encoder computes first (R200) -/

@[simp] theorem entriesBytes_length (es : List SetEntry) : (entriesBytes es).length = 8 * es.length := by
  induction es with
  | nil => rfl
  | cons e es ih => simp only [entriesBytes, entryBytes, List.length_append, be32_length, ih,
      List.length_cons]; omega

@[simp] theorem txEntries_length (x : Ftx) (i n : Nat) : (txEntries x i n).length = n := by
  induction n generalizing i with
  | zero => rfl
  | succ n ih => simp [txEntries, ih]

@[simp] theorem txBlob_length (x : Ftx) : (txBlob x).length = x.tailLen.toNat := by simp [txBlob]

theorem encoder_payload_length (k : FrameKind) (x : Ftx) :
    ((encoderOf k).payload x).length = (encoderOf k).len x := by
  cases k with
  | synStream => simp [encoderOf, encSynStream]; omega
  | synReply | headers | settings => simp [encoderOf, encSynReply, encHeaders, encSettings]
  | rstStream | ping | goAway | windowUpdate => rfl

/-! ### Outcomes of a WRITE -/

/-- No outcome is one that WRITE can have: it stands for no error. -/
theorem writeOutcome_of_kind (x : Status) (h : x.kind = 0) : writeOutcome x := by
  simp [writeOutcome, h]

theorem writeOutcome_ioError (c : IoCode) : writeOutcome (statusRaised (.ioError c)) := by
  simp [writeOutcome, statusRaised, kindCode]

theorem writeOutcome_typeProblem (why : TypeProblem) :
    writeOutcome (statusRaised (.unsupportedFrameType why)) := by
  cases why <;> decide

/-! ### A WRITE that has ended -/

/-- TXTAIL and TXSET, which only the host writes, are in canonical form and within their capacities. -/
structure FtxHostBuffers (p : Config.Params) (x : Ftx) : Prop where
  tailWf : storeWf x.tail
  tailCap : ∀ c ∈ x.tail, c.1 < txtailCap p
  setWf : storeWf x.set
  setCap : ∀ c ∈ x.set, c.1 < txsetCap p

theorem ftxInv_hostBuffers {p : Config.Params} {x : Ftx} (h : ftxInv p x) : FtxHostBuffers p x := by
  obtain ⟨-, -, -, -, -, -, htw, htc, hsw, hsc⟩ := h
  exact ⟨htw, htc, hsw, hsc⟩

/-- The end of a WRITE with an outcome that WRITE can have (R272). -/
theorem ftxRaise_inv (p : Config.Params) (e : OpError) (x : Ftx) (hx : FtxHostBuffers p x)
    (he : writeOutcome (statusRaised e)) : ftxInv p (ftxRaise e x) := by
  obtain ⟨htw, htc, hsw, hsc⟩ := hx
  refine ⟨statusInv_raised e, he, ?_, holdsExactly_nil, ?_, ?_, htw, htc, hsw, hsc⟩ <;> simp

theorem ftxReset_inv (p : Config.Params) (n : Nat) : ftxInv p (Ftx.reset n) := by
  refine ⟨statusInv_zero, writeOutcome_of_kind _ rfl, ?_, holdsExactly_nil, ?_, ?_, .nil, ?_, .nil, ?_⟩ <;>
    simp [Ftx.reset, Status.zero]

/-- The built frame has been handed over (R245).  TX_WRITTEN has room for its length, which is that of a
FlagLengthWord. -/
theorem ftxSucceed_inv (p : Config.Params) (x : Ftx) (h : ftxInv p x) (he : x.emitting = true) :
    ftxInv p (ftxSucceed x) := by
  obtain ⟨htw, htc, hsw, hsc⟩ := ftxInv_hostBuffers h
  obtain ⟨-, -, -, -, hwords, -, -, -, -, -⟩ := h
  obtain ⟨hctl, hkind, hlen⟩ := hwords (.inl he)
  have hlt := (flLength x.fl).isLt
  refine ⟨statusInv_succeeded, writeOutcome_of_kind _ rfl, ?_, holdsExactly_nil, ?_, ?_, htw, htc, hsw,
    hsc⟩
  · simp
  · exact fun _ => ⟨hctl, hkind, hlen⟩
  · intro _
    rw [ftxSucceed_written, ftxSucceed_len, BitVec.toNat_ofNat]
    exact Nat.mod_eq_of_lt (by omega)

/-! ### A WRITE in progress -/

/-- An idle FTX has no frame that waits. -/
theorem ftxInv_idle_emitting {p : Config.Params} {x : Ftx} (h : ftxInv p x)
    (hb : x.status.busy = false) : x.emitting = false := by
  obtain ⟨-, -, hemit, -⟩ := h
  rw [Bool.eq_false_iff]
  intro he
  rw [(hemit he).1] at hb
  cases hb

theorem ftxInv_buffer_nil {p : Config.Params} {x : Ftx} (h : ftxInv p x)
    (he : x.emitting = false) : x.buf = [] := by
  obtain ⟨-, -, -, hbuf, -⟩ := h
  rw [if_neg (by simp [he])] at hbuf
  exact eq_nil_of_holdsExactly _ hbuf

theorem ftxAccept_inv (p : Config.Params) (x : Ftx) (h : ftxInv p x) (hb : x.status.busy = false) :
    ftxInv p (ftxAccept x) := by
  have hbuf := ftxInv_buffer_nil h (ftxInv_idle_emitting h hb)
  obtain ⟨htw, htc, hsw, hsc⟩ := ftxInv_hostBuffers h
  refine ⟨statusInv_accepted, writeOutcome_of_kind _ rfl, ?_, ?_, ?_, ?_, htw, htc, hsw, hsc⟩
  · simp
  · rw [ftxAccept_buf, hbuf]; exact holdsExactly_nil
  · simp
  · simp

/-- A frame whose length has passed both checks is built (R241 to R243). -/
theorem ftxBuild_inv (p : Config.Params) (k : FrameKind) (x : Ftx) (h : ftxInv p x)
    (hb : x.status.busy = true) (hk : kindOfCode x.type = some k)
    (h24 : (encoderOf k).len x ≤ 16777215) (hcap : (encoderOf k).len x ≤ p.payloadMax) :
    ftxInv p (ftxSetLen ((encoderOf k).len x) (ftxBuild (encoderOf k) x)) := by
  have hlen : (BitVec.ofNat 36 ((encoderOf k).len x)).toNat = (encoderOf k).len x := by
    rw [BitVec.toNat_ofNat]; exact Nat.mod_eq_of_lt (by omega)
  have hfl : ((BitVec.ofNat 32 ((encoderOf k).len x)).setWidth 24).toNat = (encoderOf k).len x := by
    rw [BitVec.toNat_setWidth, BitVec.toNat_ofNat]; omega
  obtain ⟨htw, htc, hsw, hsc⟩ := ftxInv_hostBuffers h
  obtain ⟨hst, hout, -⟩ := h
  obtain ⟨-, hok, -⟩ := statusInv_busy hst hb
  refine ⟨hst, hout, ?_, ?_, ?_, ?_, htw, htc, hsw, hsc⟩
  · simp [hb, hlen, hcap]
  · have hbuf := holdsExactly_memWrite ((encoderOf k).payload x)
    rw [encoder_payload_length] at hbuf
    simpa [hlen] using hbuf
  · intro _
    refine ⟨by simp, ?_, ?_⟩
    · simp [hk]
    · rw [ftxSetLen_fl, ftxBuild_fl, flLength_pack, ftxSetLen_len, hfl, hlen]
  · simp [hok]

theorem ftxSetLen_hostBuffers (p : Config.Params) (n : Nat) (x : Ftx) (h : FtxHostBuffers p x) :
    FtxHostBuffers p (ftxSetLen n x) := by
  obtain ⟨htw, htc, hsw, hsc⟩ := h
  exact ⟨htw, htc, hsw, hsc⟩

/-- WRITE steps 1 to 4: the type or the length is refused, or the frame is built. -/
theorem ftxPrepare_inv (p : Config.Params) (x : Ftx) (h : ftxInv p x) (hb : x.status.busy = true) :
    ftxInv p (ftxPrepare p x) := by
  have hx := ftxInv_hostBuffers h
  rcases ftxPrepare_cases p x with ⟨-, e⟩ | ⟨k, hk, e⟩
  · rw [e]
    exact ftxRaise_inv p _ x hx (writeOutcome_typeProblem _)
  · rw [e]
    rcases ftxEncode_cases p (encoderOf k) x with ⟨-, e⟩ | ⟨-, -, e⟩ | ⟨h24, hcap, e⟩ <;> rw [e]
    · exact ftxRaise_inv p _ _ (ftxSetLen_hostBuffers _ _ _ hx) (by decide)
    · exact ftxRaise_inv p _ _ (ftxSetLen_hostBuffers _ _ _ hx) (by decide)
    · exact ftxBuild_inv p k x h hb hk h24 hcap

/-! ### The turns -/

theorem ftxEmit_inv (p : Config.Params) (r r' : Ftx × Sink) (h : ftxInv p r.1)
    (he : r.1.emitting = true) (hr : ftxEmit r = some r') : ftxInv p r'.1 := by
  rcases ftxEmit_cases r with ⟨-, e⟩ | ⟨c, -, e⟩ | ⟨-, e⟩ <;> rw [e] at hr <;> cases hr
  · exact ftxSucceed_inv p _ h he
  · exact ftxRaise_inv p _ _ (ftxInv_hostBuffers h) (writeOutcome_ioError c)

/-- Every turn of FTX keeps the invariant. -/
theorem ftxTurn_inv (p : Config.Params) (r r' : Ftx × Sink) (h : ftxInv p r.1)
    (hr : ftxTurn p r = some r') : ftxInv p r'.1 := by
  rcases ftxTurn_cases p r with ⟨-, e⟩ | ⟨hb, -, e⟩ | ⟨-, he, e⟩ <;> rw [e] at hr
  · cases hr
  · cases hr; exact ftxPrepare_inv p _ h hb
  · exact ftxEmit_inv p r r' h he hr

theorem ftxWrite_inv (p : Config.Params) (pace : Pace) (r : Ftx × Sink) (h : ftxInv p r.1)
    (hb : r.1.status.busy = false) : ftxInv p (ftxWrite p pace r).1 := by
  have hacc := ftxAccept_inv p r.1 h hb
  cases pace with
  | stepwise => exact hacc
  | atOnce =>
    exact runTurns_keeps (ftxTurn p) (fun r => ftxInv p r.1) (ftxTurn_inv p) writeSteps
      (ftxAccept r.1, r.2) hacc

/-! ### The host's writes -/

/-- The invariant speaks of no descriptor register. -/
theorem descriptorOnly_inv (p : Config.Params) (x y : Ftx) (h : ftxInv p x) (hd : descriptorOnly x y) :
    ftxInv p y := by
  obtain ⟨est, ehw, efl, elen, ewr, ebuf, eem, etail, eset, -⟩ := hd
  rw [ftxInv, est, ehw, efl, elen, ewr, ebuf, eem, etail, eset]
  exact h

theorem ftxTail_inv (p : Config.Params) (x : Ftx) (off : Nat) (b : Bytes) (h : ftxInv p x)
    (hcap : off + b.length ≤ txtailCap p) : ftxInv p { x with tail := memWrite x.tail off b } := by
  obtain ⟨hst, hout, hemit, hbuf, hwords, hwr, htw, htc, hsw, hsc⟩ := h
  refine ⟨hst, hout, hemit, hbuf, hwords, hwr, memWrite_wf _ _ _ htw, fun c hc => ?_, hsw, hsc⟩
  rcases memWrite_keys x.tail off b c hc with hin | hold
  · omega
  · exact htc c hold

theorem ftxSet_inv (p : Config.Params) (x : Ftx) (i : Nat) (e : SetEntry) (h : ftxInv p x)
    (hcap : i < txsetCap p) : ftxInv p { x with set := storeSet x.set i e } := by
  obtain ⟨hst, hout, hemit, hbuf, hwords, hwr, htw, htc, hsw, hsc⟩ := h
  refine ⟨hst, hout, hemit, hbuf, hwords, hwr, htw, htc, storeSet_wf _ _ _ hsw, fun c hc => ?_⟩
  rcases storeSet_keys x.set i e c hc with hin | hold
  · rw [hin]; exact hcap
  · exact hsc c hold

/-! ### The steps -/

theorem StepTo.keeps_ftxInv {s t : State} (h : StepTo s t) (hs : ftxInv s.params s.ftx) :
    ftxInv t.params t.ftx := by
  cases h with
  | write hidle => exact ftxWrite_inv _ _ _ hs hidle
  | txTurn =>
    cases hr : ftxTurn s.params (s.ftx, s.fsnk) with
    | none => simpa [hr] using hs
    | some r' => simpa [hr] using ftxTurn_inv _ _ _ hs hr
  | descriptor x hx => exact descriptorOnly_inv _ _ _ hs hx
  | tail off b hcap => exact ftxTail_inv _ _ off b hs hcap
  | set i e hcap => exact ftxSet_inv _ _ i e hs hcap
  | reset => exact ftxReset_inv _ _
  | other _ hp _ hftx => rw [hp, hftx]; exact hs
  | _ => exact hs

/-- Settles O57. -/
theorem stepKeepsWritePathInvariant : Obligations.StepKeepsWritePathInvariant := by
  unfold Obligations.StepKeepsWritePathInvariant
  intro s t hs h
  exact step_keeps (fun s => ftxInv s.params s.ftx) (fun _ _ hs => hs) (fun _ _ hs h => h.keeps_ftxInv hs)
    s t hs h

end Sys2Proof.Machine
end

