-- ==== Sys2Proof/Proofs/TableInvariant.lean ====
section
/-! The name/value unit keeps its invariant: NVT fits at every pair, the strings of a pair in progress were
checked when their lengths came, and every end of a command counts the pairs again. -/

namespace Sys2Proof.Machine

/-! ### Tables that fit -/

/-- A pair of strings within the capacity, for which there is room, makes a table that fits (R150, R271). -/
theorem nvInsert_fits (p : Config.Params) (t : NvTable) (name value : Bytes) (h : nvFits p t)
    (hn : name.length ≤ p.nvStrCap) (hv : value.length ≤ p.nvStrCap)
    (hroom : nvHas t name = false → t.length < p.nvPairCap) : nvFits p (nvInsert t name value) := by
  obtain ⟨huniq, hlen, hstr⟩ := h
  refine ⟨nvInsert_unique t name value huniq, ?_, fun x hx => ?_⟩
  · rw [nvInsert_length]
    split
    · exact hlen
    · exact hroom (by simpa using ‹¬ nvHas t name = true›)
  · rcases nvInsert_mem t name value x hx with rfl | hold
    · exact ⟨hn, hv⟩
    · exact hstr x hold

/-- NV_COUNT has room for the number of pairs of a table that fits (R7, R37). -/
theorem nvFits_count (p : Config.Params) (t : NvTable) (hp : p.legal) (h : nvFits p t) :
    (BitVec.ofNat 32 t.length).toNat = t.length := by
  obtain ⟨-, hpairs, -⟩ := hp
  obtain ⟨-, hlen, -⟩ := h
  rw [BitVec.toNat_ofNat]
  exact Nat.mod_eq_of_lt (by omega)

/-! ### Outcomes of the name/value unit -/

theorem nvOutcome_of_kind (x : Status) (dir : Bool) (h : x.kind = 0) : nvOutcome x dir := by
  simp [nvOutcome, h]

theorem nvOutcome_ioError (c : IoCode) (dir : Bool) : nvOutcome (statusRaised (.ioError c)) dir := by
  simp [nvOutcome, statusRaised, kindCode]

/-! ### A command that has ended -/

theorem nvuReset_inv (p : Config.Params) (n : Nat) : nvuInv p (Nvu.reset n) := by
  refine ⟨statusInv_zero, nvOutcome_of_kind _ _ rfl, ?_, ?_, trivial, fun _ => rfl⟩
  · simp [Nvu.reset, nvFits, nvUnique]
  · simp [Nvu.reset, Status.zero]

/-- The end of an NV.DEC with an outcome that it can have (R151, R272). -/
theorem nvRaiseDec_inv (p : Config.Params) (e : OpError) (x : Nvu) (hp : p.legal)
    (he : nvOutcome (statusRaised e) x.dir) : nvuInv p (nvRaiseDec p e x) := by
  have hfits := nvAdmit_fits p (Config.freeTable x.free)
  refine ⟨statusInv_raised e, he, hfits, ?_, trivial, fun _ => nvFits_count p _ hp hfits⟩
  simp

theorem nvFinishDec_inv (p : Config.Params) (x : Nvu) (hp : p.legal) (h : nvFits p x.nvt) :
    nvuInv p (nvFinishDec x) := by
  refine ⟨statusInv_succeeded, nvOutcome_of_kind _ _ rfl, h, ?_, trivial,
    fun _ => nvFits_count p _ hp h⟩
  simp

/-- The end of an NV.ENC, which leaves NVT and NV_COUNT alone (R152). -/
theorem nvRaiseEnc_inv (p : Config.Params) (c : IoCode) (x : Nvu) (h : nvuInv p x)
    (hd : x.dir = true) : nvuInv p (nvRaiseEnc (.ioError c) x) := by
  obtain ⟨-, -, hfits, -, -, hcount⟩ := h
  refine ⟨statusInv_raised _, nvOutcome_ioError c _, hfits, ?_, trivial, fun _ => hcount (.inr hd)⟩
  simp

theorem nvFinishEnc_inv (p : Config.Params) (x : Nvu) (h : nvuInv p x) (hd : x.dir = true) :
    nvuInv p (nvFinishEnc x) := by
  obtain ⟨-, -, hfits, -, -, hcount⟩ := h
  refine ⟨statusInv_succeeded, nvOutcome_of_kind _ _ rfl, hfits, ?_, trivial, fun _ => hcount (.inr hd)⟩
  simp

/-! ### NV.DEC in progress -/

/-- An NV.DEC in progress: no outcome yet, and a table that fits so far. -/
structure NvDecoding (p : Config.Params) (x : Nvu) : Prop where
  status : statusInv x.status
  busy : x.status.busy = true
  dir : x.dir = false
  fits : nvFits p x.nvt

/-- A unit at some step of an NV.DEC. -/
theorem nvuInv_decoding {p : Config.Params} {x : Nvu} (h : nvuInv p x) (hph : x.phase ≠ .idle)
    (hd : x.dir = false) : NvDecoding p x := by
  obtain ⟨hst, -, hfits, hbusy, -, -⟩ := h
  exact ⟨hst, hbusy.2 hph, hd, hfits⟩

/-- While an NV.DEC builds the table NV_COUNT is open: what counts is the step it goes on to. -/
theorem NvDecoding.inv {p : Config.Params} {x : Nvu} (h : NvDecoding p x) (hph : x.phase ≠ .idle)
    (hphase : phaseInv p x.dir x.phase) : nvuInv p x := by
  obtain ⟨hst, hb, hd, hfits⟩ := h
  obtain ⟨-, -, hkind⟩ := statusInv_busy hst hb
  refine ⟨hst, nvOutcome_of_kind _ _ hkind, hfits, by simp [hb, hph], hphase, fun h => ?_⟩
  simp [hb, hd] at h

theorem nvAcceptDec_inv (p : Config.Params) (strict : Bool) (x : Nvu) :
    nvuInv p (nvAcceptDec strict x) := by
  have hdec : NvDecoding p (nvAcceptDec strict x) :=
    ⟨statusInv_accepted, rfl, rfl, by simp [nvFits, nvUnique]⟩
  exact hdec.inv (by simp) rfl

/-- The unit goes on to the next pair, or NV.DEC ends. -/
theorem nvNextPair_inv (p : Config.Params) (n : Nat) (x : Nvu) (hp : p.legal) (h : NvDecoding p x) :
    nvuInv p (nvNextPair n x) := by
  cases n with
  | zero => exact nvFinishDec_inv p x hp h.fits
  | succ more =>
    have hdec : NvDecoding p (nvNextPair (more + 1) x) := ⟨h.status, h.busy, h.dir, h.fits⟩
    exact hdec.inv (by simp [nvNextPair]) h.dir

/-- A length word leads on to the bytes it announces, or to LimitExceeded. -/
theorem nvCheckLength_inv (p : Config.Params) (len : Nat) (next : NvPhase) (x y : Nvu)
    (h : NvDecoding p x) (hnext : next ≠ .idle) (hphase : len ≤ p.nvStrCap → phaseInv p false next)
    (hy : nvCheckLength p len next x = .ok y) : nvuInv p y := by
  rw [nvCheckLength_eq] at hy
  split_ifs at hy with hcap
  cases hy
  have hdec : NvDecoding p { x with phase := next } := ⟨h.status, h.busy, h.dir, h.fits⟩
  exact hdec.inv hnext (h.dir ▸ hphase (by omega))

theorem nvCheckLength_error (p : Config.Params) (len : Nat) (next : NvPhase) (x : Nvu) (e : OpError)
    (hy : nvCheckLength p len next x = .error e) : e = .protocolViolation .limitExceeded := by
  rw [nvCheckLength_eq] at hy
  split_ifs at hy
  cases hy; rfl

/-- The problems of a pair are those of R151 and R153; a pair without one has room. -/
theorem pairProblem_cases (p : Config.Params) (strict : Bool) (t : NvTable) (name : Bytes) :
    (pairProblem p strict t name = none ∧ (nvHas t name = false → t.length < p.nvPairCap)) ∨
    ∃ v, pairProblem p strict t name = some (.protocolViolation v) ∧
      (v = .zeroLengthName ∨ v = .duplicateName ∨ v = .limitExceeded) := by
  unfold pairProblem
  split_ifs with hzero hdup hfull
  · exact .inr ⟨_, rfl, .inl rfl⟩
  · exact .inr ⟨_, rfl, .inr (.inl rfl)⟩
  · exact .inr ⟨_, rfl, .inr (.inr rfl)⟩
  · exact .inl ⟨rfl, fun h => Nat.lt_of_not_le fun hle => hfull ⟨h, hle⟩⟩

theorem nvEndPair_inv (p : Config.Params) (more : Nat) (name value : Bytes) (x y : Nvu) (hp : p.legal)
    (h : NvDecoding p x) (hn : name.length ≤ p.nvStrCap) (hv : value.length ≤ p.nvStrCap)
    (hy : nvEndPair p more name value x = .ok y) : nvuInv p y := by
  rw [nvEndPair_eq] at hy
  rcases pairProblem_cases p x.strict x.nvt name with ⟨e, hroom⟩ | ⟨v, e, -⟩ <;> rw [e] at hy <;>
    cases hy
  exact nvNextPair_inv p more _ hp
    ⟨h.status, h.busy, h.dir, nvInsert_fits p x.nvt name value h.fits hn hv hroom⟩

theorem nvEndPair_error (p : Config.Params) (more : Nat) (name value : Bytes) (x : Nvu) (e : OpError)
    (hy : nvEndPair p more name value x = .error e) : nvOutcome (statusRaised e) false := by
  rw [nvEndPair_eq] at hy
  rcases pairProblem_cases p x.strict x.nvt name with ⟨e, -⟩ | ⟨v, e, hv⟩ <;> rw [e] at hy <;> cases hy
  rcases hv with rfl | rfl | rfl <;> decide

/-- `rd(n, phase)` keeps the invariant when what is done with the `n` bytes does, and fails as NV.DEC can. -/
theorem nvRead_inv (p : Config.Params) (n : Nat) (point : TruncPoint)
    (f : Bytes → Nvu → Except OpError Nvu) (r r' : Nvu × Source) (hp : p.legal)
    (hd : r.1.dir = false) (hpoint : nvOutcome (statusRaised (.truncation point)) false)
    (hok : ∀ b y, b.length = n → f b r.1 = .ok y → nvuInv p y)
    (herr : ∀ b e, f b r.1 = .error e → nvOutcome (statusRaised e) false)
    (hr : nvRead p n point f r = some r') : nvuInv p r'.1 := by
  have hraise : ∀ e, nvOutcome (statusRaised e) false → nvuInv p (nvRaiseDec p e r.1) :=
    fun e he => nvRaiseDec_inv p e r.1 hp (hd ▸ he)
  rcases nvRead_cases p n point f r with
    ⟨x, hn, hx, e⟩ | ⟨c, -, hx, e⟩ | ⟨-, -, e⟩ | ⟨-, -, e⟩ | ⟨c, -, -, e⟩ <;> rw [e] at hr <;> cases hr
  · exact hok _ _ (List.length_take_of_le hn) hx
  · exact hraise c (herr _ c hx)
  · exact hraise _ hpoint
  · exact hraise _ (nvOutcome_ioError c _)

/-- Every turn of an NV.DEC keeps the invariant: one case for each field that it reads (R151). -/
theorem nvDecTurn_inv (p : Config.Params) (hp : p.legal) (r r' : Nvu × Source) (h : nvuInv p r.1)
    (hr : nvDecTurn p r = some r') : nvuInv p r'.1 := by
  have hphase : phaseInv p r.1.dir r.1.phase := by
    obtain ⟨-, -, -, -, hphase, -⟩ := h
    exact hphase
  have hdec : r.1.phase ≠ .idle → r.1.dir = false → NvDecoding p r.1 := nvuInv_decoding h
  have hlimit : nvOutcome (statusRaised (.protocolViolation .limitExceeded)) false := by decide
  cases hph : r.1.phase <;> rw [hph] at hphase hdec <;> simp only [nvDecTurn, hph] at hr
  case idle | enc => cases hr
  case decCount =>
    have hx := hdec (by simp) hphase
    refine nvRead_inv p _ _ _ r r' hp hphase (by decide) (fun b y _ hy => ?_)
      (fun b e he => by cases he) hr
    cases hy
    exact nvNextPair_inv p _ _ hp ⟨hx.status, hx.busy, hx.dir, hx.fits⟩
  case decNameLen more =>
    have hx := hdec (by simp) hphase
    refine nvRead_inv p _ _ _ r r' hp hphase (by decide) (fun b y _ hy => ?_)
      (fun b e he => nvCheckLength_error p _ _ _ e he ▸ hlimit) hr
    exact nvCheckLength_inv p _ (.decName more _) _ y hx (by simp) (fun hl => ⟨rfl, hl⟩) hy
  case decName more nameLen =>
    obtain ⟨hd, hlen⟩ := hphase
    have hx := hdec (by simp) hd
    refine nvRead_inv p _ _ _ r r' hp hd (by decide) (fun b y hb hy => ?_)
      (fun b e he => by cases he) hr
    cases hy
    have hx' : NvDecoding p { r.1 with phase := .decValueLen more b } :=
      ⟨hx.status, hx.busy, hx.dir, hx.fits⟩
    exact hx'.inv (by simp) ⟨hd, hb.trans_le hlen⟩
  case decValueLen more name =>
    obtain ⟨hd, hname⟩ := hphase
    have hx := hdec (by simp) hd
    refine nvRead_inv p _ _ _ r r' hp hd (by decide) (fun b y _ hy => ?_)
      (fun b e he => nvCheckLength_error p _ _ _ e he ▸ hlimit) hr
    exact nvCheckLength_inv p _ (.decValue more name _) _ y hx (by simp)
      (fun hl => ⟨rfl, hname, hl⟩) hy
  case decValue more name valueLen =>
    obtain ⟨hd, hname, hlen⟩ := hphase
    have hx := hdec (by simp) hd
    exact nvRead_inv p _ _ _ r r' hp hd (by decide)
      (fun b y hb hy => nvEndPair_inv p more name b _ y hp hx hname (hb.trans_le hlen) hy)
      (fun b e he => nvEndPair_error p more name b _ e he) hr

/-! ### NV.ENC in progress -/

/-- An NV.ENC starts from a table that is counted, and has the count to hand over at least. -/
theorem nvAcceptEnc_inv (p : Config.Params) (x : Nvu) (h : nvuInv p x) (hb : x.status.busy = false) :
    nvuInv p (nvAcceptEnc x) := by
  obtain ⟨-, -, hfits, -, -, hcount⟩ := h
  refine ⟨statusInv_accepted, nvOutcome_of_kind _ _ rfl, hfits, ?_, ⟨rfl, by simp⟩,
    fun _ => hcount (.inl hb)⟩
  simp

theorem nvNextPiece_inv (p : Config.Params) (bs : List Bytes) (x : Nvu) (h : nvuInv p x)
    (hb : x.status.busy = true) (hd : x.dir = true) : nvuInv p (nvNextPiece bs x) := by
  cases bs with
  | nil => exact nvFinishEnc_inv p x h hd
  | cons b bs =>
    obtain ⟨hst, hout, hfits, -, -, hcount⟩ := h
    exact ⟨hst, hout, hfits, by simp [nvNextPiece, hb], ⟨hd, by simp⟩, hcount⟩

/-- Every turn of an NV.ENC keeps the invariant. -/
theorem nvEncTurn_inv (p : Config.Params) (r r' : Nvu × Sink) (h : nvuInv p r.1)
    (hr : nvEncTurn r = some r') : nvuInv p r'.1 := by
  have ⟨_, _, _, hbusy, hphase, _⟩ := h
  obtain ⟨x, snk⟩ := r
  cases hph : x.phase with
  | enc bs =>
    rw [hph] at hphase hbusy
    obtain ⟨hd, hne⟩ := hphase
    cases bs with
    | nil => exact absurd rfl hne
    | cons b bs =>
      rw [nvEncTurn_enc x snk b bs hph] at hr
      split at hr <;> cases hr
      · exact nvRaiseEnc_inv p _ x h hd
      · exact nvNextPiece_inv p bs x h (hbusy.2 (by simp)) hd
  | _ => simp [nvEncTurn, hph] at hr

/-! ### The commands and the steps -/

theorem nvDec_inv (p : Config.Params) (hp : p.legal) (strict : Bool) (pace : Pace) (r : Nvu × Source) :
    nvuInv p (nvDec p strict pace r).1 := by
  cases pace with
  | stepwise => exact nvAcceptDec_inv p strict r.1
  | atOnce =>
    exact runTurns_keeps (nvDecTurn p) (fun r => nvuInv p r.1) (nvDecTurn_inv p hp) nvSteps _
      (nvAcceptDec_inv p strict r.1)

theorem nvEnc_inv (p : Config.Params) (pace : Pace) (r : Nvu × Sink) (h : nvuInv p r.1)
    (hb : r.1.status.busy = false) : nvuInv p (nvEnc pace r).1 := by
  have hacc := nvAcceptEnc_inv p r.1 h hb
  cases pace with
  | stepwise => exact hacc
  | atOnce =>
    exact runTurns_keeps nvEncTurn (fun r => nvuInv p r.1) (nvEncTurn_inv p) nvSteps
      (nvAcceptEnc r.1, r.2) hacc

/-- A load leaves the status and the step alone (R155). -/
theorem nvLoad_inv (p : Config.Params) (hp : p.legal) (x : Nvu) (tb : NvTable) (h : nvuInv p x)
    (hfits : nvFits p tb) : nvuInv p { x with nvt := tb, count := BitVec.ofNat 32 tb.length } := by
  obtain ⟨hst, hout, -, hbusy, hphase, -⟩ := h
  exact ⟨hst, hout, hfits, hbusy, hphase, fun _ => nvFits_count p tb hp hfits⟩

theorem StepTo.keeps_nvuInv {s t : State} (h : StepTo s t) (hp : s.params.legal)
    (hs : nvuInv s.params s.nvu) : nvuInv t.params t.nvu := by
  cases h with
  | nvDec => exact nvDec_inv _ hp _ _ _
  | nvEnc hidle => exact nvEnc_inv _ _ _ hs hidle
  | decTurn =>
    cases hr : nvDecTurn s.params (s.nvu, s.nsrc) with
    | none => simpa [hr] using hs
    | some r' => simpa [hr] using nvDecTurn_inv _ hp _ _ hs hr
  | encTurn =>
    cases hr : nvEncTurn (s.nvu, s.nsnk) with
    | none => simpa [hr] using hs
    | some r' => simpa [hr] using nvEncTurn_inv _ _ _ hs hr
  | load tb hfits => exact nvLoad_inv _ hp _ tb hs hfits
  | reset => exact nvuReset_inv _ _
  | other _ hparams _ _ hnvu => rw [hparams, hnvu]; exact hs
  | _ => exact hs

/-- Settles O58. -/
theorem stepKeepsTableInvariant : Obligations.StepKeepsTableInvariant := by
  unfold Obligations.StepKeepsTableInvariant
  intro s t hp hs h
  have hkeep := step_keeps (fun s => s.params.legal ∧ nvuInv s.params s.nvu)
    (fun _ _ hs => hs) (fun _ _ hs h => ⟨h.params.symm ▸ hs.1, h.keeps_nvuInv hs.1 hs.2⟩) s t ⟨hp, hs⟩ h
  exact hkeep.2

/-- Settles O60: each unit at reset meets its invariant, and the default parameters are legal. -/
theorem resetMeetsInvariant : Obligations.ResetMeetsInvariant := by
  unfold Obligations.ResetMeetsInvariant
  exact ⟨⟨by decide, by decide⟩, frxReset_inv _ 0, ftxReset_inv _ 0, nvuReset_inv _ 0⟩

end Sys2Proof.Machine
end

