-- ==== Sys2Proof/Proofs/Registers.lean ====
section
/-! The registers as the host sees them: the STATUS words, and what a read and a write of each number does
while its unit is idle. -/

namespace Sys2Proof.Machine

/-! ### STATUS words (R26, R35, R37) -/

/-- The eight bits below KIND are the unit's own flags. -/
theorem statusWord_low (s : Status) (low : BitVec 8) (i : Nat) (h : i < 8) :
    (statusWord s low).getLsbD i = low.getLsbD i := by
  simp [statusWord, BitVec.getLsbD_append, h]

theorem statusWord_kind (s : Status) (low : BitVec 8) :
    (statusWord s low >>> 8).setWidth 4 = s.kind := by
  apply BitVec.eq_of_getLsbD_eq
  intro i hi
  simp only [statusWord, BitVec.getLsbD_setWidth, BitVec.getLsbD_ushiftRight, BitVec.getLsbD_append]
  interval_cases i <;> simp

theorem statusWord_sub (s : Status) (low : BitVec 8) :
    (statusWord s low >>> 12).setWidth 4 = s.sub := by
  apply BitVec.eq_of_getLsbD_eq
  intro i hi
  simp only [statusWord, BitVec.getLsbD_setWidth, BitVec.getLsbD_ushiftRight, BitVec.getLsbD_append]
  interval_cases i <;> simp

theorem statusWord_iocode (s : Status) (low : BitVec 8) :
    (statusWord s low >>> 16).setWidth 8 = s.iocode := by
  apply BitVec.eq_of_getLsbD_eq
  intro i hi
  simp only [statusWord, BitVec.getLsbD_setWidth, BitVec.getLsbD_ushiftRight, BitVec.getLsbD_append]
  interval_cases i <;> rfl

/-- A flag is the one bit it takes. -/
theorem getLsbD_flagBit (b : Bool) (i : Nat) : (flagBit b).getLsbD i = (decide (i = 0) && b) := by
  simp [flagBit, BitVec.getLsbD_ofBool]

theorem getLsbD_fsmBit (f : Fsm) : (fsmBit f).getLsbD 0 = true ↔ f = .awaitingPayload := by
  cases f <;> decide

/-- The fields that every STATUS register has stand where R26, R35 and R37 put them. -/
def sharedFields (w : BitVec 24) (s : Status) : Prop :=
  w.getLsbD 0 = s.busy ∧ w.getLsbD 1 = s.done ∧ w.getLsbD 2 = s.ok ∧
    (w >>> 8).setWidth 4 = s.kind ∧ (w >>> 12).setWidth 4 = s.sub ∧ (w >>> 16).setWidth 8 = s.iocode

/-- OK, DONE and BUSY below the unit's own five flags make the shared fields complete. -/
theorem statusWord_sharedFields (s : Status) (own : BitVec 5) :
    sharedFields (statusWord s (own ++ flagBit s.ok ++ flagBit s.done ++ flagBit s.busy)) s := by
  refine ⟨?_, ?_, ?_, statusWord_kind _ _, statusWord_sub _ _, statusWord_iocode _ _⟩ <;>
    rw [statusWord_low _ _ _ (by decide)] <;>
    simp only [BitVec.getLsbD_append, getLsbD_flagBit] <;> simp

/-- The flags of FRX alone, and the reserved bit above them (R26). -/
theorem rxStatusWord_flags (x : Frx) :
    (rxStatusWord x).getLsbD 3 = x.eos ∧ (rxStatusWord x).getLsbD 4 = (fsmBit x.fsm).getLsbD 0 ∧
      (rxStatusWord x).getLsbD 5 = x.hwv ∧ (rxStatusWord x).getLsbD 6 = x.flv ∧
      (rxStatusWord x).getLsbD 7 = false := by
  simp only [rxStatusWord, Nat.reduceLT, statusWord_low, BitVec.getLsbD_append, getLsbD_flagBit]
  simp

theorem txStatusWord_reserved (x : Ftx) (i : Nat) (h3 : 3 ≤ i) (h7 : i ≤ 7) :
    (txStatusWord x).getLsbD i = false := by
  rw [txStatusWord, statusWord_low _ _ _ (by omega)]
  simp only [BitVec.getLsbD_append, getLsbD_flagBit]
  interval_cases i <;> simp

/-- DIR, and the reserved bits above it (R37). -/
theorem nvStatusWord_flags (x : Nvu) :
    (nvStatusWord x).getLsbD 3 = x.dir ∧
      ∀ i, 4 ≤ i → i ≤ 7 → (nvStatusWord x).getLsbD i = false := by
  refine ⟨?_, fun i h4 h7 => ?_⟩
  · simp only [nvStatusWord, Nat.reduceLT, statusWord_low, BitVec.getLsbD_append, getLsbD_flagBit]
    simp
  · rw [nvStatusWord, statusWord_low _ _ _ (by omega)]
    simp only [BitVec.getLsbD_append, getLsbD_flagBit]
    interval_cases i <;> simp

/-- Settles O43. -/
theorem statusRegisterLayout : Obligations.StatusRegisterLayout := by
  unfold Obligations.StatusRegisterLayout
  intro x y z fields
  obtain ⟨heos, hfsm, hhwv, hflv, hreserved⟩ := rxStatusWord_flags x
  obtain ⟨hdir, hnv⟩ := nvStatusWord_flags z
  exact ⟨statusWord_sharedFields x.status _,
    ⟨heos, by rw [hfsm]; exact getLsbD_fsmBit x.fsm, hhwv, hflv, hreserved⟩,
    statusWord_sharedFields y.status _, txStatusWord_reserved y, statusWord_sharedFields z.status _,
    hdir, hnv⟩

/-! ### Reads of an idle unit -/

/-- The host is given the value of a register. -/
def readsAs (reg : BitVec 8) (v : PortData) (s : State) : HostOutcome :=
  .next { s with resp := s.resp ++ [.reg reg v] }

theorem answerReg_eq (reg : BitVec 8) {w : Nat} (v : BitVec w) (s : State) :
    answerReg reg v s = readsAs reg (v.setWidth 66) s := rfl

theorem readRx_idle (s : State) (reg : BitVec 8) {w : Nat} (v : BitVec w)
    (h : s.frx.status.busy = false) : readRx s reg v = readsAs reg (v.setWidth 66) s := by
  simp [readRx, h, answerReg_eq]

theorem readTx_idle (s : State) (reg : BitVec 8) {w : Nat} (v : BitVec w)
    (h : s.ftx.status.busy = false) : readTx s reg v = readsAs reg (v.setWidth 66) s := by
  simp [readTx, h, answerReg_eq]

theorem readNv_idle (s : State) (reg : BitVec 8) {w : Nat} (v : BitVec w)
    (h : s.nvu.status.busy = false) : readNv s reg v = readsAs reg (v.setWidth 66) s := by
  simp [readNv, h, answerReg_eq]

theorem readField_idle (s : State) (valid : Bool) (reg : BitVec 8) {w : Nat} (v : BitVec w)
    (h : s.frx.status.busy = false) :
    readField s valid reg v =
      if valid = true then readsAs reg (v.setWidth 66) s else .refused .noValue := by
  simp [readField, h, answerReg_eq]

/-- Without a Frame no frame-field register holds a value (R27). -/
theorem rxFieldValid_notOk (x : Frx) (i : Nat) (h : x.status.ok = false) : rxFieldValid x i = false := by
  simp [rxFieldValid, rxKind, h]

/-- Under a Frame those hold one that the row of its type names (R27). -/
theorem rxFieldValid_kind (x : Frx) (k : FrameKind) (i : Nat) (h : x.status.ok = true)
    (hk : hdrType x.hw = frameCode k) : rxFieldValid x i = decide (i < namedFields k) := by
  simp [rxFieldValid, rxKind, h, hk]

/-- Without a Frame registers 0x05 to 0x09 give no value (R27, R28, U17). -/
theorem regRead_field_notOk (s : State) (reg : BitVec 8) (hb : s.frx.status.busy = false)
    (hok : s.frx.status.ok = false) (h5 : 0x05 ≤ reg.toNat) (h9 : reg.toNat ≤ 0x09) :
    hostAccess (.regRead reg) s = .refused .noValue := by
  have hrefused : ∀ (reg : BitVec 8) {w : Nat} (v : BitVec w) {valid : Bool}, valid = false →
      readField s valid reg v = .refused .noValue := fun reg _ v valid h => by
    rw [readField_idle s valid reg v hb, h]; rfl
  have hreg : reg = 0x05 ∨ reg = 0x06 ∨ reg = 0x07 ∨ reg = 0x08 ∨ reg = 0x09 := by bv_omega
  rcases hreg with rfl | rfl | rfl | rfl | rfl
  · exact hrefused 0x05 s.frx.f0 (rxFieldValid_notOk s.frx 0 hok)
  · exact hrefused 0x06 s.frx.f1 (rxFieldValid_notOk s.frx 1 hok)
  · exact hrefused 0x07 s.frx.f2 (rxFieldValid_notOk s.frx 2 hok)
  · exact hrefused 0x08 s.frx.tailOff hok
  · exact hrefused 0x09 s.frx.tailLen hok

/-- Settles O48: the row of each number in `regRead`, and the read of an idle unit. -/
theorem registerReadsGiveTheirValues : Obligations.RegisterReadsGiveTheirValues := by
  unfold Obligations.RegisterReadsGiveTheirValues
  intro s gives
  refine ⟨fun hb => ⟨readRx_idle s 0x02 _ hb, readRx_idle s 0x03 _ hb, readRx_idle s 0x04 _ hb,
    fun hok => ?_, fun hok reg h5 h9 => regRead_field_notOk s reg hb hok h5 h9,
    fun k hok hk reg i v hmem => ?_⟩, fun hb => ?_, fun hb => ?_, rfl⟩
  · have hvalid : ∀ (reg : BitVec 8) {w : Nat} (v : BitVec w),
        readField s s.frx.status.ok reg v = readsAs reg (v.setWidth 66) s := fun reg _ v => by
      rw [readField_idle s _ reg v hb, if_pos hok]
    exact ⟨hvalid 0x08 _, hvalid 0x09 _⟩
  · have hrow : ∀ (reg : BitVec 8) (v : Word) (i : Nat),
        hostAccess (.regRead reg) s = readField s (rxFieldValid s.frx i) reg v →
        if i < namedFields k then gives reg (v.setWidth 66)
        else hostAccess (.regRead reg) s = .refused .noValue := fun reg v i hread => by
      rw [readField_idle s _ reg v hb, rxFieldValid_kind s.frx k i hok hk] at hread
      split_ifs with hi
      · rw [if_pos (decide_eq_true hi)] at hread; exact hread
      · rw [if_neg (by simpa using hi)] at hread; exact hread
    simp only [List.mem_cons, Prod.mk.injEq, List.not_mem_nil, or_false] at hmem
    rcases hmem with ⟨rfl, rfl, rfl⟩ | ⟨rfl, rfl, rfl⟩ | ⟨rfl, rfl, rfl⟩ <;> exact hrow _ _ _ rfl
  · exact ⟨readTx_idle s 0x12 _ hb, readTx_idle s 0x13 _ hb, readTx_idle s 0x14 _ hb,
      readTx_idle s 0x15 _ hb, readTx_idle s 0x16 _ hb, readTx_idle s 0x17 _ hb,
      readTx_idle s 0x18 _ hb, readTx_idle s 0x19 _ hb, readTx_idle s 0x1A _ hb,
      readTx_idle s 0x1B _ hb, readTx_idle s 0x1C _ hb⟩
  · have hbytes : gives 0x23 (s.nvu.bytes.setWidth 66) := readNv_idle s 0x23 _ hb
    rw [BitVec.setWidth_eq] at hbytes
    exact ⟨readNv_idle s 0x22 _ hb, hbytes⟩

/-! ### Writes -/

theorem writeTx_idle (s : State) (f : Ftx → Ftx) (h : s.ftx.status.busy = false) :
    writeTx s f = .next { s with ftx := f s.ftx } := by simp [writeTx, h]

/-- A descriptor register whose write and read rows are those given holds what is written to it. -/
theorem writeTx_readsBack (s : State) (reg : BitVec 8) (d : PortData) {w : Nat} (f : Ftx → Ftx)
    (get : Ftx → BitVec w) (hidle : s.ftx.status.busy = false)
    (hwrite : hostAccess (.regWrite reg d) s = writeTx s f)
    (hread : ∀ t, hostAccess (.regRead reg) t = readTx t reg (get t.ftx))
    (hstatus : (f s.ftx).status = s.ftx.status) (hget : get (f s.ftx) = d.setWidth w) :
    hostAccess (.regWrite reg d) s = .next { s with ftx := f s.ftx } ∧
      hostAccess (.regRead reg) { s with ftx := f s.ftx } =
        readsAs reg ((d.setWidth w).setWidth 66) { s with ftx := f s.ftx } := by
  refine ⟨hwrite.trans (writeTx_idle s f hidle), ?_⟩
  rw [hread, readTx_idle _ _ _ (hstatus ▸ hidle), hget]

/-- Settles O45: the write and the read row of each descriptor register, and of CTRL. -/
theorem writtenRegistersReadBack : Obligations.WrittenRegistersReadBack := by
  unfold Obligations.WrittenRegistersReadBack
  intro s d takes
  refine ⟨fun hb => ⟨?_, ?_, ?_, ?_, ?_, ?_, ?_⟩, fun hb => ⟨?_, rfl⟩⟩
  · exact writeTx_readsBack s 0x12 d (fun x => { x with type := d.setWidth 16 }) (·.type) hb rfl
      (fun _ => rfl) rfl rfl
  · exact writeTx_readsBack s 0x13 d (fun x => { x with version := d.setWidth 15 }) (·.version) hb rfl
      (fun _ => rfl) rfl rfl
  · exact writeTx_readsBack s 0x14 d (fun x => { x with flags := d.setWidth 8 }) (·.flags) hb rfl
      (fun _ => rfl) rfl rfl
  · exact writeTx_readsBack s 0x15 d (fun x => { x with f0 := d.setWidth 32 }) (·.f0) hb rfl
      (fun _ => rfl) rfl rfl
  · exact writeTx_readsBack s 0x16 d (fun x => { x with f1 := d.setWidth 32 }) (·.f1) hb rfl
      (fun _ => rfl) rfl rfl
  · exact writeTx_readsBack s 0x17 d (fun x => { x with f2 := d.setWidth 32 }) (·.f2) hb rfl
      (fun _ => rfl) rfl rfl
  · exact writeTx_readsBack s 0x18 d (fun x => { x with tailLen := d.setWidth 32 }) (·.tailLen) hb rfl
      (fun _ => rfl) rfl rfl
  · simp [hostAccess, regWrite, hb]

/-- Settles O46, by the laws of a buffer that is written. -/
theorem txBuffersTakeWrites : Obligations.TxBuffersTakeWrites := by
  unfold Obligations.TxBuffersTakeWrites
  intro s hb
  refine ⟨fun off b hcap => ⟨{ s with ftx := { s.ftx with tail := memWrite s.ftx.tail off b } }, ?_, rfl,
      memRead_memWrite _ _ _, fun a ha => ?_⟩,
    fun i f n v hcap => ⟨{ s with ftx := { s.ftx with set := storeSet s.ftx.set i _ } }, ?_, rfl,
      storeGet_storeSet_same _ _ _, fun j hj => storeGet_storeSet_other _ _ _ _ hj⟩⟩
  · simp [hostAccess, txtailWrite, hb, hcap]
  · rcases ha with hbefore | hafter
    · exact storeGet_memWrite_before _ _ _ _ hbefore
    · exact storeGet_memWrite_after _ _ _ _ hafter
  · simp [hostAccess, txsetWrite, hb, hcap]

/-! ### Unassigned numbers -/

/-- The register numbers that the table of R42 lists. -/
def assignedRegs : List (BitVec 8) :=
  [0x00, 0x01, 0x02, 0x03, 0x04, 0x05, 0x06, 0x07, 0x08, 0x09, 0x10, 0x11, 0x12, 0x13, 0x14, 0x15, 0x16,
    0x17, 0x18, 0x19, 0x1A, 0x1B, 0x1C, 0x20, 0x21, 0x22, 0x23, 0x30]

theorem not_mem_assignedRegs (reg : BitVec 8)
    (h : (0x0A ≤ reg.toNat ∧ reg.toNat ≤ 0x0F) ∨ (0x1D ≤ reg.toNat ∧ reg.toNat ≤ 0x1F) ∨
      (0x24 ≤ reg.toNat ∧ reg.toNat ≤ 0x2F) ∨ 0x31 ≤ reg.toNat) : reg ∉ assignedRegs := by
  simp only [assignedRegs, List.mem_cons, List.not_mem_nil, or_false, BitVec.toNat_eq,
    BitVec.ofNat_eq_ofNat, BitVec.toNat_ofNat]
  omega

theorem regRead_unassigned (reg : BitVec 8) (s : State) (h : reg ∉ assignedRegs) :
    regRead reg s = readsAs reg 0 s := by
  simp only [assignedRegs, List.mem_cons, List.not_mem_nil, or_false, not_or,
    BitVec.ofNat_eq_ofNat] at h
  simp [regRead, h, answerReg_eq]

theorem readOnlyBusy_unassigned (reg : BitVec 8) (s : State) (h : reg ∉ assignedRegs) :
    readOnlyBusy reg s = false := by
  simp only [assignedRegs, List.mem_cons, List.not_mem_nil, or_false, BitVec.toNat_eq,
    BitVec.ofNat_eq_ofNat, BitVec.toNat_ofNat] at h
  unfold readOnlyBusy
  simp only [BitVec.toNat_eq, BitVec.ofNat_eq_ofNat, BitVec.toNat_ofNat]
  rw [if_neg (by omega), if_neg (by omega), if_neg (by omega)]

theorem regWrite_unassigned (reg : BitVec 8) (d : PortData) (s : State) (h : reg ∉ assignedRegs) :
    regWrite reg d s = .next s := by
  have hbusy := readOnlyBusy_unassigned reg s h
  simp only [assignedRegs, List.mem_cons, List.not_mem_nil, or_false, not_or,
    BitVec.ofNat_eq_ofNat] at h
  simp [regWrite, h, hbusy]

theorem decodeCommand_unassigned (reg : BitVec 8) (d : PortData) (h : reg ∉ assignedRegs) :
    decodeCommand reg d = .error .notACommandRegister := by
  simp only [assignedRegs, List.mem_cons, List.not_mem_nil, or_false, not_or,
    BitVec.ofNat_eq_ofNat] at h
  simp [decodeCommand, regRxCmd, regTxCmd, regNvCmd, h]

/-- Settles O49. -/
theorem unassignedRegistersReadZero : Obligations.UnassignedRegistersReadZero := by
  unfold Obligations.UnassignedRegistersReadZero
  intro s reg d hreg
  have h := not_mem_assignedRegs reg hreg
  exact ⟨regRead_unassigned reg s h, regWrite_unassigned reg d s h, decodeCommand_unassigned reg d h⟩

/-! ### Right after reset -/

/-- The registers to which R43 gives the reset value 0. -/
theorem regRead_reset_zero (reg : BitVec 8)
    (h : reg ∈ ([0x01, 0x04, 0x11, 0x21, 0x22, 0x23] : List (BitVec 8))) :
    hostAccess (.regRead reg) State.reset = readsAs reg 0 State.reset := by
  simp only [List.mem_cons, List.not_mem_nil, or_false] at h
  rcases h with rfl | rfl | rfl | rfl | rfl | rfl <;> rfl

/-- A readable register that R43 leaves unspecified reads what it holds, its unit being idle. -/
theorem regRead_reset_some (reg : BitVec 8)
    (h : reg ∈ ([0x02, 0x03, 0x12, 0x13, 0x14, 0x15, 0x16, 0x17, 0x18, 0x19, 0x1A, 0x1B, 0x1C] :
      List (BitVec 8))) :
    ∃ v, hostAccess (.regRead reg) State.reset = readsAs reg v State.reset := by
  obtain ⟨hrx, htx, -⟩ := registerReadsGiveTheirValues State.reset
  obtain ⟨hhw, hfl, -⟩ := hrx rfl
  obtain ⟨h12, h13, h14, h15, h16, h17, h18, h19, h1A, h1B, h1C⟩ := htx rfl
  simp only [List.mem_cons, List.not_mem_nil, or_false] at h
  rcases h with rfl | rfl | rfl | rfl | rfl | rfl | rfl | rfl | rfl | rfl | rfl | rfl | rfl
  exacts [⟨_, hhw⟩, ⟨_, hfl⟩, ⟨_, h12⟩, ⟨_, h13⟩, ⟨_, h14⟩, ⟨_, h15⟩, ⟨_, h16⟩, ⟨_, h17⟩, ⟨_, h18⟩,
    ⟨_, h19⟩, ⟨_, h1A⟩, ⟨_, h1B⟩, ⟨_, h1C⟩]

/-- Settles O52. -/
theorem registersAfterReset : Obligations.RegistersAfterReset := by
  unfold Obligations.RegistersAfterReset
  exact ⟨regRead_reset_zero, rfl, fun reg h5 h9 => regRead_field_notOk _ reg rfl rfl h5 h9,
    regRead_reset_some, rfl, rfl, rfl, fun _ => ⟨rfl, rfl, rfl, rfl⟩, step_noEvent _ rfl⟩

end Sys2Proof.Machine
end

