-- ==== Sys2Proof/Proofs/Payload.lean ====
section
/-! Operations on a payload that the source holds: the payload lands in RXBUF (R67, R234), and RXSET shows
the entries of a decoded Settings frame (R68). -/

namespace Sys2Proof.Machine

/-! ### The payload read -/

@[simp] theorem onPayload_decOperation (k : FrameKind) (v : BitVec 15) (f : BitVec 8) (l : BitVec 24) :
    onPayload (decOperation k v f l) = some l := by cases k <;> rfl

/-- Every operation on a payload of l bytes reads l bytes and dispatches on them. -/
theorem exec_onPayload (i : Instr) (l : BitVec 24) (s : State) (h : onPayload i = some l) :
    ∃ d, exec i s = .next (frameOp d l.toNat s) := by
  rcases onPayload_cases i (by simp [h]) with ⟨k, v, f, l', rfl⟩ | ⟨v, f, l', rfl⟩ | ⟨v, t, f, l', rfl⟩
  · rw [onPayload_decOperation] at h
    cases h
    exact ⟨_, exec_decOperation k v f l s⟩
  · cases h; exact ⟨_, rfl⟩
  · cases h; exact ⟨_, rfl⟩

/-- Where the source holds the payload it is consumed and stored, and the dispatch is on it. -/
theorem frameOp_held (d : Option (Bytes → DecResult)) (l : Nat) (s : State)
    (h : l ≤ s.fsrc.bytes.length) :
    frameOp d l s =
      { s with
        frx := frxDispatch d (s.fsrc.bytes.take l) (frxStore (s.fsrc.bytes.take l) s.frx)
        fsrc := { s.fsrc with bytes := s.fsrc.bytes.drop l } } := by
  simp [frameOp, onRx, frxReceive, srcRead_enough _ _ h]

/-! ### The dispatch -/

/-- However the dispatch ends, RX_HW, RX_CNT and RXBUF stay as the payload read left them. -/
theorem frxDispatch_frame (d : Option (Bytes → DecResult)) (p : Bytes) (x : Frx) :
    (frxDispatch d p x).hw = x.hw ∧ (frxDispatch d p x).cnt = x.cnt ∧
      (frxDispatch d p x).buf = x.buf := by
  rcases frxDispatch_cases d p x with
    ⟨-, e⟩ | ⟨_, -, ⟨-, e⟩ | ⟨-, e⟩ | ⟨body, _, -, ⟨-, e⟩ | ⟨-, e⟩⟩⟩ <;> rw [e]
  iterate 4 exact ⟨rfl, rfl, rfl⟩
  obtain ⟨-, -, hhw, -, hcnt, hbuf⟩ := placeBody_frame body p.length x
  exact ⟨hhw, hcnt, hbuf⟩

/-- A dispatch that ends with OK has delivered a body that took the whole payload (R236, R237). -/
theorem frxDispatch_ok (dec : Bytes → DecResult) (p : Bytes) (x : Frx)
    (h : (frxDispatch (some dec) p x).status.ok = true) :
    ∃ body c, dec p = .decoded body c ∧ p.length ≤ c ∧
      frxDispatch (some dec) p x = frxDeliver body p.length x := by
  rcases frxDispatch_cases (some dec) p x with
    ⟨hd, -⟩ | ⟨_, hd, ⟨-, e⟩ | ⟨-, e⟩ | ⟨body, c, hb, ⟨-, e⟩ | ⟨hc, e⟩⟩⟩ <;> cases hd
  case inr.inr.inr.inr => exact ⟨body, c, hb, hc, e⟩
  all_goals rw [e] at h; cases h

/-- Settles O26: the payload is written to RXBUF from offset 0, and the dispatch leaves RXBUF alone. -/
theorem payloadLandsInRxbuf : Obligations.PayloadLandsInRxbuf := by
  unfold Obligations.PayloadLandsInRxbuf
  intro i l s hi hl
  obtain ⟨d, hexec⟩ := exec_onPayload i l s hi
  rw [frameOp_held d _ s hl] at hexec
  have hlen : (s.fsrc.bytes.take l.toNat).length = l.toNat := List.length_take_of_le hl
  obtain ⟨-, hcnt, hbuf⟩ := frxDispatch_frame d (s.fsrc.bytes.take l.toNat)
    (frxStore (s.fsrc.bytes.take l.toNat) s.frx)
  refine ⟨_, hexec, rfl, ?_, fun a ha => ?_, fun a ha => ?_⟩
  · rw [hcnt, frxStore_cnt, hlen, BitVec.ofNat_toNat, BitVec.setWidth_eq]
  · rw [hbuf, frxStore_buf, storeGet_memWrite_after _ _ _ _ (by omega)]
  · have hget := storeGet_memWrite_inside s.frx.buf 0 a (s.fsrc.bytes.take l.toNat) (by omega)
    rw [hbuf, frxStore_buf, ← List.getElem?_take_of_lt ha, ← Nat.zero_add a, hget]
    simp [hlen, ha]

/-! ### Settings entries -/

theorem entriesAt_length (p : Bytes) (off n : Nat) : (entriesAt p off n).length = n := by
  induction n generalizing off with
  | zero => rfl
  | succ n ih => simp [entriesAt, ih]

/-- What DEC.SETTINGS accepts: the count it announces, and as many entries as that (R174). -/
theorem decSettings_decoded (p : Bytes) (body : Body) (c : Nat) (h : decSettings p = .decoded body c) :
    body = .settings (entriesAt p 4 (be32At p 0).toNat) ∧ 4 + 8 * (be32At p 0).toNat ≤ p.length := by
  unfold decSettings at h
  split_ifs at h with h4 hsize
  cases h
  exact ⟨rfl, by omega⟩

/-- RX_F0 of a delivered Settings body is the number of its entries (R27). -/
theorem frxDeliver_settings_f0 (p : Bytes) (off l : Nat) (n : Word) (x : Frx) :
    (frxDeliver (.settings (entriesAt p off n.toNat)) l x).f0 = n := by
  simp [frxDeliver, placeBody, entriesAt_length]

/-- The top byte of a big-endian word is the first one (R10). -/
theorem flFlags_be32At (p : Bytes) (off : Nat) : flFlags (be32At p off) = p.getD off 0 := by
  apply BitVec.eq_of_getLsbD_eq
  intro i hi
  simp only [flFlags, be32At, BitVec.getLsbD_extractLsb', BitVec.getLsbD_append]
  interval_cases i <;> simp

theorem flLength_eq_setWidth (w : Word) : flLength w = w.setWidth 24 := by
  simp [flLength, BitVec.setWidth_eq_extractLsb']

/-- Entry i of RXSET is the eight bytes of the payload at 4 + 8i (R68, R96). -/
theorem rxsetEntry_payload (x : Frx) (m : Memory) (p : Bytes) (i : Nat) (hbuf : x.buf = memWrite m 0 p)
    (h : 4 + 8 * i + 8 ≤ p.length) :
    rxsetEntry x i =
      some { flags := p.getD (4 + 8 * i) 0, id := (be32At p (4 + 8 * i)).setWidth 24
             value := be32At p (8 + 8 * i) } := by
  have hread := memRead_memWrite_part m 0 (4 + 8 * i) 8 p h
  rw [Nat.zero_add] at hread
  simp only [rxsetEntry, hbuf, hread, be32At_take _ _ _ (show 0 + 4 ≤ 8 by decide),
    be32At_take _ _ _ (show 4 + 4 ≤ 8 by decide), be32At_drop, entryOfWords, flFlags_be32At,
    flLength_eq_setWidth, Nat.add_zero]
  rw [show 4 + 8 * i + 4 = 8 + 8 * i by omega]

/-- A DEC.SETTINGS that ends with OK under a header of type 4 has delivered entries whose bytes RXBUF holds:
RXSET shows them, as many as RX_F0 says (R27, R68). -/
theorem frxDispatch_settings_rxset (p : Bytes) (x y : Frx)
    (hy : y = frxDispatch (some decSettings) p (frxStore p x)) (htype : hdrType x.hw = 4)
    (hok : y.status.ok = true) :
    rxKind y = some .settings ∧
      ∀ i, i < y.f0.toNat →
        rxsetEntry y i =
          some { flags := p.getD (4 + 8 * i) 0, id := (be32At p (4 + 8 * i)).setWidth 24
                 value := be32At p (8 + 8 * i) } := by
  obtain ⟨hhw, -, hbuf⟩ := frxDispatch_frame (some decSettings) p (frxStore p x)
  rw [← hy] at hhw hbuf
  refine ⟨?_, fun i hi => rxsetEntry_payload y x.buf p i hbuf ?_⟩
  · rw [rxKind, if_pos hok, hhw, frxStore_hw, htype]; rfl
  · obtain ⟨body, c, hdec, -, hdeliver⟩ := frxDispatch_ok decSettings p (frxStore p x) (hy ▸ hok)
    obtain ⟨rfl, hsize⟩ := decSettings_decoded p body c hdec
    rw [hy, hdeliver, frxDeliver_settings_f0] at hi
    omega

/-! ### Reads of RXSET -/

theorem rxsetRead_entry (s : State) (i : Nat) (e : SetEntry) (hidle : s.frx.status.busy = false)
    (hkind : rxKind s.frx = some .settings) (hi : i < s.frx.f0.toNat)
    (he : rxsetEntry s.frx i = some e) :
    hostAccess (.rxsetRead i) s = .next { s with resp := s.resp ++ [.entry e] } := by
  simp [hostAccess, rxsetRead, hidle, hkind, hi, he, respond]

/-- From the entry count on RXSET has no value (R68). -/
theorem rxsetRead_beyond (s : State) (i : Nat) (hidle : s.frx.status.busy = false)
    (hi : s.frx.f0.toNat ≤ i) : hostAccess (.rxsetRead i) s = .refused .noValue := by
  simp [hostAccess, rxsetRead, hidle, Nat.not_lt.2 hi]

/-- Settles O22. -/
theorem settingsEntriesInRxset : Obligations.SettingsEntriesInRxset := by
  unfold Obligations.SettingsEntriesInRxset
  intro v f l s u hl htype hexec hok p i
  have hu := exec_decOperation .settings v f l s
  rw [frameOp_held _ _ s hl] at hu
  cases hexec.symm.trans hu
  have hidle := frxDispatch_idle (some decSettings) p (frxStore p s.frx)
  obtain ⟨hkind, hentry⟩ := frxDispatch_settings_rxset p s.frx _ rfl htype hok
  exact ⟨fun hi => rxsetRead_entry _ i _ hidle hkind hi (hentry i hi), rxsetRead_beyond _ i hidle⟩

end Sys2Proof.Machine
end

