-- ==== Sys2Proof/Proofs/Reads.lean ====
section
/-! The host's reads of the buffers and of NVT: they do nothing but answer (R66), and what they answer
(R60, R67, R69, R70). -/

namespace Sys2Proof.Machine

/-! ### Reads answer and do nothing else -/

theorem rxbufRead_answersOnly (s : State) (off n : Nat) : answersOnly s (rxbufRead off n s) :=
  answersOnly_ite _ _ _ _ (answersOnly_refused _ _) (readBuffer_answersOnly _ _ _ _ _)

theorem txtailRead_answersOnly (s : State) (off n : Nat) : answersOnly s (txtailRead off n s) :=
  answersOnly_ite _ _ _ _ (answersOnly_refused _ _) (readBuffer_answersOnly _ _ _ _ _)

theorem rxsetRead_answersOnly (s : State) (i : Nat) : answersOnly s (rxsetRead i s) := by
  refine answersOnly_ite _ _ _ _ (answersOnly_refused _ _)
    (answersOnly_ite _ _ _ _ ?_ (answersOnly_refused _ _))
  split
  · exact answersOnly_next _ _
  · exact answersOnly_refused _ _

theorem txsetRead_answersOnly (s : State) (i : Nat) : answersOnly s (txsetRead i s) := by
  refine answersOnly_ite _ _ _ _ (answersOnly_refused _ _)
    (answersOnly_ite _ _ _ _ (answersOnly_fault _ _) ?_)
  split
  · exact answersOnly_next _ _
  · exact answersOnly_refused _ _

theorem nvtLength_answersOnly (s : State) (i : Nat) (h : NvHalf) : answersOnly s (nvtLength i h s) := by
  refine answersOnly_ite _ _ _ _ (answersOnly_refused _ _) ?_
  split
  · exact answersOnly_next _ _
  · exact answersOnly_refused _ _

theorem nvtRead_answersOnly (s : State) (i : Nat) (h : NvHalf) (off n : Nat) :
    answersOnly s (nvtRead i h off n s) := by
  refine answersOnly_ite _ _ _ _ (answersOnly_refused _ _) ?_
  split
  · exact answersOnly_ite _ _ _ _ (answersOnly_next _ _) (answersOnly_refused _ _)
  · exact answersOnly_refused _ _

/-! ### Reads of RXBUF, TXTAIL and TXSET -/

/-- A read that meets a byte without a value gives nothing. -/
theorem memRead_eq_none (m : Memory) (off n i : Nat) (hi : i < n) (h : storeGet m (off + i) = none) :
    memRead m off n = none := by
  refine Option.eq_none_iff_forall_ne_some.2 fun b hb => ?_
  obtain ⟨rfl, hget⟩ := (memRead_eq_some m off n b).1 hb
  rw [hget i hi] at h
  cases h

/-- What a read of a buffer gives: the fault beyond its end, the bytes that stand there, or the refusal
where one of them holds no value (U16, U18; notes/assumptions/17.md). -/
theorem readBuffer_gives (m : Memory) (size off n : Nat) (s : State) :
    (size < off + n → readBuffer m size off n s = .fault .noSuchAddress) ∧
    (∀ b : Bytes, off + n ≤ size → b.length = n → (∀ i, i < n → storeGet m (off + i) = b[i]?) →
      readBuffer m size off n s = .next { s with resp := s.resp ++ [.bytes b] }) ∧
    (∀ i, off + n ≤ size → i < n → storeGet m (off + i) = none →
      readBuffer m size off n s = .refused .noValue) := by
  refine ⟨fun h => if_pos h, fun b hsize hlen hget => ?_, fun i hsize hi hnone => ?_⟩
  · have hread : memRead m off n = some b := (memRead_eq_some m off n b).2
      ⟨hlen, fun k hk => (hget k (hlen ▸ hk)).trans (List.getElem?_eq_getElem hk)⟩
    simp [readBuffer, Nat.not_lt.2 hsize, hread, respond]
  · simp [readBuffer, Nat.not_lt.2 hsize, memRead_eq_none m off n i hi hnone]

theorem rxbufRead_idle (s : State) (off n : Nat) (h : s.frx.status.busy = false) :
    hostAccess (.rxbufRead off n) s = readBuffer s.frx.buf s.params.payloadMax off n s := by
  simp [hostAccess, rxbufRead, h]

theorem txtailRead_idle (s : State) (off n : Nat) (h : s.ftx.status.busy = false) :
    hostAccess (.txtailRead off n) s = readBuffer s.ftx.tail (txtailCap s.params) off n s := by
  simp [hostAccess, txtailRead, h]

/-- What a read of an entry of TXSET gives. -/
theorem txsetRead_gives (s : State) (i : Nat) (hidle : s.ftx.status.busy = false) :
    (txsetCap s.params ≤ i → hostAccess (.txsetRead i) s = .fault .noSuchAddress) ∧
    (∀ e, i < txsetCap s.params → storeGet s.ftx.set i = some e →
      hostAccess (.txsetRead i) s = .next { s with resp := s.resp ++ [.entry e] }) ∧
    (i < txsetCap s.params → storeGet s.ftx.set i = none →
      hostAccess (.txsetRead i) s = .refused .noValue) := by
  refine ⟨fun h => ?_, fun e hi he => ?_, fun hi hnone => ?_⟩
  · simp [hostAccess, txsetRead, hidle, h]
  · simp [hostAccess, txsetRead, hidle, Nat.not_le.2 hi, he, respond]
  · simp [hostAccess, txsetRead, hidle, Nat.not_le.2 hi, hnone]

/-- Settles O44: each read answers only, and an idle unit's buffers give what they hold. -/
theorem readsHaveNoSideEffects : Obligations.ReadsHaveNoSideEffects := by
  unfold Obligations.ReadsHaveNoSideEffects
  intro s
  refine ⟨fun t r hr ht => answersOnly_inv (o := hostAccess r s) ?_ ht, fun hb off n => ?_,
    fun hb => ⟨fun off n => ?_, fun i => txsetRead_gives s i hb⟩⟩
  · rcases hr with ⟨reg, rfl⟩ | ⟨o, n, rfl⟩ | ⟨i, rfl⟩ | ⟨o, n, rfl⟩ | ⟨i, rfl⟩ | ⟨i, h, rfl⟩ |
      ⟨i, h, o, n, rfl⟩
    · exact regRead_answersOnly s reg
    · exact rxbufRead_answersOnly s o n
    · exact rxsetRead_answersOnly s i
    · exact txtailRead_answersOnly s o n
    · exact txsetRead_answersOnly s i
    · exact nvtLength_answersOnly s i h
    · exact nvtRead_answersOnly s i h o n
  · rw [rxbufRead_idle s off n hb]
    exact readBuffer_gives _ _ off n s
  · rw [txtailRead_idle s off n hb]
    exact readBuffer_gives _ _ off n s

/-! ### Reads of NVT -/

/-- Where NV_COUNT is the number of pairs, all of NVT is what the host reads and NV.ENC writes. -/
theorem nvOut_eq_nvt (x : Nvu) (h : x.count.toNat = x.nvt.length) : nvOut x = x.nvt := by
  rw [nvOut, h, List.take_length]

theorem nvtHalf_pair (x : Nvu) (i : Nat) (name value : Bytes) (h : (nvOut x)[i]? = some (name, value)) :
    nvtHalf x i .name = some name ∧ nvtHalf x i .value = some value := by
  simp [nvtHalf, h]

theorem nvtHalf_beyond (x : Nvu) (i : Nat) (half : NvHalf) (h : (nvOut x).length ≤ i) :
    nvtHalf x i half = none := by
  simp [nvtHalf, List.getElem?_eq_none h]

/-- The host reads the length of a half that the pair has, and the bytes within it. -/
theorem nvt_reads_half (s : State) (i : Nat) (half : NvHalf) (b : Bytes)
    (hidle : s.nvu.status.busy = false) (h : nvtHalf s.nvu i half = some b) :
    hostAccess (.nvtLength i half) s = .next { s with resp := s.resp ++ [.length b.length] } ∧
      ∀ off n, hostAccess (.nvtRead i half off n) s =
        if off + n ≤ b.length then
          .next { s with resp := s.resp ++ [.bytes ((b.drop off).take n)] }
        else .refused .noValue := by
  refine ⟨?_, fun off n => ?_⟩
  · simp [hostAccess, nvtLength, hidle, h, respond]
  · simp [hostAccess, nvtRead, hidle, h, respond]

/-- A half of a pair that NVT does not have gives no value (notes/assumptions/17.md). -/
theorem nvt_reads_none (s : State) (i : Nat) (half : NvHalf) (hidle : s.nvu.status.busy = false)
    (h : nvtHalf s.nvu i half = none) :
    hostAccess (.nvtLength i half) s = .refused .noValue ∧
      ∀ off n, hostAccess (.nvtRead i half off n) s = .refused .noValue := by
  simp [hostAccess, nvtLength, nvtRead, hidle, h]

/-- Settles O51. -/
theorem nvtIsReadByIndex : Obligations.NvtIsReadByIndex := by
  unfold Obligations.NvtIsReadByIndex
  intro s i hidle hcount
  have hout := nvOut_eq_nvt s.nvu hcount
  refine ⟨fun name value hpair => ?_, fun hi half => nvt_reads_none s i half hidle
    (nvtHalf_beyond s.nvu i half (by rw [hout]; omega))⟩
  obtain ⟨hname, hvalue⟩ := nvtHalf_pair s.nvu i name value (hout ▸ hpair)
  obtain ⟨hnameLength, hnameBytes⟩ := nvt_reads_half s i .name name hidle hname
  obtain ⟨hvalueLength, hvalueBytes⟩ := nvt_reads_half s i .value value hidle hvalue
  exact ⟨hnameLength, hvalueLength, fun off n => ⟨hnameBytes off n, hvalueBytes off n⟩⟩

end Sys2Proof.Machine
end

