-- ==== Sys2Proof/Proofs/Independence.lean ====
section
/-! What shares nothing does not interfere: commands to different units commute (R76), and what happens to
a byte stream reaches that stream alone (R61, R62, R71). -/

namespace Sys2Proof.Machine

/-! ### A command as an action on its own unit and stream

Apart from these, a command looks only at the reset input, the parameters, the pace and CTRL, which no
command changes. -/

/-- READ on FRX and FSRC, dropped under reset or while busy (R231, R290, R294). -/
def readCommand (reset : Bool) (p : Config.Params) (pace : Pace) (r : Frx × Source) : Frx × Source :=
  if reset = true ∨ r.1.status.busy = true then r else frxRead p pace r

/-- WRITE on FTX and FSNK (R239, R290, R294). -/
def writeCommand (reset : Bool) (p : Config.Params) (pace : Pace) (r : Ftx × Sink) : Ftx × Sink :=
  if reset = true ∨ r.1.status.busy = true then r else ftxWrite p pace r

/-- NV.DEC on NVU and NSRC (R151, R290, R294). -/
def nvDecCommand (reset : Bool) (p : Config.Params) (ctrl : BitVec 1) (pace : Pace) (r : Nvu × Source) :
    Nvu × Source :=
  if reset = true ∨ r.1.status.busy = true then r else nvDec p (ctrl == 1) pace r

/-- NV.ENC on NVU and NSNK (R152, R290, R294). -/
def nvEncCommand (reset : Bool) (pace : Pace) (r : Nvu × Sink) : Nvu × Sink :=
  if reset = true ∨ r.1.status.busy = true then r else nvEnc pace r

theorem exec_read (s : State) :
    exec .read s = .next (onRx s (readCommand s.resetLine s.params s.pace)) := by
  simp only [exec, execRead, onRx, readCommand]
  split <;> rfl

theorem exec_write (s : State) :
    exec .write s = .next (onTx s (writeCommand s.resetLine s.params s.pace)) := by
  simp only [exec, execWrite, onTx, writeCommand]
  split <;> rfl

theorem exec_nvDec (s : State) :
    exec .nvDec s = .next (onNvIn s (nvDecCommand s.resetLine s.params s.ctrl s.pace)) := by
  simp only [exec, execNvDec, onNvIn, nvDecCommand]
  split <;> rfl

theorem exec_nvEnc (s : State) :
    exec .nvEnc s = .next (onNvOut s (nvEncCommand s.resetLine s.pace)) := by
  simp only [exec, execNvEnc, onNvOut, nvEncCommand]
  split <;> rfl

/-! ### Actions on different units commute -/

section
variable (s : State) (f : Frx × Source → Frx × Source) (g : Ftx × Sink → Ftx × Sink)
  (d : Nvu × Source → Nvu × Source) (e : Nvu × Sink → Nvu × Sink)

theorem onTx_onRx : onTx (onRx s f) g = onRx (onTx s g) f := rfl

theorem onNvIn_onRx : onNvIn (onRx s f) d = onRx (onNvIn s d) f := rfl

theorem onNvIn_onTx : onNvIn (onTx s g) d = onTx (onNvIn s d) g := rfl

theorem onNvOut_onRx : onNvOut (onRx s f) e = onRx (onNvOut s e) f := rfl

theorem onNvOut_onTx : onNvOut (onTx s g) e = onTx (onNvOut s e) g := rfl

end

@[simp] theorem thenExec_next (i : Instr) (s : State) : thenExec i (.next s) = exec i s := rfl

/-- Settles O54: each command is an action on its own unit, and takes nothing from the others. -/
theorem unitsAreIndependent : Obligations.UnitsAreIndependent := by
  unfold Obligations.UnitsAreIndependent
  intro s
  refine ⟨?_, ?_⟩
  · simp [exec_read, exec_write, onTx_onRx]
  · rintro i (rfl | rfl)
    · simp [exec_read, exec_write, exec_nvDec, onNvIn_onRx, onNvIn_onTx]
    · simp [exec_read, exec_write, exec_nvEnc, onNvOut_onRx, onNvOut_onTx]

/-! ### Events of the streams -/

/-- A step at an event that gives no operation is what the event does. -/
theorem step_noOperation (s : State) (e : Event) (es : List Event) (h : fetchDecoded e s = none) :
    step { s with events := e :: es } = happen e { s with events := es } := by
  obtain ⟨-, -, -, -, -, hstep, -⟩ := whereOperationsAreFetched s es
  exact hstep e h

theorem step_deliver (s : State) (es : List Event) (p : SrcPort) (b : Bytes) (tail : SrcTail) :
    step { s with events := .deliver p b tail :: es } =
      .next (onSource p (deliverTo b tail) { s with events := es }) := step_noOperation s _ es rfl

theorem step_connect (s : State) (es : List Event) (p : SrcPort) (src : Source) :
    step { s with events := .connect p src :: es } =
      .next (onSource p (fun _ => src) { s with events := es }) := step_noOperation s _ es rfl

theorem step_sink (s : State) (es : List Event) (p : SnkPort) (m : SinkMode) :
    step { s with events := .sink p m :: es } =
      .next (setSink p m { s with events := es }) := step_noOperation s _ es rfl

/-- Settles O55: each event of a stream writes the field of its port. -/
theorem streamEventsReachStreamsOnly : Obligations.StreamEventsReachStreamsOnly := by
  unfold Obligations.StreamEventsReachStreamsOnly
  intro s es b tail delivered
  exact ⟨step_deliver s es .fsrc b tail, step_deliver s es .nsrc b tail,
    step_connect s es .fsrc, step_connect s es .nsrc, step_sink s es .fsnk, step_sink s es .nsnk⟩

end Sys2Proof.Machine
end

