-- ==== Sys2Proof/Proofs/HeaderSelect.lean ====
section
/-! A header is its fields side by side (R91, R92, R93).  So decoding it loses no bit, and a row of the
opcode table, a mask and a match, says what its control bit and its type are (R113). -/

namespace Sys2Proof.Machine

/-! ### A word as its fields -/

theorem headerWord_eq_fields (w : Word) :
    (hdrControl w ++ hdrVersion w ++ hdrType w : BitVec 32) = w := by
  have hcv : hdrControl w ++ hdrVersion w = w.extractLsb' 16 16 :=
    BitVec.extractLsb'_append_extractLsb'_eq_extractLsb' rfl
  have hw : w.extractLsb' 16 16 ++ hdrType w = w.extractLsb' 0 32 :=
    BitVec.extractLsb'_append_extractLsb'_eq_extractLsb' rfl
  rw [hcv, hw, BitVec.extractLsb'_eq_self]

theorem flagLength_eq_fields (w : Word) : (flFlags w ++ flLength w : BitVec 32) = w := by
  have hw : flFlags w ++ flLength w = w.extractLsb' 0 32 :=
    BitVec.extractLsb'_append_extractLsb'_eq_extractLsb' rfl
  rw [hw, BitVec.extractLsb'_eq_self]

/-- The HeaderWord of a data frame (R92). -/
theorem dataWord_eq_fields (w : Word) :
    (hdrControl w ++ w.extractLsb' 0 31 : BitVec 32) = w := by
  have hw : hdrControl w ++ w.extractLsb' 0 31 = w.extractLsb' 0 32 :=
    BitVec.extractLsb'_append_extractLsb'_eq_extractLsb' rfl
  rw [hw, BitVec.extractLsb'_eq_self]

theorem hdrControl_fields (c : BitVec 1) (v : BitVec 15) (t : BitVec 16) :
    hdrControl (c ++ v ++ t : BitVec 32) = c := by
  rw [hdrControl, BitVec.extractLsb'_append_eq_of_le (by decide),
    BitVec.extractLsb'_append_eq_of_le (by decide)]
  exact BitVec.extractLsb'_eq_self

theorem hdrType_fields (c : BitVec 1) (v : BitVec 15) (t : BitVec 16) :
    hdrType (c ++ v ++ t : BitVec 32) = t := BitVec.extractLsb'_append_eq_right

theorem headerFields_inj (c c' : BitVec 1) (v : BitVec 15) (t t' : BitVec 16) :
    (c ++ v ++ t : BitVec 32) = c' ++ v ++ t' ↔ c = c' ∧ t = t' := by
  constructor
  · intro h
    have hc := congrArg hdrControl h
    have ht := congrArg hdrType h
    rw [hdrControl_fields, hdrControl_fields] at hc
    rw [hdrType_fields, hdrType_fields] at ht
    exact ⟨hc, ht⟩
  · rintro ⟨rfl, rfl⟩
    rfl

/-! ### Writing a header's fields back -/

theorem controlWord_fields (w : Word) (hc : hdrControl w = 1#1) :
    controlWord (hdrVersion w) (hdrType w) = w := by
  calc controlWord (hdrVersion w) (hdrType w)
      = (1#1 ++ hdrVersion w ++ hdrType w : BitVec 32) := by simp [controlWord, hdrPack_eq]
    _ = w := by rw [← hc, headerWord_eq_fields]

theorem flagLengthWord_fields (w : Word) : flagLengthWord (flFlags w) (flLength w) = w := by
  calc flagLengthWord (flFlags w) (flLength w)
      = (flFlags w ++ flLength w : BitVec 32) := by simp [flagLengthWord, flPack_eq]
    _ = w := flagLength_eq_fields w

theorem controlHeader_fields (w0 w1 : Word) (hc : hdrControl w0 = 1#1) :
    controlHeader (hdrType w0) (hdrVersion w0) (flFlags w1) (flLength w1) = .header w0 w1 := by
  rw [controlHeader, controlWord_fields w0 hc, flagLengthWord_fields]

theorem dataWord_streamId (w : Word) (hc : hdrControl w = 0#1) :
    (w.extractLsb' 0 31).setWidth 32 = w := by
  calc (w.extractLsb' 0 31).setWidth 32
      = (0#1 ++ w.extractLsb' 0 31 : BitVec 32) := BitVec.setWidth_eq_append (by decide)
    _ = w := by rw [← hc, dataWord_eq_fields]

theorem frameCode_of_kindOfCode (t : BitVec 16) (k : FrameKind) (h : kindOfCode t = some k) :
    frameCode k = t := by
  unfold kindOfCode at h
  split_ifs at h <;> cases h <;> symm <;> assumption

theorem encode_decodeHeader (w0 w1 : Word) (hc : hdrControl w0 = 1#1) :
    encode (decodeHeader w0 w1) = .header w0 w1 := by
  refine Eq.trans ?_ (controlHeader_fields w0 w1 hc)
  rcases header_cases w0 with h0 | ⟨-, ⟨k, hk⟩ | ht | hu⟩
  · exact absurd (hc.symm.trans h0) (by decide)
  · rw [decodeHeader_kind w0 w1 k hc hk, encode_decOperation, frameCode_of_kindOfCode _ k hk]
  · rw [decodeHeader_credential w0 w1 hc ht, ht]; rfl
  · rw [decodeHeader_unknown w0 w1 hc hu]; rfl

/-- Settles O5: the operands of the operation are the fields of the header, and encode writes them back
where they came from. -/
theorem encodeAfterDecodeHeader : Obligations.EncodeAfterDecodeHeader := by
  unfold Obligations.EncodeAfterDecodeHeader
  intro w0 w1 i
  refine ⟨fun hc hd => ?_, fun hd => ?_⟩
  · cases hd
    exact encode_decodeHeader w0 w1 hc
  · rw [decode] at hd
    split_ifs at hd with hc
    cases hd
    rw [encode, dataWord_streamId w0 hc]

/-! ### Rows of the opcode table -/

/-- A mask on the 64 bits of a header is a mask on each field. -/
theorem header_mask (w0 w1 x : Word) (c : BitVec 1) (v : BitVec 15) (t : BitVec 16) :
    (w0 ++ w1 : BitVec 64) &&& (c ++ v ++ t ++ x) =
      (hdrControl w0 &&& c) ++ (hdrVersion w0 &&& v) ++ (hdrType w0 &&& t) ++ (w1 &&& x) := by
  rw [← BitVec.and_append, ← BitVec.and_append, ← BitVec.and_append, headerWord_eq_fields]

/-- The row of the data frame: bit 63 alone is looked at. -/
theorem dataRow_iff (w0 w1 : Word) :
    (w0 ++ w1 : BitVec 64) &&& 0x8000000000000000#64 = 0 ↔ hdrControl w0 = 0#1 := by
  have hmask : (w0 ++ w1 : BitVec 64) &&& 0x8000000000000000#64 =
      (hdrControl w0 ++ 0#15 ++ 0#16 : BitVec 32) ++ 0#32 := by
    have hlit : 0x8000000000000000#64 = BitVec.allOnes 1 ++ 0#15 ++ 0#16 ++ 0#32 := by decide
    rw [hlit, header_mask]
    simp only [BitVec.and_allOnes, BitVec.and_zero]
  have hzero : (0 : BitVec 64) = (0#1 ++ 0#15 ++ 0#16 : BitVec 32) ++ 0#32 := by decide
  rw [hmask, hzero, BitVec.append_left_inj, headerFields_inj, and_iff_left rfl]

/-- The match of the row for type code `t`: control bit 1, type `t`, every other bit 0. -/
theorem rowMatch_eq_fields (t : BitVec 16) :
    0x8000000000000000#64 ||| (t.setWidth 64 <<< 32) = (1#1 ++ 0#15 ++ t : BitVec 32) ++ 0#32 := by
  have hconst : 0x8000000000000000#64 = (1#1 ++ 0#15 ++ 0#16 : BitVec 32) ++ 0#32 := by decide
  have hzero : 0#16 = 0#1 ++ 0#15 := by decide
  have hshift : t.setWidth 64 <<< 32 = (0#1 ++ 0#15 ++ t : BitVec 32) ++ 0#32 := by
    rw [BitVec.shiftLeft_eq_concat_of_lt (by decide), ← BitVec.setWidth_eq_extractLsb' (by decide),
      BitVec.setWidth_setWidth_of_le _ (by decide), BitVec.setWidth_eq_append (by decide), ← hzero]
    rfl
  rw [hconst, hshift, BitVec.or_append, BitVec.or_append, BitVec.or_append]
  simp only [BitVec.or_zero, BitVec.zero_or]

theorem rowMatches_iff (t : BitVec 16) (w0 w1 : Word) :
    rowMatches t w0 w1 ↔ hdrControl w0 = 1#1 ∧ hdrType w0 = t := by
  have hmask : (w0 ++ w1 : BitVec 64) &&& 0x8000FFFF00000000#64 =
      (hdrControl w0 ++ 0#15 ++ hdrType w0 : BitVec 32) ++ 0#32 := by
    have hlit : 0x8000FFFF00000000#64 = BitVec.allOnes 1 ++ 0#15 ++ BitVec.allOnes 16 ++ 0#32 := by
      decide
    rw [hlit, header_mask]
    simp only [BitVec.and_allOnes, BitVec.and_zero]
  rw [rowMatches, hmask, rowMatch_eq_fields, BitVec.append_left_inj, headerFields_inj]

/-! ### The operands as shifted words -/

theorem hdrVersion_eq_shift (w : Word) : hdrVersion w = (w >>> 16).setWidth 15 :=
  BitVec.setWidth_ushiftRight_eq_extractLsb.symm

theorem flFlags_eq_shift (w : Word) : flFlags w = (w >>> 24).setWidth 8 :=
  BitVec.setWidth_ushiftRight_eq_extractLsb.symm

/-- Settles O6: a matching row fixes the control bit and the type, and these select the operation. -/
theorem headerSelectsOperation : Obligations.HeaderSelectsOperation := by
  unfold Obligations.HeaderSelectsOperation
  intro w0 w1
  simp only [dataRow_iff, rowMatches_iff, decode, ← hdrVersion_eq_shift, ← flFlags_eq_shift,
    ← flLength_eq_setWidth, Except.ok.injEq]
  refine ⟨fun hc => ?_, fun k ⟨hc, ht⟩ => ?_, fun ⟨hc, ht⟩ => ?_, fun t hu ⟨hc, ht⟩ => ?_⟩
  · rw [decodeHeader_data w0 w1 hc, BitVec.setWidth_eq_extractLsb' (by decide)]
  · exact decodeHeader_kind w0 w1 k hc (by rw [ht, kindOfCode_frameCode])
  · exact decodeHeader_credential w0 w1 hc ht
  · subst ht
    exact decodeHeader_unknown w0 w1 hc hu

end Sys2Proof.Machine
end

section
/-! The word unit (R130 to R139).  A packed word is its fields side by side, so a PACK port places the low
bits of its operands, an UNPACK port gives numbers that stand in the word, and the two undo each other up
to the reserved bits. -/

namespace Sys2Proof.Machine

/-! ### What each port of the word unit does: one answer, nothing else -/

section
variable (s : State) (a b c w : Word)

theorem exec_hdrPack :
    exec (.hdrPack a b c) s = .next { s with resp := s.resp ++ [.word (hdrPack a b c)] } := rfl

theorem exec_hdrUnpack :
    exec (.hdrUnpack w) s =
      .next { s with resp := s.resp ++ [.header (hdrControl w) (hdrVersion w) (hdrType w)] } := rfl

theorem exec_flPack :
    exec (.flPack a b) s = .next { s with resp := s.resp ++ [.word (flPack a b)] } := rfl

theorem exec_flUnpack :
    exec (.flUnpack w) s =
      .next { s with resp := s.resp ++ [.flagLength (flFlags w) (flLength w)] } := rfl

theorem exec_sidPack :
    exec (.sidPack a) s = .next { s with resp := s.resp ++ [.word (sidPack a)] } := rfl

theorem exec_sidUnpack :
    exec (.sidUnpack w) s = .next { s with resp := s.resp ++ [.streamId (sidUnpack w)] } := rfl

theorem exec_priPack :
    exec (.priPack a) s = .next { s with resp := s.resp ++ [.word (priPack a)] } := rfl

theorem exec_priUnpack :
    exec (.priUnpack w) s = .next { s with resp := s.resp ++ [.priority (priUnpack w)] } := rfl

end

/-! ### Packing what was unpacked -/

/-- A field carried in a 32-bit operand comes out of its mask as it was. -/
theorem setWidth_operand {k : Nat} (x : BitVec k) (h : k ≤ 32) : (x.setWidth 32).setWidth k = x := by
  rw [BitVec.setWidth_setWidth_of_le x h, BitVec.setWidth_eq]

theorem hdrPack_fields (w : Word) :
    hdrPack ((hdrControl w).setWidth 32) ((hdrVersion w).setWidth 32) ((hdrType w).setWidth 32) = w := by
  rw [hdrPack_eq, setWidth_operand _ (by decide), setWidth_operand _ (by decide),
    setWidth_operand _ (by decide), headerWord_eq_fields]

theorem flPack_fields (w : Word) :
    flPack ((flFlags w).setWidth 32) ((flLength w).setWidth 32) = w := by
  rw [flPack_eq, setWidth_operand _ (by decide), setWidth_operand _ (by decide), flagLength_eq_fields]

/-- Packing the id of a word is packing the word: R134 and R135 drop the same bit. -/
theorem sidPack_sidUnpack (w : Word) : sidPack ((sidUnpack w).setWidth 32) = sidPack w := by
  rw [sidPack_eq, sidPack_eq, setWidth_operand _ (by decide), sidUnpack,
    BitVec.setWidth_eq_extractLsb' (by decide)]

theorem priorityWord_eq_fields (w : Word) :
    (priUnpack w ++ w.extractLsb' 0 29 : BitVec 32) = w := by
  have hw : priUnpack w ++ w.extractLsb' 0 29 = w.extractLsb' 0 32 :=
    BitVec.extractLsb'_append_extractLsb'_eq_extractLsb' rfl
  rw [hw, BitVec.extractLsb'_eq_self]

theorem priPack_priUnpack (w : Word) :
    priPack ((priUnpack w).setWidth 32) = w &&& 0xE0000000#32 := by
  have hmask : 0xE0000000#32 = BitVec.allOnes 3 ++ 0#29 := by decide
  calc priPack ((priUnpack w).setWidth 32)
      = priUnpack w ++ 0#29 := by rw [priPack_eq, setWidth_operand _ (by decide)]
    _ = (priUnpack w ++ w.extractLsb' 0 29) &&& (BitVec.allOnes 3 ++ 0#29) := by
      rw [BitVec.and_append, BitVec.and_allOnes, BitVec.and_zero]
    _ = w &&& 0xE0000000#32 := by rw [priorityWord_eq_fields, hmask]

/-- Settles O3: a packed word gives each operand's low bits back, and a word is its fields with its
reserved bits, which packing clears. -/
theorem wordsRoundTrip : Obligations.WordsRoundTrip := by
  unfold Obligations.WordsRoundTrip
  refine ⟨fun c v t => ?_, fun f l => ?_, fun n => ?_, fun p => ?_, fun w => ⟨?_, ?_, ?_, ?_⟩⟩
  · simp only [hdrUnpack, hdrControl_pack, hdrVersion_pack, hdrType_pack]
    rw [setWidth_operand c (by decide), setWidth_operand v (by decide), setWidth_operand t (by decide)]
  · simp only [flUnpack, flFlags_pack, flLength_pack]
    rw [setWidth_operand f (by decide), setWidth_operand l (by decide)]
  · rw [sidUnpack_pack, setWidth_operand n (by decide)]
  · rw [priUnpack_pack, setWidth_operand p (by decide)]
  · exact hdrPack_fields w
  · exact flPack_fields w
  · exact sidPack_sidUnpack w
  · exact priPack_priUnpack w

/-! ### The ports -/

/-- Settles O1: each port answers its packed word, which is the operands' low bits side by side. -/
theorem packPortsPlaceTheirFields : Obligations.PackPortsPlaceTheirFields := by
  unfold Obligations.PackPortsPlaceTheirFields
  intro s c v t f l n p
  refine ⟨?_, ?_, ?_, ?_⟩
  · rw [exec_hdrPack, hdrPack_eq]
  · rw [exec_flPack, flPack_eq]
  · rw [exec_sidPack, sidPack_eq]
  · rw [exec_priPack, priPack_eq]

/-- The bits of a word from `k` up to its top, as a number (R8). -/
theorem toNat_extractLsb'_top (w : Word) (k len : Nat) (h : k + len = 32) :
    (w.extractLsb' k len).toNat = w.toNat / 2 ^ k := by
  have hlt : w.toNat / 2 ^ k < 2 ^ len := by
    rw [Nat.div_lt_iff_lt_mul (Nat.two_pow_pos k), ← Nat.pow_add, Nat.add_comm, h]
    exact w.isLt
  rw [BitVec.extractLsb'_toNat, Nat.shiftRight_eq_div_pow, Nat.mod_eq_of_lt hlt]

/-- The low bits of a word, as a number (R8). -/
theorem toNat_extractLsb'_low (w : Word) (len : Nat) :
    (w.extractLsb' 0 len).toNat = w.toNat % 2 ^ len := by
  rw [BitVec.extractLsb'_toNat, Nat.shiftRight_zero]

theorem toNat_hdrVersion (w : Word) : (hdrVersion w).toNat = w.toNat / 2 ^ 16 % 2 ^ 15 := by
  rw [hdrVersion, BitVec.extractLsb'_toNat, Nat.shiftRight_eq_div_pow]

/-- Settles O2: each port answers the bits of its fields, the topmost by division, the lowest by
remainder. -/
theorem unpackPortsReadTheirFields : Obligations.UnpackPortsReadTheirFields := by
  unfold Obligations.UnpackPortsReadTheirFields
  intro s w
  refine ⟨⟨_, _, _, exec_hdrUnpack s w, ?_, ?_, ?_⟩, ⟨_, _, exec_flUnpack s w, ?_, ?_⟩,
    ⟨_, exec_sidUnpack s w, ?_⟩, ⟨_, exec_priUnpack s w, ?_⟩⟩
  · exact toNat_extractLsb'_top w 31 1 rfl
  · exact toNat_hdrVersion w
  · exact toNat_extractLsb'_low w 16
  · exact toNat_extractLsb'_top w 24 8 rfl
  · exact toNat_extractLsb'_low w 24
  · exact toNat_extractLsb'_low w 31
  · exact toNat_extractLsb'_top w 29 3 rfl

end Sys2Proof.Machine
end

section
/-! The name/value block as functions of byte strings: what `decode` takes for a field, a string, a pair and
a block, what it gives when it succeeds (R150, R151, R153), and that it gives back what `encode` wrote
(R154). -/

namespace Sys2Proof.Machine

/-! ### The table (R150, R151) -/

theorem nvLookup_nvInsert_same (t : NvTable) (name value : Bytes) :
    nvLookup (nvInsert t name value) name = some value := by
  induction t with
  | nil => simp [nvInsert, nvLookup]
  | cons x t ih =>
    obtain ⟨k, w⟩ := x
    by_cases hk : k = name
    · simp [nvInsert, nvLookup, hk]
    · simp [nvInsert, nvLookup, hk, ih]

theorem nvLookup_nvInsert_other (t : NvTable) (name value other : Bytes) (h : other ≠ name) :
    nvLookup (nvInsert t name value) other = nvLookup t other := by
  induction t with
  | nil => simp [nvInsert, nvLookup, Ne.symm h]
  | cons x t ih =>
    obtain ⟨k, w⟩ := x
    by_cases hk : k = name
    · simp [nvInsert, nvLookup, hk, Ne.symm h]
    · simp [nvInsert, nvLookup, hk, ih]

/-- The names after an insertion: a repeated name keeps its place, a new one comes last. -/
theorem nvInsert_names (t : NvTable) (name value : Bytes) :
    (nvInsert t name value).map Prod.fst =
      if name ∈ t.map Prod.fst then t.map Prod.fst else t.map Prod.fst ++ [name] := by
  split_ifs with h
  · exact nvInsert_names_old t name value h
  · rw [nvInsert_new t name value h, List.map_append, List.map_singleton]

/-- Settles O39. -/
theorem lastWriteWins : Obligations.LastWriteWins := by
  unfold Obligations.LastWriteWins
  intro tbl name value
  exact ⟨nvLookup_nvInsert_same tbl name value, nvLookup_nvInsert_other tbl name value,
    nvInsert_names tbl name value, nvInsert_unique tbl name value⟩

/-- Settles O50. -/
theorem nvtLoadKeepsTheContract : Obligations.NvtLoadKeepsTheContract := by
  unfold Obligations.NvtLoadKeepsTheContract
  intro s tbl hidle hlegal
  refine ⟨fun hfits => ⟨{ s with nvu := { s.nvu with nvt := tbl, count := BitVec.ofNat 32 tbl.length } },
    ?_, rfl, nvFits_count s.params tbl hlegal hfits⟩, fun hunfit => ?_⟩
  · rw [hostAccess, nvtLoad, if_neg (by simp [hidle]), if_pos hfits]
  · rw [hostAccess, nvtLoad, if_neg (by simp [hidle]), if_neg hunfit]

/-! ### Strings on the wire (R107) -/

/-- A name or value as a block holds it: its length word, then its bytes. -/
def lengthPrefixed (b : Bytes) : Bytes := be32 (BitVec.ofNat 32 b.length) ++ b

@[simp] theorem lengthPrefixed_length (b : Bytes) : (lengthPrefixed b).length = 4 + b.length := by
  simp [lengthPrefixed]

/-- The four bytes of a string of four bytes, read as a word and written again (R10). -/
theorem be32_be32At (p : Bytes) (h : p.length = 4) : be32 (be32At p 0) = p := by
  match p, h with
  | [a, b, c, d], _ =>
    have ha : (a ++ b ++ c ++ d : BitVec 32).extractLsb' 24 8 = a := by
      rw [BitVec.extractLsb'_append_eq_of_le (by decide), BitVec.extractLsb'_append_eq_of_le (by decide),
        BitVec.extractLsb'_append_eq_of_le (by decide)]
      exact BitVec.extractLsb'_eq_self
    have hb : (a ++ b ++ c ++ d : BitVec 32).extractLsb' 16 8 = b := by
      rw [BitVec.extractLsb'_append_eq_of_le (by decide), BitVec.extractLsb'_append_eq_of_le (by decide)]
      exact BitVec.extractLsb'_append_eq_right
    have hc : (a ++ b ++ c ++ d : BitVec 32).extractLsb' 8 8 = c := by
      rw [BitVec.extractLsb'_append_eq_of_le (by decide)]
      exact BitVec.extractLsb'_append_eq_right
    have hd : (a ++ b ++ c ++ d : BitVec 32).extractLsb' 0 8 = d := BitVec.extractLsb'_append_eq_right
    simp only [be32, be32At, List.getD_cons_zero, List.getD_cons_succ, Nat.zero_add, ha, hb, hc, hd]

theorem takeField_eq_ok (point : TruncPoint) (n : Nat) (s : Bytes) (t : Terminator) (w rest : Bytes) :
    takeField point n s t = .ok (w, rest) ↔ w.length = n ∧ s = w ++ rest := by
  unfold takeField
  split_ifs with hn
  · simp only [Except.ok.injEq, Prod.mk.injEq]
    constructor
    · rintro ⟨rfl, rfl⟩
      exact ⟨List.length_take_of_le hn, (List.take_append_drop n s).symm⟩
    · rintro ⟨rfl, rfl⟩
      exact ⟨List.take_left, List.drop_left⟩
  · refine ⟨nofun, ?_⟩
    rintro ⟨rfl, rfl⟩
    simp at hn

/-- A string is taken exactly when its length word, within the capacity, stands before it. -/
theorem takeString_eq_ok (p : Config.Params) (lenPoint point : TruncPoint) (s : Bytes) (t : Terminator)
    (str rest : Bytes) :
    takeString p lenPoint point s t = .ok (str, rest) ↔
      str.length < 2 ^ 32 ∧ str.length ≤ p.nvStrCap ∧ s = lengthPrefixed str ++ rest := by
  constructor
  · intro h
    unfold takeString at h
    split at h
    · cases h
    · next w s1 hw =>
      obtain ⟨hw4, rfl⟩ := (takeField_eq_ok ..).1 hw
      split_ifs at h with hcap
      obtain ⟨hlen, rfl⟩ := (takeField_eq_ok ..).1 h
      have hword : be32 (BitVec.ofNat 32 str.length) = w := by
        rw [hlen, BitVec.ofNat_toNat, BitVec.setWidth_eq, be32_be32At w hw4]
      refine ⟨hlen ▸ BitVec.isLt _, by omega, ?_⟩
      rw [lengthPrefixed, hword, List.append_assoc]
  · rintro ⟨hlt, hcap, rfl⟩
    have hlen : (be32At (be32 (BitVec.ofNat 32 str.length)) 0).toNat = str.length := by
      rw [be32At_be32, BitVec.toNat_ofNat, Nat.mod_eq_of_lt hlt]
    have hword : takeField lenPoint 4 (lengthPrefixed str ++ rest) t =
        .ok (be32 (BitVec.ofNat 32 str.length), str ++ rest) :=
      (takeField_eq_ok ..).2 ⟨be32_length _, by rw [lengthPrefixed, List.append_assoc]⟩
    simp only [takeString, hword, hlen]
    rw [if_neg (by omega)]
    exact (takeField_eq_ok ..).2 ⟨rfl, rfl⟩

/-! ### Pairs that are read -/

theorem pairProblem_eq_none (p : Config.Params) (strict : Bool) (t : NvTable) (name : Bytes) :
    pairProblem p strict t name = none ↔
      (strict = true → name ≠ [] ∧ nvHas t name = false) ∧
        (nvHas t name = false → t.length < p.nvPairCap) := by
  unfold pairProblem
  split_ifs with hempty hold hfull
  · simp [hempty]
  · simp [hold]
  · simp [hfull, Nat.not_lt.2 hfull.2]
  · refine iff_of_true rfl ⟨fun hs => ⟨fun hn => hempty ⟨hs, hn⟩, ?_⟩, fun hnew => ?_⟩
    · exact Bool.eq_false_iff.2 fun hhas => hold ⟨hs, hhas⟩
    · exact Nat.lt_of_not_le fun hle => hfull ⟨hnew, hle⟩

/-- A block of at least one pair: its name, its value, the checks on them, and the pairs after it. -/
theorem takePairs_succ_eq_ok (p : Config.Params) (strict : Bool) (t : Terminator) (n : Nat)
    (nvt : NvTable) (total : Nat) (s : Bytes) (r : NvTable × Nat × Bytes) :
    takePairs p strict t (n + 1) nvt total s = .ok r ↔
      ∃ name s1 value s2,
        takeString p .inNvNameLen .inNvName s t = .ok (name, s1) ∧
        takeString p .inNvValueLen .inNvValue s1 t = .ok (value, s2) ∧
        pairProblem p strict nvt name = none ∧
        takePairs p strict t n (nvInsert nvt name value) (total + 8 + name.length + value.length) s2 =
          .ok r := by
  rw [takePairs]
  constructor
  · intro h
    split at h
    · cases h
    · next name s1 hname =>
      split at h
      · cases h
      · next value s2 hvalue =>
        split at h
        · cases h
        · exact ⟨name, s1, value, s2, hname, hvalue, ‹_›, h⟩
  · rintro ⟨name, s1, value, s2, hname, hvalue, hpair, h⟩
    simp only [hname, hvalue, hpair, h]

/-- A successful decode has read the count word and that many pairs after it. -/
theorem nvDecode_eq_ok (p : Config.Params) (strict : Bool) (s : Bytes) (t : Terminator)
    (r : NvTable × Nat × Bytes) :
    nvDecode p strict s t = .ok r ↔
      4 ≤ s.length ∧ takePairs p strict t (be32At s 0).toNat [] 4 (s.drop 4) = .ok r := by
  by_cases h : 4 ≤ s.length
  · simp [nvDecode, takeField, h, be32At_take]
  · simp [nvDecode, takeField, h]

/-- The pairs taken are a piece of the input, counted into the total, and no longer than strings within
the capacity make it. -/
theorem takePairs_consumes {p : Config.Params} {strict : Bool} {t : Terminator} {n : Nat}
    {nvt tbl : NvTable} {total total' : Nat} {s rest : Bytes}
    (h : takePairs p strict t n nvt total s = .ok (tbl, total', rest)) :
    ∃ taken, s = taken ++ rest ∧ total' = total + taken.length ∧
      taken.length ≤ n * (8 + 2 * p.nvStrCap) := by
  induction n generalizing nvt total s with
  | zero =>
    cases h
    exact ⟨[], rfl, rfl, by simp⟩
  | succ n ih =>
    obtain ⟨name, s1, value, s2, hname, hvalue, -, hmore⟩ := (takePairs_succ_eq_ok ..).1 h
    obtain ⟨-, hnameCap, rfl⟩ := (takeString_eq_ok ..).1 hname
    obtain ⟨-, hvalueCap, rfl⟩ := (takeString_eq_ok ..).1 hvalue
    obtain ⟨taken, rfl, rfl, htaken⟩ := ih hmore
    refine ⟨lengthPrefixed name ++ lengthPrefixed value ++ taken, by simp, ?_, ?_⟩
    · simp only [List.length_append, lengthPrefixed_length]
      omega
    · rw [Nat.succ_mul]
      simp only [List.length_append, lengthPrefixed_length]
      omega

/-- Pairs read into a table that fits make a table that fits. -/
theorem takePairs_fits {p : Config.Params} {strict : Bool} {t : Terminator} {n : Nat}
    {nvt tbl : NvTable} {total total' : Nat} {s rest : Bytes}
    (h : takePairs p strict t n nvt total s = .ok (tbl, total', rest)) (hfits : nvFits p nvt) :
    nvFits p tbl ∧ tbl.length ≤ nvt.length + n := by
  induction n generalizing nvt total s with
  | zero =>
    cases h
    exact ⟨hfits, Nat.le_refl _⟩
  | succ n ih =>
    obtain ⟨name, s1, value, s2, hname, hvalue, hpair, hmore⟩ := (takePairs_succ_eq_ok ..).1 h
    obtain ⟨-, hnameCap, -⟩ := (takeString_eq_ok ..).1 hname
    obtain ⟨-, hvalueCap, -⟩ := (takeString_eq_ok ..).1 hvalue
    obtain ⟨-, hroom⟩ := (pairProblem_eq_none ..).1 hpair
    obtain ⟨htbl, hlen⟩ := ih hmore (nvInsert_fits p nvt name value hfits hnameCap hvalueCap hroom)
    have hinsert : (nvInsert nvt name value).length ≤ nvt.length + 1 := by
      rw [nvInsert_length]
      split_ifs <;> omega
    exact ⟨htbl, by omega⟩

theorem nvFits_nil (p : Config.Params) : nvFits p [] := by simp [nvFits, nvUnique]

/-- Settles O40. -/
theorem decodedTableFits : Obligations.DecodedTableFits := by
  unfold Obligations.DecodedTableFits
  intro p strict s t tbl total rest h
  obtain ⟨h4, hpairs⟩ := (nvDecode_eq_ok ..).1 h
  obtain ⟨hfits, hlen⟩ := takePairs_fits hpairs (nvFits_nil p)
  obtain ⟨taken, hs, rfl, -⟩ := takePairs_consumes hpairs
  have hsize : s.length = 4 + taken.length + rest.length := by
    have := congrArg List.length hs
    simp only [List.length_drop, List.length_append] at this
    omega
  refine ⟨hfits, ?_, by omega, by simpa using hlen⟩
  rw [← List.drop_drop, hs, List.drop_left]

/-! ### Strict decoding (R153) -/

/-- What the strict checks let through the plain decoding reads alike: every name is new and not empty. -/
theorem takePairs_strict {p : Config.Params} {t : Terminator} {n : Nat} {nvt tbl : NvTable}
    {total total' : Nat} {s rest : Bytes}
    (h : takePairs p true t n nvt total s = .ok (tbl, total', rest)) (hne : ∀ x ∈ nvt, x.1 ≠ []) :
    takePairs p false t n nvt total s = .ok (tbl, total', rest) ∧ (∀ x ∈ tbl, x.1 ≠ []) ∧
      tbl.length = nvt.length + n := by
  induction n generalizing nvt total s with
  | zero =>
    cases h
    exact ⟨rfl, hne, rfl⟩
  | succ n ih =>
    obtain ⟨name, s1, value, s2, hname, hvalue, hpair, hmore⟩ := (takePairs_succ_eq_ok ..).1 h
    obtain ⟨hstrict, hroom⟩ := (pairProblem_eq_none ..).1 hpair
    obtain ⟨hnonempty, hnew⟩ := hstrict rfl
    have hne' : ∀ x ∈ nvInsert nvt name value, x.1 ≠ [] := fun x hx => by
      rcases nvInsert_mem nvt name value x hx with rfl | hold
      · exact hnonempty
      · exact hne x hold
    obtain ⟨hplain, htbl, hlen⟩ := ih hmore hne'
    have hproblem : pairProblem p false nvt name = none :=
      (pairProblem_eq_none ..).2 ⟨nofun, hroom⟩
    refine ⟨(takePairs_succ_eq_ok ..).2 ⟨name, s1, value, s2, hname, hvalue, hproblem, hplain⟩, htbl, ?_⟩
    rw [hlen, nvInsert_length, if_neg (by simp [hnew])]
    omega

/-- Settles O41. -/
theorem strictDecodingRefinesPlain : Obligations.StrictDecodingRefinesPlain := by
  unfold Obligations.StrictDecodingRefinesPlain
  intro p s t tbl total rest h
  obtain ⟨h4, hpairs⟩ := (nvDecode_eq_ok ..).1 h
  obtain ⟨hplain, hnames, hlen⟩ := takePairs_strict hpairs (List.forall_mem_nil _)
  exact ⟨(nvDecode_eq_ok ..).2 ⟨h4, hplain⟩, hnames, by simpa using hlen⟩

/-! ### Decoding what was encoded (R154) -/

theorem pairPieces_flatten_cons (name value : Bytes) (tbl : NvTable) :
    (pairPieces ((name, value) :: tbl)).flatten =
      lengthPrefixed name ++ (lengthPrefixed value ++ (pairPieces tbl).flatten) := by
  simp [pairPieces, lengthPrefixed]

/-- A string within the capacity is read back from its wire form; the capacity keeps its length within the
length word (R7). -/
theorem takeString_lengthPrefixed {p : Config.Params} (lenPoint point : TruncPoint) {str : Bytes}
    (rest : Bytes) (t : Terminator) (hp : p.legal) (h : str.length ≤ p.nvStrCap) :
    takeString p lenPoint point (lengthPrefixed str ++ rest) t = .ok (str, rest) := by
  obtain ⟨-, -, hcap⟩ := hp
  exact (takeString_eq_ok ..).2 ⟨by omega, h, rfl⟩

/-- The pairs of a table, read after those of `nvt`, are appended to them one by one: each name is new. -/
theorem takePairs_pairPieces (p : Config.Params) (strict : Bool) (t : Terminator) (nvt tbl : NvTable)
    (total : Nat) (rest : Bytes) (hp : p.legal) (hfits : nvFits p (nvt ++ tbl))
    (hne : strict = true → ∀ x ∈ tbl, x.1 ≠ []) :
    takePairs p strict t tbl.length nvt total ((pairPieces tbl).flatten ++ rest) =
      .ok (nvt ++ tbl, total + (pairPieces tbl).flatten.length, rest) := by
  induction tbl generalizing nvt total with
  | nil => simp [takePairs, pairPieces]
  | cons x tbl ih =>
    obtain ⟨name, value⟩ := x
    have hnew : name ∉ nvt.map Prod.fst := fun hmem => by
      obtain ⟨hnodup, -⟩ := hfits
      rw [nvUnique, List.map_append, List.nodup_append] at hnodup
      obtain ⟨-, -, hdisjoint⟩ := hnodup
      exact hdisjoint name hmem name (by simp) rfl
    have ⟨_, hcount, hstr⟩ := hfits
    obtain ⟨hname, hvalue⟩ := hstr (name, value) (by simp)
    have hroom : nvt.length < p.nvPairCap := by
      simp only [List.length_append, List.length_cons] at hcount
      omega
    have happend : nvInsert nvt name value ++ tbl = nvt ++ (name, value) :: tbl := by
      rw [nvInsert_new nvt name value hnew, List.append_assoc, List.singleton_append]
    have hmore := ih (nvInsert nvt name value) (total + 8 + name.length + value.length)
      (happend ▸ hfits) (fun hs x hx => hne hs x (List.mem_cons_of_mem _ hx))
    rw [pairPieces_flatten_cons, List.append_assoc, List.append_assoc, List.length_cons]
    refine (takePairs_succ_eq_ok ..).2 ⟨name, _, value, _,
      takeString_lengthPrefixed _ _ _ _ hp hname, takeString_lengthPrefixed _ _ _ _ hp hvalue, ?_, ?_⟩
    · exact (pairProblem_eq_none ..).2 ⟨fun hs => ⟨hne hs (name, value) (by simp),
        (nvHas_false_iff ..).2 hnew⟩, fun _ => hroom⟩
    · rw [hmore, happend]
      simp only [List.length_append, lengthPrefixed_length, Except.ok.injEq, Prod.mk.injEq, true_and,
        and_true]
      omega

/-- Settles O38: the count word gives the number of pairs, and the pairs are read into the empty table. -/
theorem nameValueRoundTrip : Obligations.NameValueRoundTrip := by
  unfold Obligations.NameValueRoundTrip
  intro p strict tbl rest t hp hfits hne
  have hpairs := takePairs_pairPieces p strict t [] tbl 4 rest hp hfits hne
  rw [nvDecode_eq_ok, nvEncode, List.append_assoc, be32At_be32_append, nvFits_count p tbl hp hfits,
    List.drop_left' (be32_length _), hpairs]
  simp

end Sys2Proof.Machine
end

section
/-! The name/value unit runs `decode` and `encode`: an NV.DEC over a finite input and an NV.ENC, followed turn
by turn from their acceptance to their end (R151, R152). -/

namespace Sys2Proof.Machine

/-! ### The turns of an NV.DEC over a finite input -/

/-- A finite input at a known position, the source having `k` bytes to skip of those that come later. -/
abbrev inputOf (b : Bytes) (t : Terminator) (k : Nat) : Source := ⟨b, tailOf t, k, false⟩

/-- A read over a finite input is always answered: an error has ended the NV.DEC, or the bytes have been
used. -/
theorem nvRead_takeField (p : Config.Params) (n : Nat) (point : TruncPoint)
    (f : Bytes → Nvu → Except OpError Nvu) (x : Nvu) (b : Bytes) (t : Terminator) (k : Nat) :
    (∃ e src, takeField point n b t = .error e ∧
      nvRead p n point f (x, inputOf b t k) = some (nvRaiseDec p e x, src)) ∨
    (∃ w rest e src, takeField point n b t = .ok (w, rest) ∧ f w x = .error e ∧
      nvRead p n point f (x, inputOf b t k) = some (nvRaiseDec p e x, src)) ∨
    (∃ w rest y, takeField point n b t = .ok (w, rest) ∧ f w x = .ok y ∧
      nvRead p n point f (x, inputOf b t k) = some (y, inputOf rest t k)) := by
  have htaken : n ≤ b.length → takeField point n b t = .ok (b.take n, b.drop n) := fun h => if_pos h
  have hshort : b.length < n → takeField point n b t = .error (shortInput point t) := fun h =>
    if_neg (Nat.not_le.2 h)
  rcases nvRead_cases p n point f (x, inputOf b t k) with
    ⟨y, hn, hf, e⟩ | ⟨c, hn, hf, e⟩ | ⟨-, htail, -⟩ | ⟨hn, htail, e⟩ | ⟨c, hn, htail, e⟩
  · exact .inr (.inr ⟨_, _, y, htaken hn, hf, e⟩)
  · exact .inr (.inl ⟨_, _, c, _, htaken hn, hf, e⟩)
  · cases t <;> cases htail
  · cases t <;> cases htail
    exact .inl ⟨_, _, hshort hn, e⟩
  · cases t <;> cases htail
    exact .inl ⟨_, _, hshort hn, e⟩

/-- A unit that has ended its NV.DEC with an error has no more turns. -/
theorem runTurns_nvRaiseDec (p q : Config.Params) (n : Nat) (e : OpError) (x : Nvu) (src : Source) :
    runTurns (nvDecTurn q) n (nvRaiseDec p e x, src) = (nvRaiseDec p e x, src) :=
  runTurns_none _ _ _ rfl

theorem runTurns_nvFinishDec (p : Config.Params) (n : Nat) (x : Nvu) (src : Source) :
    runTurns (nvDecTurn p) n (nvFinishDec x, src) = (nvFinishDec x, src) :=
  runTurns_none _ _ _ rfl

/-! ### The turns of a pair -/

/-- The unit at a step of its command.  The end of an NV.DEC and the next pair forget the step. -/
def atPhase (ph : NvPhase) (x : Nvu) : Nvu := { x with phase := ph }

/-- The unit once it has taken a pair into its table (R151). -/
def withPair (name value : Bytes) (x : Nvu) : Nvu :=
  { x with nvt := nvInsert x.nvt name value, total := x.total + 8 + name.length + value.length }

theorem nvNextPair_succ (n : Nat) (x : Nvu) : nvNextPair (n + 1) x = atPhase (.decNameLen n) x := rfl

theorem nvNextPair_atPhase (n : Nat) (ph : NvPhase) (x : Nvu) :
    nvNextPair n (atPhase ph x) = nvNextPair n x := by cases n <;> rfl

theorem nvEndPair_atPhase (p : Config.Params) (more : Nat) (name value : Bytes) (ph : NvPhase) (x : Nvu) :
    nvEndPair p more name value (atPhase ph x) =
      match pairProblem p x.strict x.nvt name with
      | some e => .error e
      | none => .ok (nvNextPair more (withPair name value x)) := by
  rw [← nvNextPair_atPhase more ph]
  exact nvEndPair_eq p more name value (atPhase ph x)

/-- Two turns read a string: its length word in phase `ph`, which leads to phase `next`, and then its bytes,
which `f` uses.  They are `takeString` of the input. -/
theorem runTurns_string (p : Config.Params) (lenPoint point : TruncPoint) (ph : NvPhase)
    (next : Nat → NvPhase) (f : Bytes → Nvu → Except OpError Nvu) (x : Nvu) (b : Bytes) (t : Terminator)
    (k m : Nat)
    (hword : ∀ src, nvDecTurn p (atPhase ph x, src) =
      nvRead p 4 lenPoint (fun w y => nvCheckLength p (be32At w 0).toNat (next (be32At w 0).toNat) y)
        (atPhase ph x, src))
    (hbytes : ∀ l src, nvDecTurn p (atPhase (next l) x, src) =
      nvRead p l point f (atPhase (next l) x, src)) :
    (∃ e src, takeString p lenPoint point b t = .error e ∧
      runTurns (nvDecTurn p) (m + 2) (atPhase ph x, inputOf b t k) = (nvRaiseDec p e x, src)) ∨
    (∃ str rest l e src, takeString p lenPoint point b t = .ok (str, rest) ∧
      f str (atPhase (next l) x) = .error e ∧
      runTurns (nvDecTurn p) (m + 2) (atPhase ph x, inputOf b t k) = (nvRaiseDec p e x, src)) ∨
    (∃ str rest l y, takeString p lenPoint point b t = .ok (str, rest) ∧
      f str (atPhase (next l) x) = .ok y ∧
      runTurns (nvDecTurn p) (m + 2) (atPhase ph x, inputOf b t k) =
        runTurns (nvDecTurn p) m (y, inputOf rest t k)) := by
  rcases nvRead_takeField p 4 lenPoint _ (atPhase ph x) b t k with
    ⟨e, src, htake, hread⟩ | ⟨w, rest, e, src, htake, hcheck, hread⟩ | ⟨w, rest, y, htake, hcheck, hread⟩
  all_goals rw [runTurns_some _ _ _ _ ((hword _).trans hread)]
  · rw [runTurns_nvRaiseDec]
    exact .inl ⟨e, src, by rw [takeString, htake], rfl⟩
  · rw [runTurns_nvRaiseDec]
    rw [nvCheckLength_eq] at hcheck
    split_ifs at hcheck with hcap
    cases hcheck
    exact .inl ⟨_, src, by simp only [takeString, htake, if_pos hcap], rfl⟩
  · rw [nvCheckLength_eq] at hcheck
    split_ifs at hcheck with hcap
    cases hcheck
    have hstring : takeString p lenPoint point b t = takeField point (be32At w 0).toNat rest t := by
      simp only [takeString, htake, if_neg hcap]
    rw [hstring]
    rcases nvRead_takeField p (be32At w 0).toNat point f (atPhase (next (be32At w 0).toNat) x) rest t k with
      ⟨e, src, htake, hread⟩ | ⟨str, rest', e, src, htake, hf, hread⟩ | ⟨str, rest', y, htake, hf, hread⟩
    · exact .inl ⟨e, src, htake, (runTurns_some _ _ _ _ ((hbytes _ _).trans hread)).trans
        (runTurns_nvRaiseDec ..)⟩
    · exact .inr (.inl ⟨str, rest', _, e, src, htake, hf,
        (runTurns_some _ _ _ _ ((hbytes _ _).trans hread)).trans (runTurns_nvRaiseDec ..)⟩)
    · exact .inr (.inr ⟨str, rest', _, y, htake, hf,
        runTurns_some _ _ _ _ ((hbytes _ _).trans hread)⟩)

/-- The two turns of a name. -/
theorem runTurns_name (p : Config.Params) (n : Nat) (x : Nvu) (b : Bytes) (t : Terminator) (k m : Nat) :
    (∃ e src, takeString p .inNvNameLen .inNvName b t = .error e ∧
      runTurns (nvDecTurn p) (m + 2) (atPhase (.decNameLen n) x, inputOf b t k) =
        (nvRaiseDec p e x, src)) ∨
    (∃ name rest, takeString p .inNvNameLen .inNvName b t = .ok (name, rest) ∧
      runTurns (nvDecTurn p) (m + 2) (atPhase (.decNameLen n) x, inputOf b t k) =
        runTurns (nvDecTurn p) m (atPhase (.decValueLen n name) x, inputOf rest t k)) := by
  rcases runTurns_string p .inNvNameLen .inNvName (.decNameLen n) (.decName n)
      (fun w y => .ok (atPhase (.decValueLen n w) y)) x b t k m (fun _ => rfl) (fun _ _ => rfl) with
    h | ⟨_, _, _, _, _, -, hf, -⟩ | ⟨name, rest, _, y, htake, hf, hrun⟩
  · exact .inl h
  · cases hf
  · cases hf
    exact .inr ⟨name, rest, htake, hrun⟩

/-- The two turns of a value, and what is done with the pair that it completes. -/
theorem runTurns_value (p : Config.Params) (n : Nat) (name : Bytes) (x : Nvu) (b : Bytes) (t : Terminator)
    (k m : Nat) :
    (∃ e src, takeString p .inNvValueLen .inNvValue b t = .error e ∧
      runTurns (nvDecTurn p) (m + 2) (atPhase (.decValueLen n name) x, inputOf b t k) =
        (nvRaiseDec p e x, src)) ∨
    (∃ value rest e src, takeString p .inNvValueLen .inNvValue b t = .ok (value, rest) ∧
      pairProblem p x.strict x.nvt name = some e ∧
      runTurns (nvDecTurn p) (m + 2) (atPhase (.decValueLen n name) x, inputOf b t k) =
        (nvRaiseDec p e x, src)) ∨
    (∃ value rest, takeString p .inNvValueLen .inNvValue b t = .ok (value, rest) ∧
      pairProblem p x.strict x.nvt name = none ∧
      runTurns (nvDecTurn p) (m + 2) (atPhase (.decValueLen n name) x, inputOf b t k) =
        runTurns (nvDecTurn p) m (nvNextPair n (withPair name value x), inputOf rest t k)) := by
  rcases runTurns_string p .inNvValueLen .inNvValue (.decValueLen n name) (.decValue n name)
      (fun w y => nvEndPair p n name w y) x b t k m (fun _ => rfl) (fun _ _ => rfl) with
    h | ⟨value, rest, _, e, src, htake, hend, hrun⟩ | ⟨value, rest, _, y, htake, hend, hrun⟩
  · exact .inl h
  · rw [nvEndPair_atPhase] at hend
    split at hend <;> cases hend
    exact .inr (.inl ⟨value, rest, _, src, htake, ‹_›, hrun⟩)
  · rw [nvEndPair_atPhase] at hend
    split at hend <;> cases hend
    exact .inr (.inr ⟨value, rest, htake, ‹_›, hrun⟩)

/-! ### A whole NV.DEC -/

/-- The unit `x` has ended its NV.DEC as `res` says: with its table, its count of bytes and what it leaves of
the input, or with its error. -/
def NvDecEnds (p : Config.Params) (x : Nvu) (t : Terminator) (k : Nat) :
    Except OpError (NvTable × Nat × Bytes) → Nvu × Source → Prop
  | .ok (tbl, total, rest), r =>
    r = (nvFinishDec { x with nvt := tbl, total := total }, inputOf rest t k)
  | .error e, r => ∃ y src, r = (nvRaiseDec p e y, src) ∧ y.dir = x.dir

/-- Four turns for each pair still to be read do what `takePairs` says (R151, R302). -/
theorem runTurns_pairs (p : Config.Params) (t : Terminator) (k n m : Nat) (x : Nvu) (b : Bytes) :
    NvDecEnds p x t k (takePairs p x.strict t n x.nvt x.total b)
      (runTurns (nvDecTurn p) (m + 4 * n) (nvNextPair n x, inputOf b t k)) := by
  induction n generalizing x b with
  | zero => exact runTurns_nvFinishDec p _ x _
  | succ n ih =>
    rw [show m + 4 * (n + 1) = m + 4 * n + 2 + 2 by omega, takePairs, nvNextPair_succ]
    rcases runTurns_name p n x b t k (m + 4 * n + 2) with
      ⟨e, src, hname, hrun⟩ | ⟨name, s1, hname, hrun⟩
    · rw [hname]
      exact ⟨x, src, hrun, rfl⟩
    · rw [hrun]
      rcases runTurns_value p n name x s1 t k (m + 4 * n) with
        ⟨e, src, hvalue, hrun⟩ | ⟨value, s2, e, src, hvalue, hpair, hrun⟩ | ⟨value, s2, hvalue, hpair, hrun⟩
      · simp only [hname, hvalue]
        exact ⟨x, src, hrun, rfl⟩
      · simp only [hname, hvalue, hpair]
        exact ⟨x, src, hrun, rfl⟩
      · simp only [hname, hvalue, hpair, hrun]
        exact ih (withPair name value x) s2

/-- The first turn of an accepted NV.DEC reads the count word. -/
theorem nvDecTurn_accepted (p : Config.Params) (strict : Bool) (x : Nvu) (src : Source) :
    nvDecTurn p (nvAcceptDec strict x, src) =
      nvRead p 4 .inNvCount (fun w y => .ok (nvNextPair (be32At w 0).toNat { y with total := 4 }))
        (nvAcceptDec strict x, src) := rfl

/-- At once a command has turns for every pair that a count word can announce (R302). -/
theorem nvSteps_room (count : Word) : ∃ m, nvSteps = m + 4 * count.toNat + 1 := by
  have := count.isLt
  exact ⟨nvSteps - (4 * count.toNat + 1), by rw [nvSteps]; omega⟩

/-- An NV.DEC with turns for all the pairs that its count word can announce (R302) does what `decode` says. -/
theorem nvDec_atOnce (p : Config.Params) (strict : Bool) (x : Nvu) (b : Bytes) (t : Terminator) (k : Nat) :
    NvDecEnds p (nvAcceptDec strict x) t k (nvDecode p strict b t)
      (nvDec p strict .atOnce (x, inputOf b t k)) := by
  have hrun : nvDec p strict .atOnce (x, inputOf b t k) =
      runTurns (nvDecTurn p) nvSteps (nvAcceptDec strict x, inputOf b t k) := by
    rw [nvDec, findSource_known _ _ _ rfl]
  rw [hrun, nvDecode]
  rcases nvRead_takeField p 4 .inNvCount
      (fun w y => .ok (nvNextPair (be32At w 0).toNat { y with total := 4 })) (nvAcceptDec strict x) b t k with
    ⟨e, src, htake, hread⟩ | ⟨_, _, _, _, -, hf, -⟩ | ⟨w, rest, y, htake, hf, hread⟩
  · obtain ⟨m, hsteps⟩ := nvSteps_room 0
    rw [htake, hsteps, runTurns_some _ _ _ _ ((nvDecTurn_accepted ..).trans hread), runTurns_nvRaiseDec]
    exact ⟨_, src, rfl, rfl⟩
  · cases hf
  · cases hf
    obtain ⟨m, hsteps⟩ := nvSteps_room (be32At w 0)
    rw [htake, hsteps, runTurns_some _ _ _ _ ((nvDecTurn_accepted ..).trans hread)]
    exact runTurns_pairs p t k (be32At w 0).toNat m { nvAcceptDec strict x with total := 4 } rest

/-- NV_BYTES has room for the bytes of any block (R37). -/
theorem nvBytes_room (p : Config.Params) (n l : Nat) (hp : p.legal) (hn : n < 2 ^ 32)
    (hl : l ≤ n * (8 + 2 * p.nvStrCap)) : (BitVec.ofNat 66 (4 + l)).toNat = 4 + l := by
  obtain ⟨-, -, hcap⟩ := hp
  have hmul : n * (8 + 2 * p.nvStrCap) ≤ 4294967295 * (8 + 2 * 4294967295) :=
    Nat.mul_le_mul (by omega) (by omega)
  rw [BitVec.toNat_ofNat]
  exact Nat.mod_eq_of_lt (by omega)

/-- Settles O36: the NV.DEC runs to the end that `decode` gives; NV_COUNT and NV_BYTES have room for its
numbers. -/
theorem nvDecIsTheDecodeFunction : Obligations.NvDecIsTheDecodeFunction := by
  unfold Obligations.NvDecIsTheDecodeFunction
  intro s t hacc hpace hsrc hp
  obtain ⟨hreset, hidle⟩ := hacc
  obtain ⟨htail, hlost⟩ := hsrc
  have hinput : s.nsrc = inputOf s.nsrc.bytes t s.nsrc.skip := by
    rw [inputOf, ← htail, ← hlost]
  have hexec : exec .nvDec s = .next (onNvIn s (nvDec s.params (s.ctrl == 1) .atOnce)) := by
    rw [exec_nvDec]
    simp [onNvIn, nvDecCommand, hreset, hidle, hpace]
  refine ⟨_, hexec, rfl, ?_⟩
  have hends := nvDec_atOnce s.params (s.ctrl == 1) s.nvu s.nsrc.bytes t s.nsrc.skip
  rw [← hinput] at hends
  simp only [onNvIn]
  cases hdec : nvDecode s.params (s.ctrl == 1) s.nsrc.bytes t with
  | error e =>
    rw [hdec] at hends
    obtain ⟨y, src, hrun, hdir⟩ := hends
    rw [hrun]
    exact ⟨hdir, rfl⟩
  | ok r =>
    obtain ⟨tbl, total, rest⟩ := r
    rw [hdec] at hends
    obtain ⟨h4, hpairs⟩ := (nvDecode_eq_ok ..).1 hdec
    obtain ⟨hfits, -⟩ := takePairs_fits hpairs (nvFits_nil _)
    obtain ⟨taken, -, rfl, htaken⟩ := takePairs_consumes hpairs
    have hrun : nvDec s.params (s.ctrl == 1) .atOnce (s.nvu, s.nsrc) = _ := hends
    rw [hrun]
    refine ⟨rfl, rfl, rfl, nvFits_count s.params tbl hp hfits,
      nvBytes_room s.params _ _ hp (BitVec.isLt _) htaken, ?_⟩
    rw [inputOf, ← htail, ← hlost]

/-! ### A whole NV.ENC -/

/-- An accepting sink takes the byte strings one by one, and NV.ENC ends. -/
theorem runTurns_accepts (bs : List Bytes) (m : Nat) (x : Nvu) (snk : Sink) (h : snk.mode = .accepts) :
    runTurns nvEncTurn (m + bs.length) (nvNextPiece bs x, snk) =
      (nvFinishEnc x, { snk with accepted := snk.accepted ++ bs.flatten }) := by
  induction bs generalizing x snk with
  | nil =>
    rw [List.flatten_nil, List.append_nil]
    exact runTurns_none _ _ _ rfl
  | cons b bs ih =>
    have hturn : nvEncTurn (atPhase (.enc (b :: bs)) x, snk) =
        some (nvNextPiece bs (atPhase (.enc (b :: bs)) x),
          { snk with accepted := snk.accepted ++ b }) := by
      rw [nvEncTurn_enc _ _ b bs rfl, sinkWrite_accepts _ _ _ _ h]
    have hmore := ih (atPhase (.enc (b :: bs)) x) { snk with accepted := snk.accepted ++ b } h
    rw [List.append_assoc, ← List.flatten_cons] at hmore
    exact (runTurns_some _ _ _ _ hturn).trans hmore

theorem nvNextPiece_eq_self (b : Bytes) (bs : List Bytes) (x : Nvu) (h : x.phase = .enc (b :: bs)) :
    nvNextPiece (b :: bs) x = x := by
  rw [nvNextPiece, ← h]

/-- A sink that fails does so at the first byte string that is not empty. -/
theorem runTurns_fails (b : Bytes) (bs : List Bytes) (n : Nat) (x : Nvu) (snk : Sink) (e : IoCode)
    (hb : b ≠ []) (hph : x.phase = .enc (b :: bs)) (h : snk.mode = .fails e) :
    runTurns nvEncTurn (n + 1) (x, snk) =
      (nvRaiseEnc (.ioError e) x, sinkSome .nsnk snk b x.free) := by
  have hturn : nvEncTurn (x, snk) =
      some (nvRaiseEnc (.ioError e) x, sinkSome .nsnk snk b x.free) := by
    simp [nvEncTurn_enc x snk b bs hph, sinkWrite, hb, h]
  rw [runTurns_some _ _ _ _ hturn]
  exact runTurns_none _ _ _ rfl

/-- A sink that does not answer keeps the unit at the first byte string that is not empty (R300). -/
theorem runTurns_silent (b : Bytes) (bs : List Bytes) (n : Nat) (x : Nvu) (snk : Sink)
    (hb : b ≠ []) (hph : x.phase = .enc (b :: bs)) (h : snk.mode = .silent) :
    runTurns nvEncTurn n (x, snk) = (x, snk) :=
  runTurns_none _ _ _ (by simp [nvEncTurn_enc x snk b bs hph, sinkWrite, hb, h])

theorem pairPieces_length (tbl : NvTable) : (pairPieces tbl).length = 4 * tbl.length := by
  induction tbl with
  | nil => rfl
  | cons x tbl ih =>
    simp only [pairPieces, List.length_cons, ih]
    omega

/-- The size of a block counts the bytes that `encode` gives (R107, R156). -/
theorem blockSize_eq (tbl : NvTable) : blockSize tbl = 4 + (pairPieces tbl).flatten.length := by
  induction tbl with
  | nil => rfl
  | cons x tbl ih =>
    rw [blockSize, ih, pairPieces_flatten_cons]
    simp only [List.length_append, lengthPrefixed_length]
    omega

/-- A table whose strings are within the capacity takes no more bytes than these allow. -/
theorem pairPieces_size (cap : Nat) (tbl : NvTable)
    (h : ∀ x ∈ tbl, x.1.length ≤ cap ∧ x.2.length ≤ cap) :
    (pairPieces tbl).flatten.length ≤ tbl.length * (8 + 2 * cap) := by
  induction tbl with
  | nil => simp [pairPieces]
  | cons x tbl ih =>
    obtain ⟨hx, htbl⟩ := List.forall_mem_cons.1 h
    obtain ⟨hname, hvalue⟩ := hx
    have hmore := ih htbl
    rw [pairPieces_flatten_cons, List.length_cons, Nat.succ_mul]
    simp only [List.length_append, lengthPrefixed_length]
    omega

theorem nvEncode_length (tbl : NvTable) : (nvEncode tbl).length = 4 + (pairPieces tbl).flatten.length := by
  rw [nvEncode, List.length_append, be32_length]

/-- An accepted NV.ENC of a counted table has the bytes of `encode` to hand over, the count word first. -/
theorem nvAcceptEnc_pieces (x : Nvu) (h : x.count.toNat = x.nvt.length) :
    (nvAcceptEnc x).phase = .enc (be32 x.count :: pairPieces x.nvt) ∧
      (be32 x.count :: pairPieces x.nvt).flatten = nvEncode x.nvt ∧
      (nvAcceptEnc x).total = (nvEncode x.nvt).length := by
  refine ⟨?_, ?_, ?_⟩
  · rw [nvAcceptEnc_phase, nvOut_eq_nvt x h]
  · rw [List.flatten_cons, nvEncode, ← h, BitVec.ofNat_toNat, BitVec.setWidth_eq]
  · rw [nvAcceptEnc_total, nvOut_eq_nvt x h, blockSize_eq, nvEncode_length]

/-- Settles O37: the sink takes every byte string, or stops the NV.ENC at the count word. -/
theorem nvEncIsTheEncodeFunction : Obligations.NvEncIsTheEncodeFunction := by
  unfold Obligations.NvEncIsTheEncodeFunction
  intro s hacc hpace hp hfits hcount
  obtain ⟨hreset, hidle⟩ := hacc
  have hexec : exec .nvEnc s = .next (onNvOut s (nvEnc .atOnce)) := by
    rw [exec_nvEnc]
    simp [onNvOut, nvEncCommand, hreset, hidle, hpace]
  refine ⟨_, hexec, rfl, ?_⟩
  obtain ⟨hphase, hpieces, htotal⟩ := nvAcceptEnc_pieces s.nvu hcount
  have hbytes : (nvFinishEnc (nvAcceptEnc s.nvu)).bytes.toNat = (nvEncode s.nvu.nvt).length := by
    obtain ⟨-, -, hstr⟩ := hfits
    rw [nvFinishEnc_bytes, htotal, nvEncode_length]
    exact nvBytes_room s.params _ _ hp (hcount ▸ BitVec.isLt _) (pairPieces_size _ _ hstr)
  obtain ⟨m, hsteps⟩ := nvSteps_room s.nvu.count
  simp only [onNvOut, nvEnc, hsteps]
  cases hmode : s.nsnk.mode with
  | accepts =>
    have hrun := runTurns_accepts (be32 s.nvu.count :: pairPieces s.nvu.nvt) m (nvAcceptEnc s.nvu) s.nsnk
      hmode
    rw [List.length_cons, pairPieces_length, ← hcount, ← Nat.add_assoc, nvNextPiece_eq_self _ _ _ hphase,
      hpieces] at hrun
    rw [hrun]
    exact ⟨rfl, rfl, rfl, rfl, hbytes, by rw [← hmode]⟩
  | fails e =>
    rw [runTurns_fails _ _ _ _ s.nsnk e (be32_ne_nil _) hphase hmode]
    have hprefix : (be32 s.nvu.count).take (Config.freeTaken .nsnk s.nvu.free) <+: nvEncode s.nvu.nvt :=
      hpieces ▸ (List.take_prefix _ _).trans (List.prefix_append _ _)
    have htaken := List.prefix_iff_eq_take.1 hprefix
    refine ⟨rfl, rfl, rfl, rfl,
      ((be32 s.nvu.count).take (Config.freeTaken .nsnk s.nvu.free)).length, ?_⟩
    rw [← htaken, ← hmode]
    rfl
  | silent =>
    rw [runTurns_silent _ _ _ _ s.nsnk (be32_ne_nil _) hphase hmode]
    exact ⟨rfl, rfl, rfl, rfl, rfl⟩

end Sys2Proof.Machine
end

section
/-! The payload decoders (R171 to R179): what each accepts and decodes (R181), and how the READ that holds its
payload ends (R234 to R237). -/

namespace Sys2Proof.Machine

/-! ### The decoders -/

/-- The body that a decoder gives of a payload it accepts (R171 to R178). -/
def decodedBody (k : FrameKind) (p : Bytes) : Body :=
  match k with
  | .synStream =>
    .synStream (sidUnpack (be32At p 0)) (sidUnpack (be32At p 4)) (priUnpack (be32At p 8)) (p.drop 12)
  | .synReply => .synReply (sidUnpack (be32At p 0)) (p.drop 4)
  | .rstStream => .rstStream (sidUnpack (be32At p 0)) (be32At p 4)
  | .settings => .settings (entriesAt p 4 (be32At p 0).toNat)
  | .ping => .ping (be32At p 0)
  | .goAway => .goAway (sidUnpack (be32At p 0)) (be32At p 4)
  | .headers => .headers (sidUnpack (be32At p 0)) (p.drop 4)
  | .windowUpdate => .windowUpdate (sidUnpack (be32At p 0)) (sidUnpack (be32At p 4))

/-- A decoder that takes the whole payload refuses one below its least size. -/
theorem decodedWhole_eq (size n : Nat) (body : Body) :
    (if n < size then .tooShort else .decoded body n) =
      if n < max size n then DecResult.tooShort else .decoded body (max size n) := by
  by_cases h : n < size
  · rw [if_pos h, if_pos (by omega)]
  · rw [if_neg h, if_neg (by omega), Nat.max_eq_right (by omega)]

theorem decSettings_eq (p : Bytes) :
    decSettings p =
      if p.length < consumedBytes .settings p then .tooShort
      else .decoded (decodedBody .settings p) (consumedBytes .settings p) := by
  unfold decSettings consumedBytes
  by_cases h4 : p.length < 4
  · rw [if_pos h4, if_pos (by simp [h4])]
  · simp only [if_neg h4, decodedBody]

/-- Every decoder refuses a payload shorter than what it consumes, and decodes any other. -/
theorem decoderOf_eq (k : FrameKind) (p : Bytes) :
    decoderOf k p =
      if p.length < consumedBytes k p then .tooShort
      else .decoded (decodedBody k p) (consumedBytes k p) := by
  cases k with
  | synStream => exact decodedWhole_eq 12 p.length _
  | synReply | headers => exact decodedWhole_eq 4 p.length _
  | settings => exact decSettings_eq p
  | rstStream | ping | goAway | windowUpdate => rfl

/-- Settles O27. -/
theorem decodersConsume : Obligations.DecodersConsume := by
  unfold Obligations.DecodersConsume
  intro k p
  rw [decoderOf_eq]
  exact ⟨fun hshort => if_pos hshort, fun hlong => ⟨decodedBody k p, if_neg (Nat.not_lt.2 hlong)⟩⟩

/-! ### The end of the READ -/

/-- An error after the payload read leaves the payload in RXBUF (R234, R272). -/
theorem frxRaise_frxStore (e : OpError) (p : Bytes) (x : Frx) (h : e ≠ .endOfStream) :
    frxRaise e (frxStore p x) = frxFailedWith e p x := by
  simp [frxRaise, frxStore, frxFailedWith, h]

/-- FRX after a READ has ended on the payload `p` of a frame type. -/
theorem frxDispatch_decoder (k : FrameKind) (p : Bytes) (x : Frx) :
    frxDispatch (some (decoderOf k)) p (frxStore p x) =
      if p.length < consumedBytes k p then frxFailedWith (.protocolViolation .payloadTooShort) p x
      else if consumedBytes k p < p.length then frxFailedWith (.protocolViolation .payloadTooLong) p x
      else frxDeliver (decodedBody k p) p.length (frxStore p x) := by
  simp only [frxDispatch, decoderOf_eq]
  by_cases hshort : p.length < consumedBytes k p
  · simp only [if_pos hshort]
    exact frxRaise_frxStore _ p x (by decide)
  · simp only [if_neg hshort]
    rw [frxRaise_frxStore _ p x (by decide)]

/-- A type that ends in a blob takes any payload of its least size or more (R171, R172, R177). -/
theorem frxDispatch_blob (k : FrameKind) (size : Nat) (p : Bytes) (x : Frx)
    (hsize : consumedBytes k p = max size p.length) :
    frxDispatch (some (decoderOf k)) p (frxStore p x) =
      if p.length < size then frxFailedWith (.protocolViolation .payloadTooShort) p x
      else frxDeliver (decodedBody k p) p.length (frxStore p x) := by
  rw [frxDispatch_decoder, hsize]
  by_cases h : p.length < size
  · rw [if_pos h, if_pos (by omega)]
  · rw [if_neg h, if_neg (by omega), if_neg (by omega)]

/-- A type that consumes a size of its own takes the payload of that size only (R236). -/
theorem frxDispatch_sized (k : FrameKind) (size : Nat) (p : Bytes) (x y : Frx)
    (hsize : consumedBytes k p = size)
    (hy : p.length = size → frxDeliver (decodedBody k p) p.length (frxStore p x) = y) :
    frxDispatch (some (decoderOf k)) p (frxStore p x) =
      if p.length < size then frxFailedWith (.protocolViolation .payloadTooShort) p x
      else if size < p.length then frxFailedWith (.protocolViolation .payloadTooLong) p x
      else y := by
  rw [frxDispatch_decoder, hsize]
  by_cases hlt : p.length < size
  · rw [if_pos hlt, if_pos hlt]
  · by_cases hgt : size < p.length
    · rw [if_neg hlt, if_pos hgt, if_neg hlt, if_pos hgt]
    · rw [if_neg hlt, if_neg hgt, if_neg hlt, if_neg hgt, hy (by omega)]

/-- The operation that decodes a frame type, on a payload that the source holds. -/
theorem exec_decOperation_held (k : FrameKind) (v : BitVec 15) (f : BitVec 8) (l : BitVec 24) (s : State)
    (y : Frx) (hl : l.toNat ≤ s.fsrc.bytes.length)
    (hy : frxDispatch (some (decoderOf k)) (s.fsrc.bytes.take l.toNat)
      (frxStore (s.fsrc.bytes.take l.toNat) s.frx) = y) :
    exec (decOperation k v f l) s =
      .next { s with fsrc := { s.fsrc with bytes := s.fsrc.bytes.drop l.toNat }, frx := y } := by
  rw [exec_decOperation, frameOp_held _ _ s hl, hy]

/-! ### The fields that are delivered -/

/-- A stream id in a register is its word without the reserved bit (R27, R135). -/
theorem sidUnpack_register (w : Word) : (sidUnpack w).setWidth 32 = w &&& 0x7FFFFFFF#32 := by
  rw [← sidPack, sidPack_eq, BitVec.setWidth_eq_append (by decide), sidUnpack,
    BitVec.setWidth_eq_extractLsb' (by decide)]
  rfl

/-- A priority in a register is the top three bits of its word (R27, R137). -/
theorem priUnpack_register (w : Word) : (priUnpack w).setWidth 32 = w >>> 29 := by
  rw [BitVec.ushiftRight_eq_extractLsb'_of_lt (by decide), BitVec.setWidth_eq_append (by decide)]
  rfl

theorem frxDeliver_synStream (p : Bytes) (x : Frx) :
    frxDeliver (decodedBody .synStream p) p.length (frxStore p x) =
      { frxHolds p 12 x with
        f0 := be32At p 0 &&& 0x7FFFFFFF#32, f1 := be32At p 4 &&& 0x7FFFFFFF#32
        f2 := be32At p 8 >>> 29 } := by
  rw [← sidUnpack_register, ← sidUnpack_register, ← priUnpack_register]
  rfl

/-- SYN_REPLY and HEADERS deliver the same registers. -/
theorem frxDeliver_blobAfterStreamId (k : FrameKind) (p : Bytes) (x : Frx)
    (hk : k = .synReply ∨ k = .headers) :
    frxDeliver (decodedBody k p) p.length (frxStore p x) =
      { frxHolds p 4 x with f0 := be32At p 0 &&& 0x7FFFFFFF#32 } := by
  rw [← sidUnpack_register]
  rcases hk with rfl | rfl <;> rfl

/-- RST_STREAM and GOAWAY deliver the same registers. -/
theorem frxDeliver_streamIdAndCode (k : FrameKind) (p : Bytes) (x : Frx)
    (hk : k = .rstStream ∨ k = .goAway) (h : p.length = 8) :
    frxDeliver (decodedBody k p) p.length (frxStore p x) =
      { frxHolds p 8 x with f0 := be32At p 0 &&& 0x7FFFFFFF#32, f1 := be32At p 4 } := by
  rw [← sidUnpack_register, frxHolds, h]
  rcases hk with rfl | rfl <;> rw [frxStore, h] <;> rfl

theorem frxDeliver_ping (p : Bytes) (x : Frx) (h : p.length = 4) :
    frxDeliver (decodedBody .ping p) p.length (frxStore p x) =
      { frxHolds p 4 x with f0 := be32At p 0 } := by
  rw [frxHolds, frxStore, h]
  rfl

theorem frxDeliver_windowUpdate (p : Bytes) (x : Frx) (h : p.length = 8) :
    frxDeliver (decodedBody .windowUpdate p) p.length (frxStore p x) =
      { frxHolds p 8 x with
        f0 := be32At p 0 &&& 0x7FFFFFFF#32, f1 := be32At p 4 &&& 0x7FFFFFFF#32 } := by
  rw [← sidUnpack_register, ← sidUnpack_register, frxHolds, frxStore, h]
  rfl

theorem frxDeliver_settings (p : Bytes) (x : Frx) :
    frxDeliver (decodedBody .settings p) p.length (frxStore p x) =
      { frxHolds p 4 x with f0 := be32At p 0 } := by
  simp only [frxDeliver, decodedBody, placeBody, entriesAt_length, BitVec.ofNat_toNat,
    BitVec.setWidth_eq]
  rfl

/-! ### The operations -/

/-- Settles O18. -/
theorem decSynStreamResult : Obligations.DecSynStreamResult := by
  unfold Obligations.DecSynStreamResult
  intro v f l s hl
  refine exec_decOperation_held .synStream v f l s _ hl ?_
  rw [frxDispatch_blob .synStream 12 _ _ rfl, frxDeliver_synStream, List.length_take_of_le hl]

/-- Settles O19. -/
theorem decBlobAfterStreamIdResult : Obligations.DecBlobAfterStreamIdResult := by
  unfold Obligations.DecBlobAfterStreamIdResult
  intro v f l s hl
  constructor
  · refine exec_decOperation_held .synReply v f l s _ hl ?_
    rw [frxDispatch_blob .synReply 4 _ _ rfl, frxDeliver_blobAfterStreamId _ _ _ (.inl rfl),
      List.length_take_of_le hl]
  · refine exec_decOperation_held .headers v f l s _ hl ?_
    rw [frxDispatch_blob .headers 4 _ _ rfl, frxDeliver_blobAfterStreamId _ _ _ (.inr rfl),
      List.length_take_of_le hl]

/-- Settles O20. -/
theorem decFixedSizeResult : Obligations.DecFixedSizeResult := by
  unfold Obligations.DecFixedSizeResult
  intro v f l s hl
  refine ⟨exec_decOperation_held .rstStream v f l s _ hl ?_, exec_decOperation_held .ping v f l s _ hl ?_,
    exec_decOperation_held .goAway v f l s _ hl ?_, exec_decOperation_held .windowUpdate v f l s _ hl ?_⟩
  · rw [frxDispatch_sized .rstStream 8 _ _ _ rfl (frxDeliver_streamIdAndCode _ _ _ (.inl rfl)),
      List.length_take_of_le hl]
  · rw [frxDispatch_sized .ping 4 _ _ _ rfl (frxDeliver_ping _ _), List.length_take_of_le hl]
  · rw [frxDispatch_sized .goAway 8 _ _ _ rfl (frxDeliver_streamIdAndCode _ _ _ (.inr rfl)),
      List.length_take_of_le hl]
  · rw [frxDispatch_sized .windowUpdate 8 _ _ _ rfl (frxDeliver_windowUpdate _ _),
      List.length_take_of_le hl]

/-- Settles O21: a payload without a whole first word is too short, and any other is held to the size that
its first word gives. -/
theorem decSettingsResult : Obligations.DecSettingsResult := by
  unfold Obligations.DecSettingsResult
  intro v f l s hl
  refine exec_decOperation_held .settings v f l s _ hl ?_
  rw [frxDispatch_sized .settings _ _ _ _ rfl (fun _ => frxDeliver_settings _ _), consumedBytes,
    List.length_take_of_le hl]
  by_cases h4 : l.toNat < 4
  · rw [if_pos h4, if_pos h4, if_pos (.inl h4)]
  · simp only [h4, if_false, false_or]

/-- Settles O23: the dispatch finds no decoder to run, or one that decodes nothing. -/
theorem unsupportedTypesFail : Obligations.UnsupportedTypesFail := by
  unfold Obligations.UnsupportedTypesFail
  intro v t f l s hl
  have hcredential : exec (.decCredential v f l) s = .next (frameOp (some decCredential) l.toNat s) := rfl
  have hunknown : exec (.unknownType v t f l) s = .next (frameOp none l.toNat s) := rfl
  rw [hcredential, hunknown, frameOp_held _ _ s hl, frameOp_held _ _ s hl]
  simp only [frxDispatch, decCredential]
  rw [frxRaise_frxStore _ _ s.frx (by decide), frxRaise_frxStore _ _ s.frx (by decide)]
  exact ⟨rfl, rfl⟩

end Sys2Proof.Machine
end

section
/-! The payload encoders (R200 to R208): the body each one encodes (R200), how the part of a WRITE that runs
one ends (R241 to R243), and the payload codecs as inverses of each other (R210). -/

namespace Sys2Proof.Machine

/-! ### The body that an encoder encodes -/

theorem priPack_setWidth (w : Word) : priPack ((w.setWidth 3).setWidth 32) = priPack w := by
  rw [priPack_eq, priPack_eq, setWidth_operand _ (by decide)]

theorem encoder_payload_eq_bodyPayload (k : FrameKind) (x : Ftx) :
    (encoderOf k).payload x = bodyPayload (txBody x k) := by
  cases k with
  | synStream =>
    simp only [encoderOf, encSynStream, txBody, bodyPayload, sidPack_sidUnpack, priPack_setWidth]
  | synReply | headers =>
    simp only [encoderOf, encSynReply, encHeaders, txBody, bodyPayload, sidPack_sidUnpack]
  | rstStream | goAway | windowUpdate =>
    simp only [encoderOf, encRstStream, encGoaway, encWindowUpdate, txBody, bodyPayload, sidPack_sidUnpack]
  | settings =>
    simp only [encoderOf, encSettings, txBody, bodyPayload, txEntries_length, BitVec.ofNat_toNat,
      BitVec.setWidth_eq]
  | ping => rfl

theorem bodyKind_txBody (x : Ftx) (k : FrameKind) : bodyKind (txBody x k) = k := by cases k <;> rfl

/-- Settles O31: masking a field and packing what was masked drop the same bits. -/
theorem encodersBuildTheBody : Obligations.EncodersBuildTheBody := by
  unfold Obligations.EncodersBuildTheBody
  intro k x
  exact ⟨encoder_payload_eq_bodyPayload k x, (encoder_payload_length k x).symm, bodyKind_txBody x k⟩

/-! ### The end of the part of a WRITE that encodes -/

/-- The HeaderWord that is built is that of a control frame (R243). -/
theorem hdrPack_writtenHeader (v : BitVec 15) (t : BitVec 16) :
    hdrPack 1 (v.setWidth 32) (t.setWidth 32) = writtenHeader v t := by
  rw [hdrPack_eq, setWidth_operand v (by decide), setWidth_operand t (by decide)]
  rfl

theorem flPack_ofNat (f : BitVec 8) (n : Nat) :
    flPack (f.setWidth 32) (BitVec.ofNat 32 n) = f ++ BitVec.ofNat 24 n := by
  rw [flPack_eq, setWidth_operand f (by decide), BitVec.setWidth_ofNat_of_le (by decide)]

/-- FTX with its frame built holds the payload and the words of its length (R241 to R243). -/
theorem ftxBuild_eq_ftxHolds (k : FrameKind) (x : Ftx) :
    ftxSetLen ((encoderOf k).len x) (ftxBuild (encoderOf k) x) =
      ftxHolds ((encoderOf k).payload x) (x.flags ++ BitVec.ofNat 24 ((encoderOf k).payload x).length)
        (writtenHeader x.version x.type) x := by
  rw [ftxSetLen, ftxBuild, flPack_ofNat, hdrPack_writtenHeader, ← encoder_payload_length]
  rfl

/-- What an encoding operation does, by the length that its encoder computes first (R241, R242). -/
theorem exec_encOperation_ftx (k : FrameKind) (s : State) (n : Nat) (hn : (encoderOf k).len s.ftx = n) :
    exec (encOperation k) s =
      .next { s with
        ftx :=
          if 16777215 < n then ftxRaise .lengthOverflow (ftxSetLen n s.ftx)
          else if s.params.payloadMax < n then
            ftxRaise (.protocolViolation .limitExceeded) (ftxSetLen n s.ftx)
          else
            ftxHolds ((encoderOf k).payload s.ftx)
              (s.ftx.flags ++ BitVec.ofNat 24 ((encoderOf k).payload s.ftx).length)
              (writtenHeader s.ftx.version s.ftx.type) s.ftx } := by
  subst hn
  rw [exec_encOperation, encodeOp, ftxEncode, ftxBuild_eq_ftxHolds]

theorem exec_encOperation_overflow (k : FrameKind) (s : State) (n : Nat)
    (hn : (encoderOf k).len s.ftx = n) (h : 16777215 < n) :
    exec (encOperation k) s = .next { s with ftx := ftxRaise .lengthOverflow (ftxSetLen n s.ftx) } := by
  rw [exec_encOperation_ftx k s n hn, if_pos h]

theorem exec_encOperation_overCapacity (k : FrameKind) (s : State) (n : Nat)
    (hn : (encoderOf k).len s.ftx = n) (h24 : n ≤ 16777215) (h : s.params.payloadMax < n) :
    exec (encOperation k) s =
      .next { s with ftx := ftxRaise (.protocolViolation .limitExceeded) (ftxSetLen n s.ftx) } := by
  rw [exec_encOperation_ftx k s n hn, if_neg (Nat.not_lt.2 h24), if_pos h]

theorem exec_encOperation_fits (k : FrameKind) (s : State) (n : Nat) (q : Bytes)
    (hn : (encoderOf k).len s.ftx = n) (h24 : n ≤ 16777215) (h : n ≤ s.params.payloadMax)
    (hq : (encoderOf k).payload s.ftx = q) :
    exec (encOperation k) s =
      .next { s with
        ftx := ftxHolds q (s.ftx.flags ++ BitVec.ofNat 24 q.length)
          (writtenHeader s.ftx.version s.ftx.type) s.ftx } := by
  rw [exec_encOperation_ftx k s n hn, if_neg (Nat.not_lt.2 h24), if_neg (Nat.not_lt.2 h), hq]

/-! ### Payloads of a fixed size -/

/-- A payload that no length field can overflow is refused on the capacity alone. -/
theorem exec_encOperation_small (k : FrameKind) (s : State) (q : Bytes)
    (hq : (encoderOf k).payload s.ftx = q) (h24 : q.length ≤ 16777215) :
    exec (encOperation k) s =
      .next { s with
        ftx :=
          if s.params.payloadMax < q.length then
            ftxRaise (.protocolViolation .limitExceeded) (ftxSetLen q.length s.ftx)
          else
            ftxHolds q (s.ftx.flags ++ BitVec.ofNat 24 q.length)
              (writtenHeader s.ftx.version s.ftx.type) s.ftx } := by
  have hn : (encoderOf k).len s.ftx = q.length := by rw [← encoder_payload_length, hq]
  rw [exec_encOperation_ftx k s q.length hn, if_neg (Nat.not_lt.2 h24), hq]

/-- Settles O28: four or eight bytes never overflow the length field. -/
theorem encFixedSizeResult : Obligations.EncFixedSizeResult := by
  unfold Obligations.EncFixedSizeResult
  intro s
  exact ⟨exec_encOperation_small .ping s _ rfl (by simp),
    exec_encOperation_small .rstStream s _ rfl (by simp),
    exec_encOperation_small .goAway s _ rfl (by simp),
    exec_encOperation_small .windowUpdate s _ rfl (by simp)⟩

/-! ### Payloads that end in a blob -/

/-- The blob of a descriptor whose bytes the host has written (R33). -/
theorem txBlob_of_memRead (x : Ftx) (blob : Bytes) (h : memRead x.tail 0 x.tailLen.toNat = some blob) :
    txBlob x = blob := memReadFree_of_memRead _ _ _ _ _ h

theorem priPack_eq_shiftLeft (w : Word) : priPack w = w <<< 29 := by
  rw [priPack_eq, BitVec.shiftLeft_eq_concat_of_lt (by decide), ← BitVec.setWidth_eq_extractLsb' (by decide)]
  rfl

/-- Settles O29: the size decides the outcome, and a written blob is the blob that is encoded. -/
theorem encBlobResult : Obligations.EncBlobResult := by
  unfold Obligations.EncBlobResult
  intro s size
  refine ⟨fun hsize => ⟨fun h => ⟨?_, ?_⟩, fun h24 h => ⟨?_, ?_⟩, fun h24 h blob hblob => ⟨?_, ?_⟩⟩,
    fun hsize => ⟨fun h => ?_, fun h24 h => ?_, fun h24 h blob hblob => ?_⟩⟩
  · exact exec_encOperation_overflow .synReply s size hsize.symm h
  · exact exec_encOperation_overflow .headers s size hsize.symm h
  · exact exec_encOperation_overCapacity .synReply s size hsize.symm h24 h
  · exact exec_encOperation_overCapacity .headers s size hsize.symm h24 h
  · refine exec_encOperation_fits .synReply s size _ hsize.symm h24 h ?_
    simp only [encoderOf, encSynReply, txBlob_of_memRead _ _ hblob, sidPack]
  · refine exec_encOperation_fits .headers s size _ hsize.symm h24 h ?_
    simp only [encoderOf, encHeaders, txBlob_of_memRead _ _ hblob, sidPack]
  · exact exec_encOperation_overflow .synStream s size hsize.symm h
  · exact exec_encOperation_overCapacity .synStream s size hsize.symm h24 h
  · refine exec_encOperation_fits .synStream s size _ hsize.symm h24 h ?_
    simp only [encoderOf, encSynStream, txBlob_of_memRead _ _ hblob, priPack_eq_shiftLeft, sidPack]

/-! ### ENC.SETTINGS -/

theorem flPack_entry (e : SetEntry) :
    flPack (e.flags.setWidth 32) (e.id.setWidth 32) = e.flags ++ e.id := by
  rw [flPack_eq, setWidth_operand e.flags (by decide), setWidth_operand e.id (by decide)]

theorem entriesBytes_eq_flatMap (es : List SetEntry) :
    entriesBytes es = es.flatMap fun e => be32 (e.flags ++ e.id) ++ be32 e.value := by
  induction es with
  | nil => rfl
  | cons e es ih => rw [entriesBytes, List.flatMap_cons, ih, entryBytes, flPack_entry]

/-- The entries of a descriptor from `i` on, where the host has written them (R33). -/
theorem txEntries_of_storeGet (x : Ftx) (i : Nat) (es : List SetEntry)
    (h : ∀ j, j < es.length → storeGet x.set (i + j) = es[j]?) : txEntries x i es.length = es := by
  induction es generalizing i with
  | nil => rfl
  | cons e es ih =>
    have hfirst : storeGet x.set i = some e := by simpa using h 0 (by simp)
    have hrest := ih (i + 1) fun j hj => by
      simpa [Nat.add_assoc, Nat.add_comm 1 j] using h (j + 1) (by simpa using hj)
    rw [List.length_cons, txEntries, txEntry, hfirst, hrest, Option.getD_some]

/-- Settles O30: the size decides the outcome, and written entries are the entries that are encoded. -/
theorem encSettingsResult : Obligations.EncSettingsResult := by
  unfold Obligations.EncSettingsResult
  intro s es
  refine ⟨fun h => ?_, fun h24 h => ?_, fun h24 h hlen hes => ?_⟩
  · exact exec_encOperation_overflow .settings s _ rfl h
  · exact exec_encOperation_overCapacity .settings s _ rfl h24 h
  · have hentries : txEntries s.ftx 0 s.ftx.f0.toNat = es := by
      rw [← hlen]
      exact txEntries_of_storeGet s.ftx 0 es fun j hj => by rw [Nat.zero_add, hes j hj]
    have hpayload : (encoderOf .settings).payload s.ftx =
        be32 s.ftx.f0 ++ es.flatMap fun e => be32 (e.flags ++ e.id) ++ be32 e.value := by
      simp only [encoderOf, encSettings, hentries, entriesBytes_eq_flatMap]
    have hsize := encoder_payload_length .settings s.ftx
    rw [hpayload] at hsize
    have hfits := exec_encOperation_fits .settings s _ _ rfl h24 h hpayload
    rwa [hsize] at hfits

/-! ### Settings entries on the wire (R96) -/

/-- A word taken off the front moves every entry of a payload four bytes down. -/
theorem entriesAt_be32_skip (w : Word) (q : Bytes) (off n : Nat) :
    entriesAt (be32 w ++ q) (off + 4) n = entriesAt q off n := by
  induction n generalizing off with
  | zero => rfl
  | succ n ih => rw [entriesAt, entriesAt, be32At_be32_skip, be32At_be32_skip, Nat.add_right_comm, ih]

/-- An entry is read from the two words at the front, and the entries after it from what follows. -/
theorem entriesAt_two_words (w0 w1 : Word) (q : Bytes) (n : Nat) :
    entriesAt (be32 w0 ++ (be32 w1 ++ q)) 0 (n + 1) = entryOfWords w0 w1 :: entriesAt q 0 n := by
  rw [entriesAt, be32At_be32_append, be32At_be32_skip w0 _ 0, be32At_be32_append,
    entriesAt_be32_skip w0 _ 4, entriesAt_be32_skip w1 _ 0]

theorem entryOfWords_flPack (e : SetEntry) :
    entryOfWords (flPack (e.flags.setWidth 32) (e.id.setWidth 32)) e.value = e := by
  rw [entryOfWords, flFlags_pack, flLength_pack, setWidth_operand e.flags (by decide),
    setWidth_operand e.id (by decide)]

theorem entryBytes_entryOfWords (w0 w1 : Word) : entryBytes (entryOfWords w0 w1) = be32 w0 ++ be32 w1 := by
  simp only [entryBytes, entryOfWords, flPack_fields]

theorem entriesAt_entriesBytes (es : List SetEntry) : entriesAt (entriesBytes es) 0 es.length = es := by
  induction es with
  | nil => rfl
  | cons e es ih =>
    rw [entriesBytes, entryBytes, List.append_assoc, List.length_cons, entriesAt_two_words,
      entryOfWords_flPack, ih]

/-! ### Payloads as words -/

/-- A payload of four bytes or more begins with a word (R10). -/
theorem exists_be32_append (p : Bytes) (h : 4 ≤ p.length) : ∃ w q, p = be32 w ++ q :=
  ⟨be32At (p.take 4) 0, p.drop 4, by rw [be32_be32At _ (List.length_take_of_le h), List.take_append_drop]⟩

theorem exists_two_words (p : Bytes) (h : p.length = 8) : ∃ a b, p = be32 a ++ be32 b := by
  obtain ⟨a, q, rfl⟩ := exists_be32_append p (by omega)
  rw [List.length_append, be32_length] at h
  exact ⟨a, be32At q 0, by rw [be32_be32At q (by omega)]⟩

theorem entriesBytes_entriesAt (q : Bytes) (n : Nat) (h : q.length = 8 * n) :
    entriesBytes (entriesAt q 0 n) = q := by
  induction n generalizing q with
  | zero => exact (List.length_eq_zero_iff.1 h).symm
  | succ n ih =>
    obtain ⟨w0, r, rfl⟩ := exists_be32_append q (by omega)
    rw [List.length_append, be32_length] at h
    obtain ⟨w1, r, rfl⟩ := exists_be32_append r (by omega)
    rw [List.length_append, be32_length] at h
    rw [entriesAt_two_words, entriesBytes, entryBytes_entryOfWords, ih r (by omega), List.append_assoc]

section
variable (a b c : Word) (q : Bytes)

theorem decodedBody_synStream :
    decodedBody .synStream (be32 a ++ (be32 b ++ (be32 c ++ q))) =
      .synStream (sidUnpack a) (sidUnpack b) (priUnpack c) q := by
  rw [decodedBody, be32At_be32_append, be32At_be32_skip a _ 0, be32At_be32_append, be32At_be32_skip a _ 4,
    be32At_be32_skip b _ 0, be32At_be32_append]
  rfl

theorem decodedBody_synReply :
    decodedBody .synReply (be32 a ++ q) = .synReply (sidUnpack a) q := by
  rw [decodedBody, be32At_be32_append, List.drop_left' (be32_length a)]

theorem decodedBody_headers :
    decodedBody .headers (be32 a ++ q) = .headers (sidUnpack a) q := by
  rw [decodedBody, be32At_be32_append, List.drop_left' (be32_length a)]

theorem decodedBody_rstStream :
    decodedBody .rstStream (be32 a ++ be32 b) = .rstStream (sidUnpack a) b := by
  rw [decodedBody, be32At_be32_append, be32At_be32_skip a _ 0, be32At_be32]

theorem decodedBody_goAway :
    decodedBody .goAway (be32 a ++ be32 b) = .goAway (sidUnpack a) b := by
  rw [decodedBody, be32At_be32_append, be32At_be32_skip a _ 0, be32At_be32]

theorem decodedBody_windowUpdate :
    decodedBody .windowUpdate (be32 a ++ be32 b) = .windowUpdate (sidUnpack a) (sidUnpack b) := by
  rw [decodedBody, be32At_be32_append, be32At_be32_skip a _ 0, be32At_be32]

theorem decodedBody_ping : decodedBody .ping (be32 a) = .ping a := by rw [decodedBody, be32At_be32]

theorem decodedBody_settings :
    decodedBody .settings (be32 a ++ q) = .settings (entriesAt q 0 a.toNat) := by
  rw [decodedBody, be32At_be32_append, entriesAt_be32_skip a _ 0]

end

/-! ### Decoding what was encoded (R210) -/

/-- A stream id comes back from the word that carries it. -/
theorem sidUnpack_sidPack (x : BitVec 31) : sidUnpack (sidPack (x.setWidth 32)) = x := by
  rw [sidUnpack_pack, setWidth_operand x (by decide)]

theorem priUnpack_priPack (x : BitVec 3) : priUnpack (priPack (x.setWidth 32)) = x := by
  rw [priUnpack_pack, setWidth_operand x (by decide)]

/-- Decoding takes the whole of an encoded body (R181). -/
theorem consumedBytes_bodyPayload (b : Body) (hb : ∀ es, b = .settings es → es.length < 2 ^ 32) :
    consumedBytes (bodyKind b) (bodyPayload b) = (bodyPayload b).length := by
  cases b with
  | synStream sid assoc pri h =>
    simp only [bodyKind, bodyPayload, consumedBytes, List.length_append, be32_length]
    omega
  | synReply sid h | headers sid h => simp [bodyKind, bodyPayload, consumedBytes]
  | settings es =>
    simp only [bodyKind, bodyPayload, consumedBytes, be32At_be32_append, BitVec.toNat_ofNat,
      Nat.mod_eq_of_lt (hb es rfl), List.length_append, be32_length, entriesBytes_length]
    exact if_neg (by omega)
  | rstStream | ping | goAway | windowUpdate => rfl

theorem decodedBody_bodyPayload (b : Body) (hb : ∀ es, b = .settings es → es.length < 2 ^ 32) :
    decodedBody (bodyKind b) (bodyPayload b) = b := by
  cases b with
  | synStream sid assoc pri h =>
    rw [bodyKind, bodyPayload, List.append_assoc, List.append_assoc, decodedBody_synStream,
      sidUnpack_sidPack, sidUnpack_sidPack, priUnpack_priPack]
  | synReply sid h => rw [bodyKind, bodyPayload, decodedBody_synReply, sidUnpack_sidPack]
  | rstStream sid code => rw [bodyKind, bodyPayload, decodedBody_rstStream, sidUnpack_sidPack]
  | settings es =>
    rw [bodyKind, bodyPayload, decodedBody_settings, BitVec.toNat_ofNat, Nat.mod_eq_of_lt (hb es rfl),
      entriesAt_entriesBytes]
  | ping id => rw [bodyKind, bodyPayload, decodedBody_ping]
  | goAway sid code => rw [bodyKind, bodyPayload, decodedBody_goAway, sidUnpack_sidPack]
  | headers sid h => rw [bodyKind, bodyPayload, decodedBody_headers, sidUnpack_sidPack]
  | windowUpdate sid delta =>
    rw [bodyKind, bodyPayload, decodedBody_windowUpdate, sidUnpack_sidPack, sidUnpack_sidPack]

/-- The decoder of a body's type gives the body back from its payload and consumes all of it. -/
theorem decoderOf_bodyPayload (b : Body) (hb : ∀ es, b = .settings es → es.length < 2 ^ 32) :
    decoderOf (bodyKind b) (bodyPayload b) = .decoded b (bodyPayload b).length := by
  rw [decoderOf_eq, consumedBytes_bodyPayload b hb, decodedBody_bodyPayload b hb,
    if_neg (Nat.lt_irrefl _)]

/-! ### Encoding what was decoded (R210) -/

/-- The bytes of a payload, byte `i` masked by `m i`. -/
def maskBytes (m : Nat → Byte) (p : Bytes) : Bytes := p.mapIdx fun i x => x &&& m i

/-- A word at the front is masked as a word, by the word of the first four masks. -/
theorem maskBytes_be32_append (m : Nat → Byte) (w mask : Word) (q : Bytes)
    (hmask : be32 mask = [m 0, m 1, m 2, m 3]) :
    maskBytes m (be32 w ++ q) = be32 (w &&& mask) ++ maskBytes (fun i => m (i + 4)) q := by
  simp only [be32, List.cons.injEq, and_true] at hmask
  obtain ⟨h0, h1, h2, h3⟩ := hmask
  simp [maskBytes, be32, BitVec.extractLsb'_and, h0, h1, h2, h3]

theorem maskBytes_be32 (m : Nat → Byte) (w mask : Word) (hmask : be32 mask = [m 0, m 1, m 2, m 3]) :
    maskBytes m (be32 w) = be32 (w &&& mask) := by
  simpa [maskBytes] using maskBytes_be32_append m w mask [] hmask

/-- A mask of ones keeps every byte. -/
theorem maskBytes_ones (m : Nat → Byte) (p : Bytes) (hm : ∀ i, m i = 0xFF) : maskBytes m p = p := by
  refine List.mapIdx_eq_iff.2 fun i => ?_
  have hkept : (fun x => x &&& m i) = id := funext fun x => by rw [hm]; exact BitVec.and_allOnes
  rw [hkept, Option.map_id, id]

/-- In the types with one stream id the X bit at the front is all that is reserved. -/
theorem maskBytes_streamId (k : FrameKind) (w : Word) (q : Bytes)
    (hk : keptBits k = fun i => if i = 0 then 0x7F else 0xFF) :
    maskBytes (keptBits k) (be32 w ++ q) = be32 (sidPack w) ++ q := by
  rw [hk, maskBytes_be32_append _ w 0x7FFFFFFF#32 q rfl, maskBytes_ones _ q fun i => if_neg (by omega),
    sidPack]

theorem maskBytes_windowUpdate (a b : Word) :
    maskBytes (keptBits .windowUpdate) (be32 a ++ be32 b) = be32 (sidPack a) ++ be32 (sidPack b) := by
  rw [maskBytes_be32_append _ a 0x7FFFFFFF#32 _ rfl, maskBytes_be32 _ b 0x7FFFFFFF#32 rfl, sidPack,
    sidPack]

theorem maskBytes_synStream (a b c : Word) (q : Bytes) :
    maskBytes (keptBits .synStream) (be32 a ++ (be32 b ++ (be32 c ++ q))) =
      be32 (sidPack a) ++ (be32 (sidPack b) ++ (be32 (c &&& 0xE0000000#32) ++ q)) := by
  have hblob (i : Nat) : keptBits .synStream (i + 4 + 4 + 4) = 0xFF := by simp [keptBits]
  rw [maskBytes_be32_append _ a 0x7FFFFFFF#32 _ rfl, maskBytes_be32_append _ b 0x7FFFFFFF#32 _ rfl,
    maskBytes_be32_append _ c 0xE0000000#32 _ rfl, maskBytes_ones _ q hblob, sidPack, sidPack]

theorem bodyKind_decodedBody (k : FrameKind) (p : Bytes) : bodyKind (decodedBody k p) = k := by
  cases k <;> rfl

/-- Encoding what a decoder gives of a payload that it consumes whole: each word that carries a field is
packed again, and what follows the words is as it was. -/
theorem bodyPayload_decodedBody (k : FrameKind) (p : Bytes) (h : consumedBytes k p = p.length) :
    bodyPayload (decodedBody k p) = maskBytes (keptBits k) p := by
  cases k with
  | synStream =>
    have h12 : 12 ≤ p.length := h ▸ Nat.le_max_left 12 p.length
    obtain ⟨a, q, rfl⟩ := exists_be32_append p (by omega)
    rw [List.length_append, be32_length] at h12
    obtain ⟨b, q, rfl⟩ := exists_be32_append q (by omega)
    rw [List.length_append, be32_length] at h12
    obtain ⟨c, q, rfl⟩ := exists_be32_append q (by omega)
    rw [decodedBody_synStream, bodyPayload, sidPack_sidUnpack, sidPack_sidUnpack, priPack_priUnpack,
      maskBytes_synStream, List.append_assoc, List.append_assoc]
  | synReply =>
    obtain ⟨a, q, rfl⟩ := exists_be32_append p (h ▸ Nat.le_max_left 4 p.length)
    rw [decodedBody_synReply, bodyPayload, sidPack_sidUnpack, maskBytes_streamId _ a q rfl]
  | headers =>
    obtain ⟨a, q, rfl⟩ := exists_be32_append p (h ▸ Nat.le_max_left 4 p.length)
    rw [decodedBody_headers, bodyPayload, sidPack_sidUnpack, maskBytes_streamId _ a q rfl]
  | rstStream =>
    obtain ⟨a, b, rfl⟩ := exists_two_words p h.symm
    rw [decodedBody_rstStream, bodyPayload, sidPack_sidUnpack, maskBytes_streamId _ a _ rfl]
  | goAway =>
    obtain ⟨a, b, rfl⟩ := exists_two_words p h.symm
    rw [decodedBody_goAway, bodyPayload, sidPack_sidUnpack, maskBytes_streamId _ a _ rfl]
  | windowUpdate =>
    obtain ⟨a, b, rfl⟩ := exists_two_words p h.symm
    rw [decodedBody_windowUpdate, bodyPayload, sidPack_sidUnpack, sidPack_sidUnpack,
      maskBytes_windowUpdate]
  | ping =>
    rw [maskBytes_ones (keptBits .ping) p fun _ => rfl, decodedBody, bodyPayload, be32_be32At p h.symm]
  | settings =>
    rw [maskBytes_ones (keptBits .settings) p fun _ => rfl]
    have h4 : 4 ≤ p.length := by
      rw [consumedBytes] at h
      split_ifs at h <;> omega
    obtain ⟨a, q, rfl⟩ := exists_be32_append p h4
    rw [consumedBytes, if_neg (Nat.not_lt.2 h4), be32At_be32_append, List.length_append, be32_length] at h
    rw [decodedBody_settings, bodyPayload, entriesAt_length, BitVec.ofNat_toNat, BitVec.setWidth_eq,
      entriesBytes_entriesAt q a.toNat (by omega)]

/-- Settles O32: each direction takes a payload apart into the words that carry its fields. -/
theorem payloadCodecsAreInverse : Obligations.PayloadCodecsAreInverse := by
  unfold Obligations.PayloadCodecsAreInverse
  refine ⟨decoderOf_bodyPayload, fun k p b h => ?_⟩
  rw [decoderOf_eq] at h
  split_ifs at h with hshort
  obtain ⟨rfl, hconsumed⟩ := DecResult.decoded.inj h
  exact ⟨bodyKind_decodedBody k p, bodyPayload_decodedBody k p hconsumed⟩

end Sys2Proof.Machine
end

section
/-! The Framer as functions on byte strings: `Read` of the bytes that `Write` gives (R238, R246). -/

namespace Sys2Proof.Machine

/-! ### The bytes of a frame -/

/-- A frame on the wire: the two words of its control header, then its payload (R90, R246). -/
theorem frameBytes_eq_words (f : Frame) :
    frameBytes f =
      be32 (controlWord f.version (frameCode (bodyKind f.body))) ++
        (be32 (flagLengthWord f.flags (BitVec.ofNat 24 (bodyPayload f.body).length)) ++
          bodyPayload f.body) := by
  rw [frameBytes, List.append_assoc, controlWord, flagLengthWord, flPack_ofNat, flPack_eq,
    setWidth_operand _ (by decide), setWidth_operand _ (by decide)]

/-- A Settings body whose payload has a length of 24 bits has fewer entries than a word counts (R174). -/
theorem settings_count_of_length (b : Body) (h24 : (bodyPayload b).length ≤ 16777215) :
    ∀ es, b = .settings es → es.length < 2 ^ 32 := by
  rintro es rfl
  rw [bodyPayload, List.length_append, be32_length, entriesBytes_length] at h24
  omega

/-! ### Read of a frame -/

/-- `Read` of a control frame that is there whole, of a length within the capacity, is the dispatch on its
payload. -/
theorem readFrame_words (p : Config.Params) (w0 w1 : Word) (q rest : Bytes) (t : Terminator)
    (hc : hdrControl w0 = 1#1) (hl : (flLength w1).toNat = q.length) (hcap : q.length ≤ p.payloadMax) :
    readFrame p (be32 w0 ++ (be32 w1 ++ (q ++ rest))) t = (readPayload w0 w1 q, some rest) := by
  have hlen : (be32 w0 ++ (be32 w1 ++ (q ++ rest))).length = 8 + q.length + rest.length := by
    simp only [List.length_append, be32_length]; omega
  have hpayload : (be32 w0 ++ (be32 w1 ++ (q ++ rest))).drop 8 = q ++ rest := rfl
  have hw1 : be32At (be32 w0 ++ (be32 w1 ++ (q ++ rest))) 4 = w1 := by
    rw [be32At_be32_skip w0 _ 0, be32At_be32_append]
  unfold readFrame
  rw [if_neg (fun h => by simp [be32_ne_nil] at h), if_neg (by omega), be32At_be32_append, hw1, hl,
    if_neg (by rw [hc]; decide), if_neg (by omega), if_neg (by omega), if_neg (by omega),
    ← List.drop_drop, hpayload, List.take_left, List.drop_left]

/-- The dispatch on a payload that the decoder of its type takes whole. -/
theorem readPayload_decoded (w0 w1 : Word) (k : FrameKind) (q : Bytes) (body : Body)
    (hk : kindOfCode (hdrType w0) = some k) (hdec : decoderOf k q = .decoded body q.length) :
    readPayload w0 w1 q = .ok ⟨hdrVersion w0, flFlags w1, body⟩ := by
  simp [readPayload, dispatch, hk, hdec]

/-- `Read` inverts `Write` on every frame whose length is one of a FlagLengthWord and within the capacity. -/
theorem readFrame_frameBytes (p : Config.Params) (f : Frame) (rest : Bytes) (t : Terminator)
    (h24 : (bodyPayload f.body).length ≤ 16777215) (hcap : (bodyPayload f.body).length ≤ p.payloadMax) :
    readFrame p (frameBytes f ++ rest) t = (.ok f, some rest) := by
  have hlen : (BitVec.ofNat 24 (bodyPayload f.body).length).toNat = (bodyPayload f.body).length := by
    rw [BitVec.toNat_ofNat]; exact Nat.mod_eq_of_lt (by omega)
  rw [frameBytes_eq_words, List.append_assoc, List.append_assoc,
    readFrame_words p _ _ _ rest t (by simp) (by simpa using hlen) hcap,
    readPayload_decoded _ _ (bodyKind f.body) _ f.body (by simp)
      (decoderOf_bodyPayload f.body (settings_count_of_length f.body h24))]
  simp

/-- Settles O34: a legal PAYLOAD_MAX is a length that a FlagLengthWord carries. -/
theorem readInvertsWrite : Obligations.ReadInvertsWrite := by
  unfold Obligations.ReadInvertsWrite
  intro p f rest t hp hcap
  obtain ⟨hmax, -, -⟩ := hp
  exact readFrame_frameBytes p f rest t (hcap.trans hmax) hcap

end Sys2Proof.Machine
end

section
/-! Commands that are dropped, and the operations that a READ or a WRITE ends in: which words select them
(R235, R240), and how they end on a data frame or a payload that does not come whole (R233, R234). -/

namespace Sys2Proof.Machine

/-! ### Commands that are dropped -/

/-- A command under reset or to a busy unit (R290, R294). -/
theorem command_dropped {s u : State} {busy : Bool} (h : s.resetLine = true ∨ busy = true) :
    (if s.resetLine = true ∨ busy = true then Host.Outcome.next s else .next u) =
      (.next s : HostOutcome) := if_pos h

/-- Settles O17. -/
theorem busyUnitDropsCommands : Obligations.BusyUnitDropsCommands := by
  unfold Obligations.BusyUnitDropsCommands
  intro s
  exact ⟨command_dropped, command_dropped, fun h => ⟨command_dropped h, command_dropped h⟩⟩

/-! ### The words of a turn -/

/-- The words that FRX has always decode: a HeaderWord alone is fetched of a data frame only (R113, R233). -/
theorem decode_fetchHeader (x : Frx) (w : InstrWord) (h : fetchHeader x = some w) :
    ∃ i, decode w = .ok i := by
  obtain ⟨-, -, ⟨hc, rfl⟩ | ⟨-, -, rfl⟩⟩ := fetchHeader_cases x w h
  · exact ⟨_, if_pos hc⟩
  · exact ⟨_, rfl⟩

/-- A type code that decodes to no encoder names no implemented type (R209, R240). -/
theorem kindOfCode_of_decodeTxType_error (t : BitVec 16) (r : Reject) (h : decodeTxType t = .error r) :
    kindOfCode t = none := by
  cases hk : kindOfCode t with
  | none => rfl
  | some k =>
    rw [← frameCode_of_kindOfCode t k hk, decodeTxType_frameCode] at h
    cases h

/-- The turn of FTX on a type code without an encoder ends the WRITE (R240). -/
theorem unitTurn_ftx_refused (s : State) (hb : s.ftx.status.busy = true) (he : s.ftx.emitting = false)
    (hk : kindOfCode s.ftx.type = none) :
    unitTurn .ftx s =
      { s with ftx := ftxRaise (.unsupportedFrameType (txTypeProblem s.ftx.type)) s.ftx } := by
  simp [unitTurn, onTx, ftxTurn, ftxPrepare, hb, he, hk]

/-- Settles O11. -/
theorem turnsAreDecodedOperations : Obligations.TurnsAreDecodedOperations := by
  unfold Obligations.TurnsAreDecodedOperations
  intro s w
  refine ⟨fun hf => ?_, fun hf => ?_⟩
  · obtain ⟨i, hi⟩ := decode_fetchHeader s.frx w hf
    exact ⟨i, hi, exec_fetchHeader s w i hf hi⟩
  · cases hd : decode w with
    | ok i => exact exec_fetchTxType s w i hf hd
    | error r =>
      obtain ⟨hb, he, rfl⟩ := fetchTxType_cases s.ftx w hf
      exact unitTurn_ftx_refused s hb he (kindOfCode_of_decodeTxType_error _ r hd)

/-! ### A data frame, and a payload that does not come whole -/

/-- Settles O24. -/
theorem dataFrameFails : Obligations.DataFrameFails := by
  unfold Obligations.DataFrameFails
  intro n s
  exact ⟨onRx s frxDataFrame, rfl, rfl, rfl, rfl, rfl⟩

/-- An operation on a payload whose source does not answer leaves the state as it was (R300). -/
theorem frameOp_silent (d : Option (Bytes → DecResult)) (l : Nat) (s : State)
    (h : frxReceive d l (s.frx, s.fsrc) = none) : frameOp d l s = s := by
  simp [frameOp, onRx, h]

theorem frameOp_received (d : Option (Bytes → DecResult)) (l : Nat) (s : State) (r : Frx × Source)
    (h : frxReceive d l (s.frx, s.fsrc) = some r) :
    frameOp d l s = { s with frx := r.1, fsrc := r.2 } := by
  simp [frameOp, onRx, h]

/-- Settles O25: the payload read of the operation finds fewer bytes than it asks for. -/
theorem shortPayloadIsReported : Obligations.ShortPayloadIsReported := by
  unfold Obligations.ShortPayloadIsReported
  intro i l s hi hshort
  obtain ⟨d, hexec⟩ := exec_onPayload i l s hi
  rw [hexec]
  rcases frxReceive_cases d l.toNat (s.frx, s.fsrc) with
    ⟨henough, -⟩ | ⟨-, htail, hr⟩ | ⟨-, htail, hr⟩ | ⟨e, -, htail, hr⟩
  · exact absurd henough (Nat.not_le.2 hshort)
  · rw [htail, frameOp_silent d _ s hr]
  · rw [htail, frameOp_received d _ s _ hr, frxRaise_frxStore _ _ s.frx (by decide)]
    rfl
  · rw [htail, frameOp_received d _ s _ hr]
    exact ⟨_, rfl, rfl, rfl, rfl⟩

end Sys2Proof.Machine
end

section
/-! READ is the function `Read` (R238): the frame-field registers and RXBUF show the body that the decoder gave
of the payload, and each way that a READ over a finite input can end is the case of `Read` for that input. -/

namespace Sys2Proof.Machine

/-! ### The frame that the registers show (R27 to R30) -/

/-- The tail registers and RXBUF show a stored payload from the tail's offset on (R28, R67). -/
theorem rxTail_stored (y : Frx) (m : Memory) (p : Bytes) (off : Nat) (hbuf : y.buf = memWrite m 0 p)
    (hoff : y.tailOff = BitVec.ofNat 24 off) (hlen : y.tailLen = BitVec.ofNat 24 (p.length - off))
    (h24 : p.length < 2 ^ 24) (hle : off ≤ p.length) : rxTail y = some (p.drop off) := by
  have hread := memRead_memWrite_part m 0 off (p.length - off) p (by omega)
  rw [Nat.zero_add, List.take_of_length_le (by simp)] at hread
  rw [rxTail, hbuf, hoff, hlen, BitVec.toNat_ofNat, BitVec.toNat_ofNat, Nat.mod_eq_of_lt (by omega),
    Nat.mod_eq_of_lt (by omega), hread]

/-- Settings entries taken from the front, the last one apart. -/
theorem entriesAt_succ_last (p : Bytes) (off n : Nat) :
    entriesAt p off (n + 1) =
      entriesAt p off n ++ [entryOfWords (be32At p (off + 8 * n)) (be32At p (off + 8 * n + 4))] := by
  induction n generalizing off with
  | zero => rfl
  | succ n ih =>
    rw [entriesAt, ih, entriesAt, List.cons_append, show off + 8 + 8 * n = off + 8 * (n + 1) by omega]

/-- RXSET shows the entries of a stored payload (R68). -/
theorem rxsetEntries_stored (y : Frx) (m : Memory) (p : Bytes) (n : Nat) (hbuf : y.buf = memWrite m 0 p)
    (h : 4 + 8 * n ≤ p.length) : rxsetEntries y n = some (entriesAt p 4 n) := by
  induction n with
  | zero => rfl
  | succ n ih =>
    rw [rxsetEntries, ih (by omega), rxsetEntry_payload y m p n hbuf (by omega), entriesAt_succ_last,
      entryOfWords, flFlags_be32At, flLength_eq_setWidth, show 4 + 8 * n + 4 = 8 + 8 * n by omega]

/-- The registers show the body that was delivered, for a payload that its type consumes whole (R27 to R30). -/
theorem rxBody_frxDeliver (k : FrameKind) (p : Bytes) (x : Frx) (hwhole : consumedBytes k p = p.length)
    (h24 : p.length < 2 ^ 24) :
    rxBody (frxDeliver (decodedBody k p) p.length (frxStore p x)) k = some (decodedBody k p) := by
  have hreg (a : BitVec 31) : (a.setWidth 32).setWidth 31 = a := setWidth_operand a (by decide)
  have hpri (a : BitVec 3) : (a.setWidth 32).setWidth 3 = a := setWidth_operand a (by decide)
  cases k with
  | synStream =>
    rw [rxBody, rxTail_stored _ x.buf p 12 rfl rfl rfl h24 (hwhole ▸ Nat.le_max_left 12 p.length)]
    simp [frxDeliver, decodedBody, placeBody, hreg, hpri]
  | synReply | headers =>
    rw [rxBody, rxTail_stored _ x.buf p 4 rfl rfl rfl h24 (hwhole ▸ Nat.le_max_left 4 p.length)]
    simp [frxDeliver, decodedBody, placeBody, hreg]
  | rstStream | goAway | windowUpdate => simp [rxBody, frxDeliver, decodedBody, placeBody, hreg]
  | ping => rfl
  | settings =>
    have hsize : 4 + 8 * (be32At p 0).toNat ≤ p.length := by
      rw [consumedBytes] at hwhole
      split_ifs at hwhole <;> omega
    rw [rxBody, decodedBody, frxDeliver_settings_f0, rxsetEntries_stored _ x.buf p _ rfl hsize]
    rfl

/-! ### What FRX shows of a result -/

/-- RX_STATUS and the registers show a result of `Read`: success and the frame, or the error and none. -/
def ShowsResult (res : ReadResult) (y : Frx) : Prop :=
  match res with
  | .ok f => y.status = statusSucceeded ∧ rxFrame y = some f
  | .error e => y.status = statusRaised e ∧ rxFrame y = none

theorem showsResult_error (e : OpError) (y : Frx) (h : y.status = statusRaised e) :
    ShowsResult (.error e) y := by
  refine ⟨h, ?_⟩
  simp [rxFrame, rxKind, h]

theorem showsResult_frxDeliver (k : FrameKind) (p : Bytes) (x : Frx)
    (hk : kindOfCode (hdrType x.hw) = some k) (hwhole : consumedBytes k p = p.length)
    (h24 : p.length < 2 ^ 24) :
    ShowsResult (.ok ⟨hdrVersion x.hw, flFlags x.fl, decodedBody k p⟩)
      (frxDeliver (decodedBody k p) p.length (frxStore p x)) := by
  obtain ⟨-, -, hhw, hfl, -, -⟩ := placeBody_frame (decodedBody k p) p.length (frxStore p x)
  have hhw : (frxDeliver (decodedBody k p) p.length (frxStore p x)).hw = x.hw := hhw
  have hfl : (frxDeliver (decodedBody k p) p.length (frxStore p x)).fl = x.fl := hfl
  have hkind : rxKind (frxDeliver (decodedBody k p) p.length (frxStore p x)) = some k := by
    rw [rxKind, hhw, hk]; rfl
  refine ⟨rfl, ?_⟩
  rw [rxFrame, hkind, hhw, hfl]
  simp only [rxBody_frxDeliver k p x hwhole h24, Option.map_some]

/-- The dispatch of FRX on a payload is that of `Read` (R235, R236). -/
theorem frxDispatch_showsResult (p : Bytes) (x : Frx) (h24 : p.length < 2 ^ 24) :
    ShowsResult (readPayload x.hw x.fl p) (frxDispatch (dispatch (hdrType x.hw)) p (frxStore p x)) := by
  cases hk : kindOfCode (hdrType x.hw) with
  | some k =>
    have hd : dispatch (hdrType x.hw) = some (decoderOf k) := by simp [dispatch, hk]
    rw [readPayload, hd, frxDispatch_decoder]
    simp only [decoderOf_eq]
    by_cases hshort : p.length < consumedBytes k p
    · rw [if_pos hshort, if_pos hshort]
      exact showsResult_error _ _ rfl
    · rw [if_neg hshort, if_neg hshort]
      by_cases hlong : consumedBytes k p < p.length
      · simp only [if_pos hlong]
        exact showsResult_error _ _ rfl
      · simp only [if_neg hlong]
        exact showsResult_frxDeliver k p x hk (by omega) h24
  | none =>
    by_cases ht : hdrType x.hw = credentialCode
    · have hd : dispatch (hdrType x.hw) = some decCredential := by rw [ht]; rfl
      rw [readPayload, hd]
      exact showsResult_error _ _ rfl
    · have hd : dispatch (hdrType x.hw) = none := by simp [dispatch, hk, ht]
      rw [readPayload, hd]
      exact showsResult_error _ _ rfl

/-! ### READ over a finite input -/

/-- A READ has ended as a value of `Read` says: its result is shown, and the input left over, where `Read`
gives it, is what FSRC holds. -/
def ReadEnds (res : ReadResult × Option Bytes) (y : Frx) (src : Source) : Prop :=
  ShowsResult res.1 y ∧ ∀ rest, res.2 = some rest → src.bytes = rest

theorem readEnds_error (e : OpError) (left : Option Bytes) (x : Frx) (src : Source)
    (h : ∀ rest, left = some rest → src.bytes = rest) : ReadEnds (.error e, left) (frxRaise e x) src :=
  ⟨showsResult_error e _ rfl, h⟩

/-- Each way for a READ over a finite input to end is the case of `Read` for that input. -/
theorem readRun_readEnds (p : Config.Params) (x : Frx) (b : Bytes) (t : Terminator) (k : Nat) (y : Frx)
    (src : Source)
    (h : runTurns (frxTurn p) readSteps (frxAccept x, inputOf b t k) = (y, src)) :
    ReadEnds (readFrame p b t) y src := by
  have hone : ¬ 1#1 = 0#1 := by decide
  have hlt := (flLength (be32At b 4)).isLt
  have hne (h4 : 4 ≤ b.length) : ¬ (b = [] ∧ t = .ended) := by
    rintro ⟨rfl, -⟩; cases h4
  unfold readFrame
  rcases readRun_cases p x b t k y src h with
    ⟨rfl, rfl, rfl, rfl⟩ | ⟨hb, h4, rfl, rfl, rfl⟩ | ⟨e, h4, rfl, rfl, rfl⟩ | ⟨h4, hc, rfl, rfl⟩ |
    ⟨h4, h8, hc, rfl, rfl, rfl⟩ | ⟨e, h4, h8, hc, rfl, rfl, rfl⟩ | ⟨h8, hc, hcap, rfl, rfl⟩ |
    ⟨h8, hc, hcap, hl, rfl, rfl, rfl⟩ | ⟨e, h8, hc, hcap, hl, rfl, rfl, rfl⟩ | ⟨hc, hcap, hl, rfl, rfl⟩
  · rw [if_pos ⟨rfl, rfl⟩]
    exact readEnds_error _ _ _ _ (by simp)
  · rw [if_neg (fun h => hb h.1), if_pos h4]
    exact readEnds_error _ _ _ _ (by simp)
  · rw [if_neg (by simp), if_pos h4]
    exact readEnds_error _ _ _ _ (by simp)
  · rw [if_neg (hne h4), if_neg (by omega), if_pos hc]
    exact readEnds_error _ _ _ _ (by simp)
  · rw [if_neg (hne h4), if_neg (by omega), hc, if_neg hone, if_pos h8]
    exact readEnds_error _ _ _ _ (by simp)
  · rw [if_neg (hne h4), if_neg (by omega), hc, if_neg hone, if_pos h8]
    exact readEnds_error _ _ _ _ (by simp)
  · rw [if_neg (hne (by omega)), if_neg (by omega), hc, if_neg hone, if_neg (by omega), if_pos hcap]
    exact readEnds_error _ _ _ _ (by simp)
  · rw [if_neg (hne (by omega)), if_neg (by omega), hc, if_neg hone, if_neg (by omega), if_neg (by omega),
      if_pos hl]
    exact readEnds_error _ _ _ _ (by simp)
  · rw [if_neg (hne (by omega)), if_neg (by omega), hc, if_neg hone, if_neg (by omega), if_neg (by omega),
      if_pos hl]
    exact readEnds_error _ _ _ _ (by simp)
  · rw [if_neg (hne (by omega)), if_neg (by omega), hc, if_neg hone, if_neg (by omega),
      if_neg (by omega), if_neg (by omega)]
    have hshows := frxDispatch_showsResult ((b.drop 8).take (flLength (be32At b 4)).toNat)
      (frxGotLength (be32At b 4) (frxGotHeader (be32At b 0) (frxAccept x)))
      ((List.length_take_le _ _).trans_lt hlt)
    exact ⟨hshows, by simp⟩

/-- A READ that is accepted in the at-once pace runs over the input of FSRC (R231). -/
theorem exec_read_accepted (s : State) (t : Terminator) (hacc : readAccepted s) (hpace : s.pace = .atOnce)
    (hin : finiteInput s.fsrc t) :
    exec .read s =
      .next (onRx s fun _ =>
        runTurns (frxTurn s.params) readSteps
          (frxAccept s.frx, inputOf s.fsrc.bytes t s.fsrc.skip)) := by
  obtain ⟨hreset, hidle⟩ := hacc
  obtain ⟨htail, hlost⟩ := hin
  have hsrc : s.fsrc = inputOf s.fsrc.bytes t s.fsrc.skip := by rw [inputOf, ← htail, ← hlost]
  rw [exec_read]
  refine congrArg _ (onRx_congr s _ _ ?_)
  simp only [readCommand, hreset, hidle, hpace, frxRead, findSource_known _ _ _ hlost, ← hsrc]
  simp

/-- Settles O12. -/
theorem readIsTheReadFunction : Obligations.ReadIsTheReadFunction := by
  unfold Obligations.ReadIsTheReadFunction
  intro s t hacc hpace hin
  obtain ⟨hshows, hleft⟩ := readRun_readEnds s.params s.frx s.fsrc.bytes t s.fsrc.skip _ _ rfl
  exact ⟨_, exec_read_accepted s t hacc hpace hin, rfl, hshows, hleft⟩

end Sys2Proof.Machine
end

section
/-! WRITE is the function `Write` (R246): a type or a length is refused, or the frame is built and handed to
FSNK whole.  So a READ of what a WRITE handed over shows the frame that the descriptor described (R75, R210). -/

namespace Sys2Proof.Machine

/-! ### A WRITE looks only at the descriptor -/

/-- Whatever a turn of FTX does, the descriptor stays (R239). -/
theorem ftxTurn_sameDescriptor (p : Config.Params) (x : Ftx) (r r' : Ftx × Sink)
    (hx : sameDescriptor x r.1) (hr : ftxTurn p r = some r') : sameDescriptor x r'.1 := by
  rcases ftxTurn_cases p r with ⟨-, e⟩ | ⟨-, -, e⟩ | ⟨-, -, e⟩ <;> rw [e] at hr
  · cases hr
  · cases hr
    rcases ftxPrepare_cases p r.1 with ⟨-, e⟩ | ⟨k, -, e⟩
    · rw [e]; exact hx
    · rw [e]
      rcases ftxEncode_cases p (encoderOf k) r.1 with ⟨-, e⟩ | ⟨-, -, e⟩ | ⟨-, -, e⟩ <;> rw [e] <;>
        exact hx
  · rcases ftxEmit_cases r with ⟨-, e⟩ | ⟨_, -, e⟩ | ⟨-, e⟩ <;> rw [e] at hr <;> cases hr <;> exact hx

theorem txEntries_ftxAccept (x : Ftx) (i n : Nat) : txEntries (ftxAccept x) i n = txEntries x i n := by
  induction n generalizing i with
  | zero => rfl
  | succ n ih => rw [txEntries, txEntries, ih]; rfl

/-- Acceptance leaves what the descriptor describes (R239). -/
theorem txFrame_ftxAccept (x : Ftx) (k : FrameKind) : txFrame (ftxAccept x) k = txFrame x k := by
  cases k with
  | settings => simp only [txFrame, txBody, txEntries_ftxAccept]; rfl
  | _ => rfl

theorem writeFrame_ftxAccept (p : Config.Params) (x : Ftx) : writeFrame p (ftxAccept x) = writeFrame p x := by
  have hlen (k : FrameKind) : (encoderOf k).len (ftxAccept x) = (encoderOf k).len x := by cases k <;> rfl
  simp only [writeFrame, ftxAccept_type, hlen, txFrame_ftxAccept]

/-! ### The bytes of a built frame -/

/-- The bytes of the frame that the descriptor describes are the two words that WRITE builds and the payload
(R243, R246). -/
theorem frameBytes_txFrame (x : Ftx) (k : FrameKind) (hk : kindOfCode x.type = some k) :
    frameBytes (txFrame x k) =
      be32 (writtenHeader x.version x.type) ++
        (be32 (x.flags ++ BitVec.ofNat 24 ((encoderOf k).payload x).length) ++ (encoderOf k).payload x) := by
  rw [encoder_payload_eq_bodyPayload, frameBytes, List.append_assoc, txFrame, bodyKind_txBody,
    frameCode_of_kindOfCode x.type k hk, hdrPack_writtenHeader, flPack_ofNat]

/-- A frame that waits for the sink is handed over as its two words and its payload (R244). -/
theorem txFrameBytes_ftxHolds (q : Bytes) (fl hw : Word) (x : Ftx) (h24 : q.length ≤ 16777215) :
    txFrameBytes (ftxHolds q fl hw x) = be32 hw ++ (be32 fl ++ q) := by
  have hlen : (BitVec.ofNat 36 q.length).toNat = q.length := by
    rw [BitVec.toNat_ofNat]; exact Nat.mod_eq_of_lt (by omega)
  simp only [txFrameBytes, ftxHolds, hlen, memReadFree_of_memRead _ _ _ _ _ (memRead_memWrite [] 0 q),
    List.append_assoc]

/-- A `Write` up to the sink is refused as the steps of WRITE refuse it, or it gives the bytes that the built
frame is handed over as (R240 to R243). -/
theorem ftxPrepare_writeFrame (p : Config.Params) (x : Ftx) :
    (∃ e y, writeFrame p x = .error e ∧ ftxPrepare p x = ftxRaise e y) ∨
    (∃ q fl hw, writeFrame p x = .ok (be32 hw ++ (be32 fl ++ q)) ∧ q.length ≤ 16777215 ∧
      ftxPrepare p x = ftxHolds q fl hw x) := by
  rcases ftxPrepare_cases p x with ⟨hk, e⟩ | ⟨k, hk, e⟩
  · exact .inl ⟨_, x, by simp [writeFrame, hk], e⟩
  · rcases ftxEncode_cases p (encoderOf k) x with ⟨h24, e'⟩ | ⟨h24, hcap, e'⟩ | ⟨h24, hcap, e'⟩
    · exact .inl ⟨_, _, by simp [writeFrame, hk, h24], e.trans e'⟩
    · exact .inl ⟨_, _, by simp [writeFrame, hk, Nat.not_lt.2 h24, hcap], e.trans e'⟩
    · refine .inr ⟨(encoderOf k).payload x, _, _, ?_, (encoder_payload_length k x).trans_le h24,
        (e.trans e').trans (ftxBuild_eq_ftxHolds k x)⟩
      simp only [writeFrame, hk, if_neg (Nat.not_lt.2 h24), if_neg (Nat.not_lt.2 hcap),
        frameBytes_txFrame x k hk]

/-! ### WRITE to its end -/

/-- What FTX and FSNK show once the bytes `b` have been handed to the sink: success and all of them there, the
sink's error and some of them there, or a WRITE that waits and none there (R62, R245). -/
def SinkAnswered (b : Bytes) (snk : Sink) (r : Ftx × Sink) : Prop :=
  match snk.mode with
  | .accepts =>
    r.1.status = statusSucceeded ∧ r.1.written.toNat = b.length ∧
      r.2 = { snk with accepted := snk.accepted ++ b }
  | .fails e =>
    r.1.status = statusRaised (.ioError e) ∧
      ∃ n, r.2 = { snk with accepted := snk.accepted ++ b.take n }
  | .silent => r.1.status = statusAccepted ∧ r.2 = snk

/-- A WRITE has gone as a value of `Write` says: its error with nothing emitted, or the words and the length of
the bytes shown and the bytes handed to the sink. -/
def WriteEnds (res : Except OpError Bytes) (snk : Sink) (r : Ftx × Sink) : Prop :=
  match res with
  | .error e => r.1.status = statusRaised e ∧ r.2 = snk
  | .ok b =>
    r.1.hw = be32At b 0 ∧ r.1.fl = be32At b 4 ∧ r.1.len.toNat + 8 = b.length ∧ SinkAnswered b snk r

@[simp] theorem txFrameBytes_length (x : Ftx) : (txFrameBytes x).length = 8 + x.len.toNat := by
  simp only [txFrameBytes, List.length_append, be32_length, memReadFree_length]

/-- The sink is handed the bytes of the built frame, and its answer ends the WRITE (R244, R245).  TX_WRITTEN has
room for their number. -/
theorem ftxEmit_sinkAnswered (x : Ftx) (snk : Sink) (hacc : x.status = statusAccepted)
    (h24 : x.len.toNat ≤ 16777215) :
    SinkAnswered (txFrameBytes x) snk ((ftxEmit (x, snk)).getD (x, snk)) := by
  obtain ⟨accepted, mode⟩ := snk
  rcases ftxEmit_cases (x, ⟨accepted, mode⟩) with ⟨hmode, e⟩ | ⟨c, hmode, e⟩ | ⟨hmode, e⟩ <;>
    change mode = _ at hmode <;> subst hmode <;> rw [e]
  · refine ⟨rfl, ?_, rfl⟩
    rw [Option.getD_some, ftxSucceed_written, txFrameBytes_length, BitVec.toNat_ofNat]
    exact Nat.mod_eq_of_lt (show 8 + x.len.toNat < 2 ^ 25 by omega)
  · exact ⟨rfl, _, rfl⟩
  · exact ⟨hacc, rfl⟩

/-- The words and the length of a built frame stay, however the sink answers (R34). -/
theorem ftxEmit_words (x : Ftx) (snk : Sink) (he : x.emitting = true) :
    ((ftxEmit (x, snk)).getD (x, snk)).1.hw = x.hw ∧ ((ftxEmit (x, snk)).getD (x, snk)).1.fl = x.fl ∧
      ((ftxEmit (x, snk)).getD (x, snk)).1.len = x.len := by
  rcases ftxEmit_cases (x, snk) with ⟨-, e⟩ | ⟨c, -, e⟩ | ⟨-, e⟩ <;> rw [e]
  · exact ⟨rfl, rfl, rfl⟩
  · exact ⟨if_pos he, if_pos he, rfl⟩
  · exact ⟨rfl, rfl, rfl⟩

/-- The second turn of a WRITE, on a built frame. -/
theorem ftxHolds_writeEnds (p : Config.Params) (q : Bytes) (fl hw : Word) (x : Ftx) (snk : Sink)
    (h24 : q.length ≤ 16777215) (hacc : x.status = statusAccepted) :
    WriteEnds (.ok (be32 hw ++ (be32 fl ++ q))) snk
      (runTurns (ftxTurn p) 1 (ftxHolds q fl hw x, snk)) := by
  have hlen : (ftxHolds q fl hw x).len.toNat = q.length := by
    rw [ftxHolds, BitVec.toNat_ofNat]; exact Nat.mod_eq_of_lt (by omega)
  have hturn : ftxTurn p (ftxHolds q fl hw x, snk) = ftxEmit (ftxHolds q fl hw x, snk) := by
    simp [ftxTurn, ftxHolds, hacc]
  have hsink := ftxEmit_sinkAnswered (ftxHolds q fl hw x) snk hacc (hlen.trans_le h24)
  obtain ⟨hhw, hfl, hkeptLen⟩ := ftxEmit_words (ftxHolds q fl hw x) snk rfl
  rw [txFrameBytes_ftxHolds q fl hw x h24] at hsink
  rw [runTurns_succ, runTurns_zero, hturn]
  refine ⟨?_, ?_, ?_, hsink⟩
  · rw [hhw, be32At_be32_append]; rfl
  · rw [hfl, be32At_be32_skip hw _ 0, be32At_be32_append]; rfl
  · rw [hkeptLen, hlen]
    simp only [List.length_append, be32_length]
    omega

/-- A WRITE from its acceptance goes as `Write` says. -/
theorem writeRun_writeEnds (p : Config.Params) (x : Ftx) (snk : Sink) :
    WriteEnds (writeFrame p x) snk (runTurns (ftxTurn p) writeSteps (ftxAccept x, snk)) := by
  have hturn : ftxTurn p (ftxAccept x, snk) = some (ftxPrepare p (ftxAccept x), snk) := by simp [ftxTurn]
  rw [← writeFrame_ftxAccept, writeSteps, runTurns_some _ _ _ _ hturn]
  rcases ftxPrepare_writeFrame p (ftxAccept x) with ⟨e, y, hres, hend⟩ | ⟨q, fl, hw, hres, h24, hbuilt⟩
  · rw [hres, hend, runTurns_none _ _ _ (ftxTurn_of_idle p _ rfl)]
    exact ⟨rfl, rfl⟩
  · rw [hres, hbuilt]
    exact ftxHolds_writeEnds p q fl hw (ftxAccept x) snk h24 rfl

/-- A WRITE that is accepted in the at-once pace (R239). -/
theorem exec_write_accepted (s : State) (hacc : writeAccepted s) (hpace : s.pace = .atOnce) :
    exec .write s =
      .next (onTx s fun r => runTurns (ftxTurn s.params) writeSteps (ftxAccept r.1, r.2)) := by
  obtain ⟨hreset, hidle⟩ := hacc
  rw [exec_write]
  simp [onTx, writeCommand, hreset, hidle, hpace, ftxWrite]

/-- Settles O33. -/
theorem writeIsTheWriteFunction : Obligations.WriteIsTheWriteFunction := by
  unfold Obligations.WriteIsTheWriteFunction
  intro s hacc hpace
  exact ⟨_, exec_write_accepted s hacc hpace, rfl,
    runTurns_keeps (ftxTurn s.params) (fun r => sameDescriptor s.ftx r.1)
      (ftxTurn_sameDescriptor s.params s.ftx) writeSteps (ftxAccept s.ftx, s.fsnk)
      ⟨rfl, rfl, rfl, rfl, rfl, rfl, rfl, rfl, rfl⟩,
    writeRun_writeEnds s.params s.ftx s.fsnk⟩

/-! ### READ after WRITE -/

/-- The bytes that a WRITE appends to a sink that accepts are those of the frame that the descriptor
describes. -/
theorem write_appends_frame (s u : State) (k : FrameKind) (hacc : writeAccepted s) (hpace : s.pace = .atOnce)
    (hsink : s.fsnk.mode = .accepts) (hk : kindOfCode s.ftx.type = some k)
    (h24 : (encoderOf k).len s.ftx ≤ 16777215) (hcap : (encoderOf k).len s.ftx ≤ s.params.payloadMax)
    (hu : exec .write s = .next u) :
    u.fsnk.accepted = s.fsnk.accepted ++ frameBytes (txFrame s.ftx k) := by
  obtain ⟨u', hu', -, -, hends⟩ := writeIsTheWriteFunction s hacc hpace
  cases hu.symm.trans hu'
  have hres : writeFrame s.params s.ftx = .ok (frameBytes (txFrame s.ftx k)) := by
    simp only [writeFrame, hk, if_neg (Nat.not_lt.2 h24), if_neg (Nat.not_lt.2 hcap)]
  rw [hres, hsink] at hends
  obtain ⟨-, -, -, -, -, hfsnk⟩ := hends
  rw [hfsnk]

/-- Settles O35: WRITE appends the bytes of the frame, `Read` of these is the frame, and READ is `Read`. -/
theorem writtenFramesReadBack : Obligations.WrittenFramesReadBack := by
  unfold Obligations.WrittenFramesReadBack
  intro s u r t k rest hacc hpace hsink hk h24 hcap hu hracc hrpace hparams hin hbytes
  rw [write_appends_frame s u k hacc hpace hsink hk h24 hcap hu, List.drop_left] at hbytes
  have hlen : (bodyPayload (txFrame s.ftx k).body).length = (encoderOf k).len s.ftx := by
    rw [← encoder_payload_length, encoder_payload_eq_bodyPayload]; rfl
  have hread := readFrame_frameBytes r.params (txFrame s.ftx k) rest t (hlen.trans_le h24)
    (by rw [hlen, hparams]; exact hcap)
  obtain ⟨w, hw, -, hshows, hleft⟩ := readIsTheReadFunction r t hracc hrpace hin
  rw [hbytes, hread] at hshows hleft
  obtain ⟨hstatus, hframe⟩ := hshows
  exact ⟨w, hw, hstatus, hframe, hleft rest rfl⟩

end Sys2Proof.Machine
end

section
/-! `Read` result by result (R238): the case of `Read` for each way that its input can end, and what the
dispatch can give. -/

namespace Sys2Proof.Machine

/-! ### The cases of `Read` -/

theorem readFrame_empty (p : Config.Params) : readFrame p [] .ended = (.error .endOfStream, some []) :=
  if_pos ⟨rfl, rfl⟩

theorem readFrame_shortHeader (p : Config.Params) (b : Bytes) (t : Terminator)
    (hb : ¬ (b = [] ∧ t = .ended)) (h4 : b.length < 4) :
    readFrame p b t = (.error (shortInput .inHeaderWord t), none) := by
  rw [readFrame, if_neg hb, if_pos h4]

/-- An input of a HeaderWord or more is not the empty one. -/
theorem not_empty_of_header (b : Bytes) (t : Terminator) (h4 : 4 ≤ b.length) : ¬ (b = [] ∧ t = .ended) := by
  rintro ⟨rfl, -⟩
  cases h4

theorem readFrame_dataFrame (p : Config.Params) (b : Bytes) (t : Terminator) (h4 : 4 ≤ b.length)
    (hc : hdrControl (be32At b 0) = 0#1) :
    readFrame p b t = (.error .unsupportedDataFrame, some (b.drop 4)) := by
  rw [readFrame, if_neg (not_empty_of_header b t h4), if_neg (by omega), if_pos hc]

theorem readFrame_shortFlagLength (p : Config.Params) (b : Bytes) (t : Terminator) (h4 : 4 ≤ b.length)
    (hc : hdrControl (be32At b 0) = 1#1) (h8 : b.length < 8) :
    readFrame p b t = (.error (shortInput .inFlagLengthWord t), none) := by
  rw [readFrame, if_neg (not_empty_of_header b t h4), if_neg (by omega), hc, if_neg (by decide), if_pos h8]

theorem readFrame_limitExceeded (p : Config.Params) (b : Bytes) (t : Terminator) (h8 : 8 ≤ b.length)
    (hc : hdrControl (be32At b 0) = 1#1) (hcap : p.payloadMax < (flLength (be32At b 4)).toNat) :
    readFrame p b t = (.error (.protocolViolation .limitExceeded), some (b.drop 8)) := by
  rw [readFrame, if_neg (not_empty_of_header b t (by omega)), if_neg (by omega), hc, if_neg (by decide),
    if_neg (by omega), if_pos hcap]

theorem readFrame_shortPayload (p : Config.Params) (b : Bytes) (t : Terminator) (h8 : 8 ≤ b.length)
    (hc : hdrControl (be32At b 0) = 1#1) (hcap : (flLength (be32At b 4)).toNat ≤ p.payloadMax)
    (hl : b.length < 8 + (flLength (be32At b 4)).toNat) :
    readFrame p b t = (.error (shortInput .inPayload t), none) := by
  rw [readFrame, if_neg (not_empty_of_header b t (by omega)), if_neg (by omega), hc, if_neg (by decide),
    if_neg (by omega), if_neg (by omega), if_pos hl]

theorem readFrame_whole (p : Config.Params) (b : Bytes) (t : Terminator)
    (hc : hdrControl (be32At b 0) = 1#1) (hcap : (flLength (be32At b 4)).toNat ≤ p.payloadMax)
    (hl : 8 + (flLength (be32At b 4)).toNat ≤ b.length) :
    readFrame p b t =
      (readPayload (be32At b 0) (be32At b 4) ((b.drop 8).take (flLength (be32At b 4)).toNat),
        some (b.drop (8 + (flLength (be32At b 4)).toNat))) := by
  rw [readFrame, if_neg (not_empty_of_header b t (by omega)), if_neg (by omega), hc, if_neg (by decide),
    if_neg (by omega), if_neg (by omega), if_neg (by omega)]

/-- What the dispatch on a payload can give: a Frame, a type that is refused, or a payload of the wrong size
(R235, R236). -/
theorem readPayload_cases (w0 w1 : Word) (q : Bytes) :
    (∃ f, readPayload w0 w1 q = .ok f) ∨
    (∃ why, readPayload w0 w1 q = .error (.unsupportedFrameType why)) ∨
    readPayload w0 w1 q = .error (.protocolViolation .payloadTooShort) ∨
    readPayload w0 w1 q = .error (.protocolViolation .payloadTooLong) := by
  unfold readPayload
  split
  · exact .inr (.inl ⟨_, rfl⟩)
  · split
    · exact .inr (.inl ⟨_, rfl⟩)
    · exact .inr (.inr (.inl rfl))
    · split
      · exact .inr (.inr (.inr rfl))
      · exact .inl ⟨_, rfl⟩

/-- `Read` answers EndOfStream for the empty input that has ended, and for no other (R263). -/
theorem readFrame_endOfStream_iff (p : Config.Params) (b : Bytes) (t : Terminator) :
    (readFrame p b t).1 = .error .endOfStream ↔ b = [] ∧ t = .ended := by
  constructor
  · intro h
    by_contra hb
    have hshort (point : TruncPoint) : shortInput point t ≠ .endOfStream := by
      cases t <;> simp [shortInput]
    rw [readFrame, if_neg hb] at h
    split_ifs at h
    · exact hshort _ (Except.error.inj h)
    · cases h
    · exact hshort _ (Except.error.inj h)
    · cases h
    · exact hshort _ (Except.error.inj h)
    · rcases readPayload_cases (be32At b 0) (be32At b 4)
        ((b.drop 8).take (flLength (be32At b 4)).toNat) with ⟨_, e⟩ | ⟨_, e⟩ | e | e <;>
        · rw [e] at h; cases h
  · rintro ⟨rfl, rfl⟩
    rw [readFrame_empty]

end Sys2Proof.Machine
end

section
/-! Where FSRC stands after a READ (R273). -/

namespace Sys2Proof.Machine

/-- Settles O14: each way that a READ over a finite input can end is the case of `Read` for that input, which
names the outcome. -/
theorem streamPositionAfterRead : Obligations.StreamPositionAfterRead := by
  unfold Obligations.StreamPositionAfterRead
  intro s u t hacc hpace hin hu
  rw [exec_read_accepted s t hacc hpace hin] at hu
  cases hu
  obtain ⟨htail, hlost⟩ := hin
  rw [onRx_fsrc]
  generalize hrun : runTurns (frxTurn s.params) readSteps
    (frxAccept s.frx, inputOf s.fsrc.bytes t s.fsrc.skip) = r
  obtain ⟨y, src⟩ := r
  rcases readRun_cases s.params s.frx s.fsrc.bytes t s.fsrc.skip y src hrun with
    ⟨hb, rfl, -, rfl⟩ | ⟨hb, h4, rfl, -, rfl⟩ | ⟨e, h4, rfl, -, rfl⟩ | ⟨h4, hc, -, rfl⟩ |
    ⟨h4, h8, hc, rfl, -, rfl⟩ | ⟨e, h4, h8, hc, rfl, -, rfl⟩ | ⟨h8, hc, hcap, -, rfl⟩ |
    ⟨h8, hc, hcap, hl, rfl, -, rfl⟩ | ⟨e, h8, hc, hcap, hl, rfl, -, rfl⟩ | ⟨hc, hcap, hl, -, rfl⟩
  · rw [hb, readFrame_empty, ← htail, ← hlost, ← hb]
  · rw [readFrame_shortHeader _ _ _ (fun h => hb h.1) h4, ← htail]
    rfl
  · rw [readFrame_shortHeader _ _ _ (by simp) h4]
    rfl
  · rw [readFrame_dataFrame _ _ _ h4 hc, ← htail]
  · rw [readFrame_shortFlagLength _ _ _ h4 hc h8, ← htail]
    rfl
  · rw [readFrame_shortFlagLength _ _ _ h4 hc h8]
    rfl
  · rw [readFrame_limitExceeded _ _ _ h8 hc hcap, ← htail]
  · rw [readFrame_shortPayload _ _ _ h8 hc hcap hl, ← htail]
    rfl
  · rw [readFrame_shortPayload _ _ _ h8 hc hcap hl]
    rfl
  · rw [readFrame_whole _ _ _ hc hcap hl, ← htail, ← hlost]
    rcases readPayload_cases (be32At s.fsrc.bytes 0) (be32At s.fsrc.bytes 4)
      ((s.fsrc.bytes.drop 8).take (flLength (be32At s.fsrc.bytes 4)).toNat) with
      ⟨_, e⟩ | ⟨_, e⟩ | e | e <;> rw [e]

end Sys2Proof.Machine
end

section
/-! What a READ leaves readable (R270): the words and bytes that FRX received of the frame, and what a result of
`Read` says of the registers that hold a value. -/

namespace Sys2Proof.Machine

/-! ### The words and bytes received -/

/-- The payload bytes that a READ over an input stores (R234, R269): none where the header is not there whole or
its length is refused, and none where the source fails; those that came where the input ends in the payload. -/
def payloadReceived (p : Config.Params) (b : Bytes) (t : Terminator) : Bytes :=
  if (8 ≤ b.length ∧ hdrControl (be32At b 0) = 1#1) ∧ (flLength (be32At b 4)).toNat ≤ p.payloadMax ∧
      (8 + (flLength (be32At b 4)).toNat ≤ b.length ∨ t = .ended) then
    (b.drop 8).take (flLength (be32At b 4)).toNat
  else []

/-- FRX once it has received as many words of a frame's header as an input gives it (R232 to R234). -/
def frxWordsReceived (b : Bytes) (x : Frx) : Frx :=
  if 8 ≤ b.length ∧ hdrControl (be32At b 0) = 1#1 then
    frxGotLength (be32At b 4) (frxGotHeader (be32At b 0) (frxAccept x))
  else if 4 ≤ b.length then frxGotHeader (be32At b 0) (frxAccept x)
  else frxAccept x

/-- FRX once it has received all that it takes of an input, before the READ ends. -/
def frxReceived (p : Config.Params) (b : Bytes) (t : Terminator) (x : Frx) : Frx :=
  frxStore (payloadReceived p b t) (frxWordsReceived b x)

/-- Two states of FRX hold the same words and bytes of a frame. -/
structure SameReceived (y z : Frx) : Prop where
  hwv : y.hwv = z.hwv
  hw : y.hw = z.hw
  flv : y.flv = z.flv
  fl : y.fl = z.fl
  cnt : y.cnt = z.cnt
  buf : y.buf = z.buf

theorem sameReceived_frxRaise (e : OpError) (x : Frx) : SameReceived (frxRaise e x) x :=
  ⟨rfl, rfl, rfl, rfl, rfl, rfl⟩

theorem sameReceived_frxDispatch (d : Option (Bytes → DecResult)) (p : Bytes) (x : Frx) :
    SameReceived (frxDispatch d p x) x := by
  rcases frxDispatch_cases d p x with
    ⟨-, e⟩ | ⟨_, -, ⟨-, e⟩ | ⟨-, e⟩ | ⟨body, _, -, ⟨-, e⟩ | ⟨-, e⟩⟩⟩ <;> rw [e]
  iterate 4 exact sameReceived_frxRaise _ x
  obtain ⟨hhwv, hflv, hhw, hfl, hcnt, hbuf⟩ := placeBody_frame body p.length x
  exact ⟨hhwv, hhw, hflv, hfl, hcnt, hbuf⟩

/-- The end of a READ, whichever it is, leaves the words and bytes received as they are (R237, R272). -/
theorem readRun_sameReceived (p : Config.Params) (x : Frx) (b : Bytes) (t : Terminator) (k : Nat) :
    SameReceived (runTurns (frxTurn p) readSteps (frxAccept x, inputOf b t k)).1
      (frxReceived p b t x) := by
  generalize hrun : runTurns (frxTurn p) readSteps (frxAccept x, inputOf b t k) = r
  obtain ⟨y, src⟩ := r
  unfold frxReceived payloadReceived frxWordsReceived
  rcases readRun_cases p x b t k y src hrun with
    ⟨rfl, -, rfl, -⟩ | ⟨-, h4, -, rfl, -⟩ | ⟨e, h4, -, rfl, -⟩ | ⟨h4, hc, rfl, -⟩ |
    ⟨h4, h8, -, -, rfl, -⟩ | ⟨e, h4, h8, -, -, rfl, -⟩ | ⟨h8, hc, hcap, rfl, -⟩ |
    ⟨h8, hc, hcap, hl, rfl, rfl, -⟩ | ⟨e, h8, hc, hcap, hl, rfl, rfl, -⟩ | ⟨hc, hcap, hl, rfl, -⟩
  · exact sameReceived_frxRaise _ _
  · rw [if_neg (by omega), if_neg (by omega), if_neg (by omega)]
    exact sameReceived_frxRaise _ _
  · rw [if_neg (by omega), if_neg (by omega), if_neg (by omega)]
    exact sameReceived_frxRaise _ _
  · rw [if_neg (by simp [hc]), if_neg (by simp [hc]), if_pos h4]
    exact sameReceived_frxRaise _ _
  · rw [if_neg (by omega), if_neg (by omega), if_pos h4]
    exact sameReceived_frxRaise _ _
  · rw [if_neg (by omega), if_neg (by omega), if_pos h4]
    exact sameReceived_frxRaise _ _
  · rw [if_neg (by omega), if_pos ⟨h8, hc⟩]
    exact sameReceived_frxRaise _ _
  · rw [if_pos ⟨⟨h8, hc⟩, hcap, .inr rfl⟩, if_pos ⟨h8, hc⟩,
      List.take_of_length_le (by rw [List.length_drop]; omega)]
    exact sameReceived_frxRaise _ _
  · rw [if_neg (by simp; omega), if_pos ⟨h8, hc⟩]
    exact sameReceived_frxRaise _ _
  · rw [if_pos ⟨⟨by omega, hc⟩, hcap, .inl hl⟩, if_pos ⟨by omega, hc⟩]
    exact sameReceived_frxDispatch _ _ _

/-- RX_HW is there from the fourth byte on (R23). -/
theorem frxWordsReceived_header (b : Bytes) (x : Frx) :
    ((frxWordsReceived b x).hwv = true ↔ 4 ≤ b.length) ∧
      (4 ≤ b.length → (frxWordsReceived b x).hw = be32At b 0) := by
  unfold frxWordsReceived
  split_ifs with hwhole h4
  · exact ⟨iff_of_true rfl (by omega), fun _ => rfl⟩
  · exact ⟨iff_of_true rfl h4, fun _ => rfl⟩
  · exact ⟨iff_of_false (by simp) h4, fun h => absurd h h4⟩

/-- RX_FL is there from the eighth byte of a control frame on (R24, R233). -/
theorem frxWordsReceived_flagLength (b : Bytes) (x : Frx) :
    ((frxWordsReceived b x).flv = true ↔ 8 ≤ b.length ∧ hdrControl (be32At b 0) = 1#1) ∧
      (8 ≤ b.length ∧ hdrControl (be32At b 0) = 1#1 → (frxWordsReceived b x).fl = be32At b 4) := by
  unfold frxWordsReceived
  split_ifs with hwhole h4
  · exact ⟨iff_of_true rfl hwhole, fun _ => rfl⟩
  · exact ⟨iff_of_false (by simp [frxGotHeader]) hwhole, fun h => absurd h hwhole⟩
  · exact ⟨iff_of_false (by simp) hwhole, fun h => absurd h hwhole⟩

/-- Nothing of the payload is stored with the header words. -/
theorem frxWordsReceived_buf (b : Bytes) (x : Frx) : (frxWordsReceived b x).buf = [] := by
  unfold frxWordsReceived
  split_ifs <;> rfl

/-- RX_CNT of what was received (R25). -/
theorem payloadReceived_length (p : Config.Params) (b : Bytes) (t : Terminator) :
    (payloadReceived p b t).length =
      if (8 ≤ b.length ∧ hdrControl (be32At b 0) = 1#1) ∧
          (flLength (be32At b 4)).toNat ≤ p.payloadMax then
        if 8 + (flLength (be32At b 4)).toNat ≤ b.length then (flLength (be32At b 4)).toNat
        else if t = .ended then b.length - 8 else 0
      else 0 := by
  unfold payloadReceived
  by_cases hlet : (8 ≤ b.length ∧ hdrControl (be32At b 0) = 1#1) ∧
      (flLength (be32At b 4)).toNat ≤ p.payloadMax
  · rw [if_pos hlet]
    by_cases hl : 8 + (flLength (be32At b 4)).toNat ≤ b.length
    · rw [if_pos hl, if_pos ⟨hlet.1, hlet.2, .inl hl⟩, List.length_take, List.length_drop]
      omega
    · rw [if_neg hl]
      by_cases ht : t = .ended
      · rw [if_pos ht, if_pos ⟨hlet.1, hlet.2, .inr ht⟩, List.length_take, List.length_drop]
        omega
      · rw [if_neg ht, if_neg (by simp [hl, ht])]
        rfl
  · rw [if_neg hlet, if_neg (fun h => hlet ⟨h.1, h.2.1⟩)]
    rfl

/-- The bytes stored are no more than a FlagLengthWord can announce. -/
theorem payloadReceived_length_lt (p : Config.Params) (b : Bytes) (t : Terminator) :
    (payloadReceived p b t).length < 2 ^ 24 := by
  unfold payloadReceived
  split_ifs
  · exact (List.length_take_le _ _).trans_lt (flLength (be32At b 4)).isLt
  · decide

/-- The bytes stored are those after the header. -/
theorem payloadReceived_eq_take (p : Config.Params) (b : Bytes) (t : Terminator) :
    payloadReceived p b t = (b.drop 8).take (payloadReceived p b t).length := by
  unfold payloadReceived
  split_ifs
  · rw [List.length_take, ← List.take_eq_take_min]
  · rfl

/-- RX_CNT and RXBUF of a FRX that holds what was received (R25, R67). -/
theorem SameReceived.payload {p : Config.Params} {b : Bytes} {t : Terminator} {x y : Frx}
    (h : SameReceived y (frxReceived p b t x)) :
    y.cnt.toNat = (payloadReceived p b t).length ∧ y.buf = memWrite [] 0 (payloadReceived p b t) := by
  rw [h.cnt, h.buf, frxReceived, frxStore_cnt, frxStore_buf, frxWordsReceived_buf, BitVec.toNat_ofNat,
    Nat.mod_eq_of_lt (payloadReceived_length_lt p b t)]
  exact ⟨rfl, rfl⟩

/-! ### The registers of a result -/

theorem bodyKind_of_rxBody (x : Frx) (k : FrameKind) (body : Body) (h : rxBody x k = some body) :
    bodyKind body = k := by
  cases k with
  | synStream | synReply | headers | settings =>
    obtain ⟨_, -, rfl⟩ := Option.map_eq_some_iff.1 h
    rfl
  | rstStream | ping | goAway | windowUpdate =>
    cases h
    rfl

/-- The type of the frame that the registers show is that of its body (R27). -/
theorem rxKind_of_rxFrame (x : Frx) (f : Frame) (h : rxFrame x = some f) :
    rxKind x = some (bodyKind f.body) := by
  unfold rxFrame at h
  split at h
  · cases h
  next k hk =>
    obtain ⟨body, hbody, rfl⟩ := Option.map_eq_some_iff.1 h
    rw [hk, bodyKind_of_rxBody x k body hbody]

/-- OK stands for a Frame (R26). -/
theorem ShowsResult.ok_iff {res : ReadResult} {y : Frx} (h : ShowsResult res y) :
    y.status.ok = true ↔ ∃ f, res = .ok f := by
  cases res with
  | ok f =>
    obtain ⟨hstatus, -⟩ := h
    exact iff_of_true (by rw [hstatus]; rfl) ⟨f, rfl⟩
  | error e =>
    obtain ⟨hstatus, -⟩ := h
    exact iff_of_false (by simp [hstatus, statusRaised]) (by simp)

/-- A frame-field register holds a value exactly after a Frame whose type names it (R27). -/
theorem ShowsResult.rxFieldValid_iff {res : ReadResult} {y : Frx} (h : ShowsResult res y) (j : Nat) :
    rxFieldValid y j = true ↔ ∃ f, res = .ok f ∧ j < namedFields (bodyKind f.body) := by
  cases res with
  | ok f =>
    obtain ⟨-, hframe⟩ := h
    simp [rxFieldValid, rxKind_of_rxFrame y f hframe]
  | error e =>
    obtain ⟨hstatus, -⟩ := h
    simp [rxFieldValid, rxKind, hstatus, statusRaised]

/-- EOS stands for EndOfStream, and fsm is AwaitingHeader again (R26, R230): the invariant ties both to the
status. -/
theorem ShowsResult.eos_fsm {p : Config.Params} {res : ReadResult} {y : Frx} (h : ShowsResult res y)
    (hinv : frxInv p y) : (y.eos = true ↔ res = .error .endOfStream) ∧ y.fsm = .awaitingHeader := by
  obtain ⟨-, -, heos, hfsm, -⟩ := hinv
  have hidle : y.status.busy = false → y.fsm = .awaitingHeader := by
    intro hb
    cases hf : y.fsm with
    | awaitingHeader => rfl
    | awaitingPayload => simp [hf, hb] at hfsm
  cases res with
  | ok f =>
    obtain ⟨hstatus, -⟩ := h
    rw [hstatus] at heos hidle
    exact ⟨heos.trans (iff_of_false (by decide) (by simp)), hidle rfl⟩
  | error e =>
    obtain ⟨hstatus, -⟩ := h
    rw [hstatus] at heos hidle
    refine ⟨heos.trans ?_, hidle rfl⟩
    simp [statusRaised, kindCode_endOfStream]

/-- A READ over a finite input ends in a FRX that meets the invariant. -/
theorem readRun_frxInv (p : Config.Params) (x : Frx) (src : Source) :
    frxInv p (runTurns (frxTurn p) readSteps (frxAccept x, src)).1 :=
  runTurns_keeps (frxTurn p) (fun r => frxInv p r.1) (frxTurn_inv p) readSteps (frxAccept x, src)
    (frxAccept_inv p x)

/-- Settles O13: the words and bytes are those received, and the rest goes by the result of `Read`. -/
theorem readLeavesReadable : Obligations.ReadLeavesReadable := by
  unfold Obligations.ReadLeavesReadable
  intro s u t hacc hpace hin hu b n l whole
  rw [exec_read_accepted s t hacc hpace hin] at hu
  cases hu
  rw [onRx_frx]
  have hrec := readRun_sameReceived s.params s.frx b t s.fsrc.skip
  obtain ⟨hshows, -⟩ := readRun_readEnds s.params s.frx b t s.fsrc.skip _ _ rfl
  obtain ⟨heos, hfsm⟩ := hshows.eos_fsm (readRun_frxInv s.params s.frx (inputOf b t s.fsrc.skip))
  obtain ⟨hhwv, hhw⟩ := frxWordsReceived_header b s.frx
  obtain ⟨hflv, hfl⟩ := frxWordsReceived_flagLength b s.frx
  obtain ⟨hcnt, hbuf⟩ := hrec.payload
  refine ⟨hrec.hwv ▸ hhwv, fun h4 => hrec.hw.trans (hhw h4), hrec.flv ▸ hflv,
    fun hw => hrec.fl.trans (hfl hw), hcnt.trans (payloadReceived_length s.params b t), ?_, fun a ha => ?_,
    fun j => (hshows.rxFieldValid_iff j).trans ?_, hshows.ok_iff.trans ?_, hfsm, heos.trans ?_⟩
  · rw [hcnt, hbuf, memRead_memWrite, ← payloadReceived_eq_take]
  · rw [hcnt] at ha
    rw [hbuf, storeGet_memWrite_after _ _ _ _ (by omega)]
    rfl
  · simp [b, Prod.ext_iff]
  · simp [b, Prod.ext_iff]
  · rw [readFrame_endOfStream_iff, ← List.length_eq_zero_iff]

end Sys2Proof.Machine
end

section
/-! The reset input (R290 to R292): its events leave the block at reset, with each stream as far as an
operation in progress had got. -/

namespace Sys2Proof.Machine

/-! ### The streams of an operation that a reset abandons -/

/-- A reset loses the position of a source that is being read, and of no other (R292). -/
theorem loseSource_ite (reading : Bool) (src : Source) :
    (if reading = true then loseSource src else src) = { src with lost := src.lost || reading } := by
  cases reading <;> simp [loseSource]

theorem resetNsrc_eq (x : Nvu) (src : Source) :
    resetNsrc x src = { src with lost := src.lost || (x.status.busy && !x.dir) } := by
  rw [← loseSource_ite]
  simp [resetNsrc]

/-- FSNK keeps the first bytes of a frame that was being handed over, as many as it had taken (R292, U24). -/
theorem resetFsnk_emitting (x : Ftx) (snk : Sink) (h : x.status.busy = true ∧ x.emitting = true) :
    resetFsnk x snk = sinkSome .fsnk snk (txFrameBytes x) x.free := if_pos h

theorem resetFsnk_other (x : Ftx) (snk : Sink) (h : ¬ (x.status.busy = true ∧ x.emitting = true)) :
    resetFsnk x snk = snk := if_neg h

/-- NSNK keeps the first bytes of the string that an NV.ENC was handing over (R292, U24). -/
theorem resetNsnk_enc (x : Nvu) (snk : Sink) (b : Bytes) (bs : List Bytes) (h : x.phase = .enc (b :: bs)) :
    resetNsnk x snk = sinkSome .nsnk snk b x.free := by simp [resetNsnk, h]

theorem resetNsnk_other (x : Nvu) (snk : Sink) (h : ∀ b bs, x.phase ≠ .enc (b :: bs)) :
    resetNsnk x snk = snk := by
  unfold resetNsnk
  split
  · exact absurd ‹_› (h _ _)
  all_goals rfl

/-! ### The event -/

/-- A step at an event of the reset input. -/
theorem step_resetLine (s : State) (a : Bool) (es : List Event) (h : s.events = .resetLine a :: es) :
    step s = .next { resetBlock { s with events := es } with resetLine := a } :=
  (step_event s _ es h).trans (stepEvent_noOperation _ _ rfl)

/-- Settles O53: the units are at reset, and the streams are where the lemmas above leave them. -/
theorem resetAbandonsOperations : Obligations.ResetAbandonsOperations := by
  unfold Obligations.ResetAbandonsOperations
  intro s a es hev
  refine ⟨_, step_resetLine s a es hev, rfl, rfl, rfl, rfl, rfl, rfl, rfl, rfl, rfl, rfl, rfl, rfl, rfl, rfl,
    rfl, rfl, rfl, rfl, rfl, rfl, rfl, loseSource_ite _ _, resetNsrc_eq _ _, ?_, ?_, rfl, rfl, rfl⟩
  · split
    · next hemit => exact ⟨_, resetFsnk_emitting s.ftx s.fsnk hemit⟩
    · next hemit => exact resetFsnk_other s.ftx s.fsnk hemit
  · split
    · next b bs hphase => exact ⟨_, resetNsnk_enc s.nvu s.nsnk b bs hphase⟩
    · next hphase => exact resetNsnk_other s.nvu s.nsnk hphase

end Sys2Proof.Machine
end

section
/-! A busy unit is closed to the host but for its STATUS register (R44, R295). -/

namespace Sys2Proof.Machine

/-- Every access of a busy unit asks for BUSY first. -/
theorem refused_of_busy {busy : Bool} {o : HostOutcome} (h : busy = true) :
    (if busy = true then (.refused .busyUnit : HostOutcome) else o) = .refused .busyUnit := if_pos h

/-! ### Registers that are read -/

/-- RX_HW to RX_TAIL_LEN. -/
theorem regRead_frx_busy (s : State) (reg : BitVec 8) (hb : s.frx.status.busy = true)
    (h2 : 0x02 ≤ reg.toNat) (h9 : reg.toNat ≤ 0x09) :
    hostAccess (.regRead reg) s = .refused .busyUnit := by
  have hreg : reg = 0x02 ∨ reg = 0x03 ∨ reg = 0x04 ∨ reg = 0x05 ∨ reg = 0x06 ∨ reg = 0x07 ∨ reg = 0x08 ∨
      reg = 0x09 := by bv_omega
  rcases hreg with rfl | rfl | rfl | rfl | rfl | rfl | rfl | rfl <;> exact refused_of_busy hb

/-- TX_TYPE to TX_WRITTEN. -/
theorem regRead_ftx_busy (s : State) (reg : BitVec 8) (hb : s.ftx.status.busy = true)
    (h12 : 0x12 ≤ reg.toNat) (h1C : reg.toNat ≤ 0x1C) :
    hostAccess (.regRead reg) s = .refused .busyUnit := by
  have hreg : reg = 0x12 ∨ reg = 0x13 ∨ reg = 0x14 ∨ reg = 0x15 ∨ reg = 0x16 ∨ reg = 0x17 ∨ reg = 0x18 ∨
      reg = 0x19 ∨ reg = 0x1A ∨ reg = 0x1B ∨ reg = 0x1C := by bv_omega
  rcases hreg with rfl | rfl | rfl | rfl | rfl | rfl | rfl | rfl | rfl | rfl | rfl <;>
    exact refused_of_busy hb

/-! ### Registers that are written -/

/-- The registers that the host may write apart from the CMD registers (R42): the descriptor and CTRL. -/
def writableRegs : List (BitVec 8) := [0x12, 0x13, 0x14, 0x15, 0x16, 0x17, 0x18, 0x30]

theorem not_mem_writableRegs (reg : BitVec 8)
    (h : reg.toNat ≤ 0x11 ∨ 0x19 ≤ reg.toNat ∧ reg.toNat ≤ 0x2F) : reg ∉ writableRegs := by
  simp only [writableRegs, List.mem_cons, List.not_mem_nil, or_false, BitVec.toNat_eq,
    BitVec.ofNat_eq_ofNat, BitVec.toNat_ofNat]
  omega

/-- A write of a read-only register of a busy unit is refused. -/
theorem regWrite_readOnlyBusy (s : State) (reg : BitVec 8) (d : PortData) (h : reg ∉ writableRegs)
    (hb : readOnlyBusy reg s = true) : hostAccess (.regWrite reg d) s = .refused .busyUnit := by
  simp only [writableRegs, List.mem_cons, List.not_mem_nil, or_false, not_or, BitVec.ofNat_eq_ofNat] at h
  simp [hostAccess, regWrite, h, hb]

/-- RX_STATUS to RX_TAIL_LEN. -/
theorem regWrite_frx_busy (s : State) (reg : BitVec 8) (d : PortData) (hb : s.frx.status.busy = true)
    (h1 : 0x01 ≤ reg.toNat) (h9 : reg.toNat ≤ 0x09) :
    hostAccess (.regWrite reg d) s = .refused .busyUnit :=
  regWrite_readOnlyBusy s reg d (not_mem_writableRegs reg (by omega)) ((if_pos ⟨h1, h9⟩).trans hb)

/-- TX_STATUS to TX_WRITTEN: the descriptor, and the read-only registers on both sides of it. -/
theorem regWrite_ftx_busy (s : State) (reg : BitVec 8) (d : PortData) (hb : s.ftx.status.busy = true)
    (h11 : 0x11 ≤ reg.toNat) (h1C : reg.toNat ≤ 0x1C) :
    hostAccess (.regWrite reg d) s = .refused .busyUnit := by
  by_cases hdesc : 0x12 ≤ reg.toNat ∧ reg.toNat ≤ 0x18
  · obtain ⟨h12, h18⟩ := hdesc
    have hreg : reg = 0x12 ∨ reg = 0x13 ∨ reg = 0x14 ∨ reg = 0x15 ∨ reg = 0x16 ∨ reg = 0x17 ∨
        reg = 0x18 := by bv_omega
    rcases hreg with rfl | rfl | rfl | rfl | rfl | rfl | rfl <;> exact refused_of_busy hb
  · have hro : readOnlyBusy reg s = s.ftx.status.busy := by
      rw [readOnlyBusy, if_neg (by omega), if_pos]
      rw [BitVec.toNat_eq]
      simp only [BitVec.ofNat_eq_ofNat, BitVec.toNat_ofNat]
      omega
    exact regWrite_readOnlyBusy s reg d (not_mem_writableRegs reg (by omega)) (hro.trans hb)

/-- NV_STATUS to NV_BYTES. -/
theorem regWrite_nvu_busy (s : State) (reg : BitVec 8) (d : PortData) (hb : s.nvu.status.busy = true)
    (h21 : 0x21 ≤ reg.toNat) (h23 : reg.toNat ≤ 0x23) :
    hostAccess (.regWrite reg d) s = .refused .busyUnit := by
  have hreg : reg = 0x21 ∨ reg = 0x22 ∨ reg = 0x23 := by bv_omega
  rcases hreg with rfl | rfl | rfl <;> exact refused_of_busy hb

/-- Settles O47. -/
theorem busyUnitsAreClosed : Obligations.BusyUnitsAreClosed := by
  unfold Obligations.BusyUnitsAreClosed
  intro s
  refine ⟨fun hb => ?_, fun hb => ?_, fun hb => ?_, rfl, rfl, rfl⟩
  · exact ⟨fun reg => regRead_frx_busy s reg hb, fun reg d => regWrite_frx_busy s reg d hb,
      fun _ _ => refused_of_busy hb, fun _ => refused_of_busy hb⟩
  · exact ⟨fun reg => regRead_ftx_busy s reg hb, fun reg d => regWrite_ftx_busy s reg d hb,
      fun _ _ => refused_of_busy hb, fun _ _ => refused_of_busy hb, fun _ _ _ _ => refused_of_busy hb,
      fun _ => refused_of_busy hb⟩
  · exact ⟨refused_of_busy hb, refused_of_busy hb, fun reg d => regWrite_nvu_busy s reg d hb,
      fun _ => refused_of_busy hb, fun _ => refused_of_busy hb, fun _ _ => refused_of_busy hb,
      fun _ _ _ _ => refused_of_busy hb⟩

end Sys2Proof.Machine
end

section
/-! Units moved by turns (R300, R301, R302): a command runs by its turns as it does at once, within the stream
accesses that its operation has, and a turn whose stream does not answer changes nothing. -/

namespace Sys2Proof.Machine

/-! ### Commands of an idle unit, in either pace -/

section
variable (s : State)

theorem exec_read_idle (h : readAccepted s) : exec .read s = .next (onRx s (frxRead s.params s.pace)) := by
  obtain ⟨hreset, hidle⟩ := h
  exact if_neg (by simp [hreset, hidle])

theorem exec_write_idle (h : writeAccepted s) :
    exec .write s = .next (onTx s (ftxWrite s.params s.pace)) := by
  obtain ⟨hreset, hidle⟩ := h
  exact if_neg (by simp [hreset, hidle])

theorem exec_nvDec_idle (h : nvAccepted s) :
    exec .nvDec s = .next (onNvIn s (nvDec s.params (s.ctrl == 1) s.pace)) := by
  obtain ⟨hreset, hidle⟩ := h
  exact if_neg (by simp [hreset, hidle])

theorem exec_nvEnc_idle (h : nvAccepted s) : exec .nvEnc s = .next (onNvOut s (nvEnc s.pace)) := by
  obtain ⟨hreset, hidle⟩ := h
  exact if_neg (by simp [hreset, hidle])

end

/-! ### Turns that are not answered (R300) -/

section
variable (p : Config.Params) (r : Frx × Source) (htail : r.2.tail = .growing)
include htail

theorem frxHeaderWord_silent (hshort : r.2.bytes.length < 4) : frxHeaderWord r = none := by
  simp [frxHeaderWord, srcRead_silent _ _ hshort htail]

theorem frxFlagLength_silent (hshort : r.2.bytes.length < 4) : frxFlagLength p r = none := by
  simp [frxFlagLength, srcRead_silent _ _ hshort htail]

theorem frxReceive_silent (d : Option (Bytes → DecResult)) (l : Nat) (hshort : r.2.bytes.length < l) :
    frxReceive d l r = none := by
  simp [frxReceive, srcRead_silent _ _ hshort htail]

end

/-- NV.DEC has no turn while its source holds fewer bytes than its step needs. -/
theorem nvDecTurn_silent (p : Config.Params) (r : Nvu × Source) (n : Nat)
    (hneeds : nvNeeds r.1.phase = some n) (htail : r.2.tail = .growing) (hshort : r.2.bytes.length < n) :
    nvDecTurn p r = none := by
  have hread : ∀ point f, nvRead p n point f r = none := fun point f => by
    simp [nvRead, srcRead_silent _ _ hshort htail]
  cases hph : r.1.phase <;> rw [hph] at hneeds <;> cases hneeds
  all_goals simp only [nvDecTurn, hph, hread]

theorem nvEncTurn_silent (x : Nvu) (snk : Sink) (b : Bytes) (bs : List Bytes) (hph : x.phase = .enc (b :: bs))
    (hb : b ≠ []) (hmode : snk.mode = .silent) : nvEncTurn (x, snk) = none := by
  simp [nvEncTurn_enc x snk b bs hph, sinkWrite, hb, hmode]

theorem unitTurn_frx_stays (s : State) (h : frxTurn s.params (s.frx, s.fsrc) = none) :
    unitTurn .frx s = s := by simp [unitTurn, onRx, h]

theorem unitTurn_ftx_stays (s : State) (h : ftxTurn s.params (s.ftx, s.fsnk) = none) :
    unitTurn .ftx s = s := by simp [unitTurn, onTx, h]

theorem unitTurn_nvDec_stays (s : State) (hdir : s.nvu.dir = false)
    (h : nvDecTurn s.params (s.nvu, s.nsrc) = none) : unitTurn .nvu s = s := by
  simp [unitTurn, nvTurn, onNvIn, hdir, h]

theorem unitTurn_nvEnc_stays (s : State) (hdir : s.nvu.dir = true)
    (h : nvEncTurn (s.nvu, s.nsnk) = none) : unitTurn .nvu s = s := by
  simp [unitTurn, nvTurn, onNvOut, hdir, h]

/-- An accepted READ waits for its HeaderWord in either pace. -/
theorem frxRead_silent (p : Config.Params) (pace : Pace) (x : Frx) (src : Source)
    (htail : src.tail = .growing) (hshort : src.bytes.length < 4) (hlost : src.lost = false) :
    frxRead p pace (x, src) = (frxAccept x, src) := by
  cases pace with
  | stepwise => rw [frxRead, findSource_known _ _ _ hlost]
  | atOnce =>
    rw [frxRead, findSource_known _ _ _ hlost]
    exact runTurns_none _ _ _
      ((frxTurn_accepted p x src).trans (frxHeaderWord_silent (frxAccept x, src) htail hshort))

/-- Settles O15. -/
theorem silentStreamsAreWaitedFor : Obligations.SilentStreamsAreWaitedFor := by
  unfold Obligations.SilentStreamsAreWaitedFor
  intro s
  refine ⟨fun hacc htail hshort hlost => ?_, fun hb htail hwaits => ?_, fun hb hemit hmode => ?_,
    fun n hdir hneeds htail hshort => ?_, fun b bs hdir hph hne hmode => ?_⟩
  · rw [exec_read_idle s hacc, onRx, frxRead_silent _ _ _ _ htail hshort hlost]
  · apply unitTurn_frx_stays
    rcases hwaits with ⟨hv, hshort⟩ | ⟨hv, hc, hl, hshort⟩ | ⟨hv, hc, hl, hshort⟩
    · simpa [frxTurn, hb, hv] using frxHeaderWord_silent (s.frx, s.fsrc) htail hshort
    · simpa [frxTurn, hb, hv, hc, hl] using
        frxFlagLength_silent s.params (s.frx, s.fsrc) htail hshort
    · simpa [frxTurn, hb, hv, hc, hl] using
        frxReceive_silent (s.frx, s.fsrc) htail (dispatch (hdrType s.frx.hw)) _ hshort
  · apply unitTurn_ftx_stays
    rcases ftxEmit_cases (s.ftx, s.fsnk) with ⟨hm, -⟩ | ⟨e, hm, -⟩ | ⟨-, hnone⟩
    · exact absurd (hm.symm.trans hmode) (by decide)
    · exact absurd (hm.symm.trans hmode) (by simp)
    · simpa [ftxTurn, hb, hemit] using hnone
  · exact unitTurn_nvDec_stays s hdir (nvDecTurn_silent s.params (s.nvu, s.nsrc) n hneeds htail hshort)
  · exact unitTurn_nvEnc_stays s hdir (nvEncTurn_silent s.nvu s.nsnk b bs hph hne hmode)

/-! ### Turns one event at a time -/

/-- The turns of FRX, an event each, are a run of its steps. -/
theorem times_unitTurn_frx (n : Nat) (s : State) :
    times (unitTurn .frx) n s = onRx s (runTurns (frxTurn s.params) n) := by
  induction n generalizing s with
  | zero => rfl
  | succ n ih =>
    rw [times, ih]
    simp only [unitTurn, onRx, runTurns_succ]

theorem times_unitTurn_ftx (n : Nat) (s : State) :
    times (unitTurn .ftx) n s = onTx s (runTurns (ftxTurn s.params) n) := by
  induction n generalizing s with
  | zero => rfl
  | succ n ih =>
    rw [times, ih]
    simp only [unitTurn, onTx, runTurns_succ]

theorem nvNextPair_dir (n : Nat) (x : Nvu) : (nvNextPair n x).dir = x.dir := by cases n <;> rfl

theorem nvNextPiece_dir (bs : List Bytes) (x : Nvu) : (nvNextPiece bs x).dir = x.dir := by cases bs <;> rfl

theorem nvCheckLength_dir (p : Config.Params) (len : Nat) (next : NvPhase) (x y : Nvu)
    (h : nvCheckLength p len next x = .ok y) : y.dir = x.dir := by
  rw [nvCheckLength_eq] at h
  split_ifs at h
  cases h; rfl

theorem nvEndPair_dir (p : Config.Params) (more : Nat) (name value : Bytes) (x y : Nvu)
    (h : nvEndPair p more name value x = .ok y) : y.dir = x.dir := by
  rw [nvEndPair_eq] at h
  split at h <;> cases h
  exact nvNextPair_dir _ _

theorem nvRead_dir (p : Config.Params) (n : Nat) (point : TruncPoint) (f : Bytes → Nvu → Except OpError Nvu)
    (r r' : Nvu × Source) (hf : ∀ b y, f b r.1 = .ok y → y.dir = r.1.dir)
    (hr : nvRead p n point f r = some r') : r'.1.dir = r.1.dir := by
  rcases nvRead_cases p n point f r with
    ⟨x, -, hx, e⟩ | ⟨c, -, -, e⟩ | ⟨-, -, e⟩ | ⟨-, -, e⟩ | ⟨c, -, -, e⟩ <;> rw [e] at hr <;> cases hr
  · exact hf _ x hx
  all_goals rfl

/-- DIR stays through an NV.DEC (R37). -/
theorem nvDecTurn_dir (p : Config.Params) (r r' : Nvu × Source) (hr : nvDecTurn p r = some r') :
    r'.1.dir = r.1.dir := by
  cases hph : r.1.phase <;> simp only [nvDecTurn, hph] at hr
  case idle | enc => cases hr
  case decCount =>
    exact nvRead_dir p _ _ _ r r' (fun b y hy => by cases hy; exact nvNextPair_dir _ _) hr
  case decName => exact nvRead_dir p _ _ _ r r' (fun b y hy => by cases hy; rfl) hr
  case decNameLen | decValueLen =>
    exact nvRead_dir p _ _ _ r r' (fun b y hy => nvCheckLength_dir p _ _ _ y hy) hr
  case decValue => exact nvRead_dir p _ _ _ r r' (fun b y hy => nvEndPair_dir p _ _ b _ y hy) hr

/-- DIR stays through an NV.ENC (R37). -/
theorem nvEncTurn_dir (r r' : Nvu × Sink) (hr : nvEncTurn r = some r') : r'.1.dir = r.1.dir := by
  unfold nvEncTurn at hr
  split at hr
  · split at hr <;> cases hr
    · rfl
    · exact nvNextPiece_dir _ _
  · cases hr; rfl
  all_goals cases hr

/-- The turns of NVU in an NV.DEC, an event each, are a run of its steps. -/
theorem times_unitTurn_nvDec (n : Nat) (s : State) (hdir : s.nvu.dir = false) :
    times (unitTurn .nvu) n s = onNvIn s (runTurns (nvDecTurn s.params) n) := by
  induction n generalizing s with
  | zero => rfl
  | succ n ih =>
    have hturn : unitTurn .nvu s = onNvIn s fun r => (nvDecTurn s.params r).getD r := by
      simp [unitTurn, nvTurn, hdir]
    have hdir' : ((nvDecTurn s.params (s.nvu, s.nsrc)).getD (s.nvu, s.nsrc)).1.dir = false := by
      cases hr : nvDecTurn s.params (s.nvu, s.nsrc) with
      | none => exact hdir
      | some r' => exact (nvDecTurn_dir _ _ _ hr).trans hdir
    rw [times, hturn, ih _ hdir']
    simp only [onNvIn, runTurns_succ]

/-- The turns of NVU in an NV.ENC, an event each, are a run of its steps. -/
theorem times_unitTurn_nvEnc (n : Nat) (s : State) (hdir : s.nvu.dir = true) :
    times (unitTurn .nvu) n s = onNvOut s (runTurns nvEncTurn n) := by
  induction n generalizing s with
  | zero => rfl
  | succ n ih =>
    have hturn : unitTurn .nvu s = onNvOut s fun r => (nvEncTurn r).getD r := by
      simp [unitTurn, nvTurn, hdir]
    have hdir' : ((nvEncTurn (s.nvu, s.nsnk)).getD (s.nvu, s.nsnk)).1.dir = true := by
      cases hr : nvEncTurn (s.nvu, s.nsnk) with
      | none => exact hdir
      | some r' => exact (nvEncTurn_dir _ _ hr).trans hdir
    rw [times, hturn, ih _ hdir']
    simp only [onNvOut, runTurns_succ]

/-! ### The two paces agree -/

/-- Settles O16: both paces run the same steps from the acceptance. -/
theorem stepwiseCommandsAgree : Obligations.StepwiseCommandsAgree := by
  unfold Obligations.StepwiseCommandsAgree
  intro s u v
  refine ⟨fun hacc hu hv => ?_, fun hacc hu hv => ?_⟩
  · rw [exec_read_idle { s with pace := .stepwise } hacc] at hu
    rw [exec_read_idle { s with pace := .atOnce } hacc] at hv
    cases hu; cases hv
    rw [times_unitTurn_frx]
    rfl
  · rw [exec_write_idle { s with pace := .stepwise } hacc] at hu
    rw [exec_write_idle { s with pace := .atOnce } hacc] at hv
    cases hu; cases hv
    rw [times_unitTurn_ftx]
    rfl

/-! ### How many turns a name/value command has (R302) -/

/-- A unit without a step after `n` turns is there after any number of turns from `n` on. -/
theorem runTurns_of_le {σ : Type} (f : σ → Option σ) {n m : Nat} (x : σ) (hnm : n ≤ m)
    (h : f (runTurns f n x) = none) : runTurns f m x = runTurns f n x := by
  rw [← Nat.add_sub_cancel' hnm, runTurns_add, runTurns_none _ _ _ h]

theorem accesses_le_nvSteps (count : Word) : 1 + 4 * count.toNat ≤ nvSteps := by
  obtain ⟨m, hm⟩ := nvSteps_room count
  omega

theorem NvDecEnds.idle {p : Config.Params} {x : Nvu} {t : Terminator} {k : Nat}
    {res : Except OpError (NvTable × Nat × Bytes)} {r : Nvu × Source} (h : NvDecEnds p x t k res r) :
    r.1.phase = .idle ∧ r.1.status.busy = false := by
  cases res with
  | ok res => cases h; exact ⟨rfl, rfl⟩
  | error e => obtain ⟨y, src, rfl, -⟩ := h; exact ⟨rfl, rfl⟩

/-- An NV.DEC has ended after one read for the count word and four for each pair that it announces. -/
theorem nvDec_ends_within (p : Config.Params) (strict : Bool) (x : Nvu) (b : Bytes) (t : Terminator) (k : Nat)
    (h4 : 4 ≤ b.length) :
    let r := runTurns (nvDecTurn p) (1 + 4 * (be32At b 0).toNat) (nvAcceptDec strict x, inputOf b t k)
    r.1.phase = .idle ∧ r.1.status.busy = false := by
  intro r
  have hcount : nvDecTurn p (nvAcceptDec strict x, inputOf b t k) =
      some (nvNextPair (be32At b 0).toNat { nvAcceptDec strict x with total := 4 },
        inputOf (b.drop 4) t k) := by
    rw [nvDecTurn_accepted, nvRead, srcRead_enough _ _ h4]
    simp only [be32At_take _ _ _ (show 0 + 4 ≤ 4 by omega)]
  have hpairs := (runTurns_pairs p t k (be32At b 0).toNat 0 { nvAcceptDec strict x with total := 4 }
    (b.drop 4)).idle
  rwa [← runTurns_some _ _ _ _ hcount, show 0 + 4 * (be32At b 0).toNat + 1 = 1 + 4 * (be32At b 0).toNat by
    omega] at hpairs

/-- An NV.ENC with a turn for every byte string has gone as far as its sink lets it: it waits only for a sink
that does not answer. -/
theorem nvEnc_ends_within (x : Nvu) (snk : Sink) :
    ∃ r : Nvu × Sink, (r.1.status.busy = true ↔ snk.mode = .silent) ∧
      ∀ n, 1 + 4 * x.count.toNat ≤ n → runTurns nvEncTurn n (nvAcceptEnc x, snk) = r := by
  have hpieces : (be32 x.count :: pairPieces (nvOut x)).length ≤ 1 + 4 * x.count.toNat := by
    have hout : (nvOut x).length ≤ x.count.toNat := List.length_take_le _ _
    rw [List.length_cons, pairPieces_length]
    omega
  cases hmode : snk.mode with
  | accepts =>
    refine ⟨(nvFinishEnc (nvAcceptEnc x),
      { snk with accepted := snk.accepted ++ (be32 x.count :: pairPieces (nvOut x)).flatten }), by simp,
      fun n hn => ?_⟩
    rw [← Nat.sub_add_cancel (hpieces.trans hn)]
    exact runTurns_accepts (be32 x.count :: pairPieces (nvOut x)) _ (nvAcceptEnc x) snk hmode
  | fails e =>
    refine ⟨(nvRaiseEnc (.ioError e) (nvAcceptEnc x), sinkSome .nsnk snk (be32 x.count) x.free), by simp,
      fun n hn => ?_⟩
    rw [← Nat.sub_add_cancel (show 1 ≤ n by omega)]
    exact runTurns_fails _ _ _ (nvAcceptEnc x) snk e (be32_ne_nil _) rfl hmode
  | silent =>
    exact ⟨_, by simp, fun n _ => runTurns_silent _ _ n (nvAcceptEnc x) snk (be32_ne_nil _) rfl hmode⟩

/-- Settles O42: after its accesses a command has no step left that its stream answers, so the turns that it
has at once beyond them do nothing. -/
theorem nvCommandsEndWithinTheirAccesses : Obligations.NvCommandsEndWithinTheirAccesses := by
  unfold Obligations.NvCommandsEndWithinTheirAccesses
  intro s u v hacc
  refine ⟨fun t hin _ h4 hu hv => ?_, fun hu hv => ?_⟩
  · obtain ⟨htail, hlost⟩ := hin
    have hinput : s.nsrc = inputOf s.nsrc.bytes t s.nsrc.skip := by
      rw [inputOf, ← htail, ← hlost]
    rw [exec_nvDec_idle { s with pace := .stepwise } hacc] at hu
    rw [exec_nvDec_idle { s with pace := .atOnce } hacc] at hv
    cases hu; cases hv
    have hends := nvDec_ends_within s.params (s.ctrl == 1) s.nvu s.nsrc.bytes t s.nsrc.skip h4
    rw [← hinput] at hends
    obtain ⟨hphase, hidle⟩ := hends
    have hrun := runTurns_of_le (nvDecTurn s.params) (nvAcceptDec (s.ctrl == 1) s.nvu, s.nsrc)
      (accesses_le_nvSteps (be32At s.nsrc.bytes 0)) (by simp only [nvDecTurn, hphase])
    rw [times_unitTurn_nvDec _ _ rfl]
    simp only [onNvIn, nvDec, findSource_known _ _ _ hlost, hrun]
    exact ⟨trivial, hidle⟩
  · rw [exec_nvEnc_idle { s with pace := .stepwise } hacc] at hu
    rw [exec_nvEnc_idle { s with pace := .atOnce } hacc] at hv
    cases hu; cases hv
    obtain ⟨r, hbusy, hrun⟩ := nvEnc_ends_within s.nvu s.nsnk
    rw [times_unitTurn_nvEnc _ _ rfl]
    simp only [onNvOut, nvEnc, hrun _ le_rfl, hrun _ (accesses_le_nvSteps s.nvu.count)]
    exact ⟨trivial, hbusy⟩

end Sys2Proof.Machine
end
